-- ==== Sys2Proof/Word.lean ====
section
/-! DEFINITION. The unit of storage, the register word and the sparse table, with no arithmetic of their own. -/

namespace Sys2Proof

/-- The unit of storage (R60). -/
abbrev Byte := BitVec 8

/-- A register (R21). -/
abbrev Word := BitVec 32

/-- Sparse data by index. Canonical form: indices strictly rising (`tableWf` of Machine/Ops.lean). A buffer is a
`Table Byte`, that is a list of `Host.Cell`. -/
abbrev Table (α : Type) := List (Nat × α)

end Sys2Proof
end

