-- ==== Sys2Proof/Syntax.lean ====
section
/-! DEFINITION. What the block executes: one constructor of `Instr` for every row of spec/opcode_table.json, the classes
and enumerations its decoders name, and the places an encoded item stands at. -/

namespace Sys2Proof

/-- The classes of an LZW code, in the order they are tested (R97). -/
inductive CodeClass where
  | clear | eoi | lit | ref | kwkwk | invalid
  deriving DecidableEq, Repr

/-- The classes of a filter tag (R102, R103). -/
inductive FilterTag where
  | none | sub | up | avg | paeth | reserved
  deriving DecidableEq, Repr

/-- The colour types (R107). -/
inductive ColorType where
  | gray | rgb | palette | grayAlpha | rgba
  deriving DecidableEq, Repr

/-- The dispose operations (R111). -/
inductive DisposeOp where
  | none | clearToBackground | restoreToPrevious | reserved
  deriving DecidableEq, Repr

/-- The blend operations (R112). -/
inductive BlendOp where
  | source | over
  deriving DecidableEq, Repr

/-- The two moments of COMP.FRAME at which its dispose operation acts (R261): before the blend, when a snapshot may be
taken, and after the visible canvas has been taken. -/
inductive DisposePhase where
  | beforeBlend | afterVisible
  deriving DecidableEq, Repr

/-- The rows of spec/opcode_table.json. The operands are what the spec's rules bind: a reserved opcode or tag, an LZW
code, the number of a filtered row (R27: a bound variable, not state), the phase of a dispose operation. -/
inductive Instr where
  -- commands, selected by `CMD[7:0]` (R92, R93)
  | nop
  | lzwDecode
  | blitGif
  | defilterRun
  | adam7Run
  | unpackIdx
  | unpackRgba
  | compReset
  | compFrame
  | deltaBbox
  | deltaBlend
  | cmdReserved (opcode : Byte)
  -- LZW codes, selected by value and state (R97)
  | lzwClear
  | lzwEoi
  | lzwLit (code : BitVec 12)
  | lzwRef (code : BitVec 12)
  | lzwKwkwk
  | lzwInvalid (code : BitVec 12)
  -- filter tags, one for each filtered row (R102, R103)
  | filtNone (row : Nat)
  | filtSub (row : Nat)
  | filtUp (row : Nat)
  | filtAvg (row : Nat)
  | filtPaeth (row : Nat)
  | filtReserved (tag : Byte) (row : Nat)
  -- enumeration values of operand registers (R107, R111, R112, R116)
  | disposeNone (phase : DisposePhase)
  | disposeClearToBackground (phase : DisposePhase)
  | disposeRestoreToPrevious (phase : DisposePhase)
  | disposeReserved (phase : DisposePhase)
  | blendSource
  | blendOver
  | rowOrderSequential
  | rowOrderInterlaced
  | transpOff
  | transpOn
  | orderRgba
  | orderBgra
  | ctypeGray
  | ctypeRgb
  | ctypePalette
  | ctypeGrayAlpha
  | ctypeRgba
  | ctypeReserved (value : BitVec 3)
  deriving DecidableEq, Repr

/-- What the class of an LZW code depends on besides its value (R97), and its width (R95). -/
structure CodeCtx where
  /-- `LZW_MINCS` -/
  m : Nat
  /-- `CURSIZE` -/
  width : Nat
  /-- `NEXTCODE` -/
  next : Nat
  /-- `PREVCODE.VALID` -/
  valid : Bool
  deriving DecidableEq, Repr

/-- The kinds of place an encoded item stands at (R90): a value written to `CMD`, an LZW code in the payload, the tag byte
of a filtered row, or a field of an operand register. -/
inductive Site where
  | cmd
  | code (c : CodeCtx)
  | tag (row : Nat)
  | dispose (phase : DisposePhase)
  | blend
  | rowOrder
  | transp
  | order
  | ctype
  deriving DecidableEq, Repr

end Sys2Proof
end

