-- ==== Sys2Proof/WellFormed.lean ====
section
/-! DEFINITION. Which instructions the encodings of the spec can spell, and the LZW states a code can meet. -/

namespace Sys2Proof

/-- The states in which LZW.DECODE fetches a code: `LZW_MINCS` legal (R101), `CURSIZE` and `NEXTCODE` in the ranges of R28. -/
def CodeCtx.legal (c : CodeCtx) : Bool :=
  decide (1 ≤ c.m) && decide (c.m ≤ 8) && decide (c.m + 1 ≤ c.width) && decide (c.width ≤ 12) &&
    decide (2 ^ c.m + 2 ≤ c.next) && decide (c.next ≤ 4096)

/-- `i` has an encoding; an LZW code has one only in a context `c` that gives the code its class (R93, R97, R103, R107). -/
def Instr.wf (c : CodeCtx) : Instr → Bool
  | .cmdReserved op => decide (0x0B ≤ op.toNat)
  | .lzwClear => c.legal
  | .lzwEoi => c.legal
  | .lzwLit code => c.legal && decide (code.toNat < 2 ^ c.m)
  | .lzwRef code =>
    c.legal && decide (code.toNat < 2 ^ c.width) && decide (2 ^ c.m + 1 < code.toNat) && decide (code.toNat < c.next)
  | .lzwKwkwk => c.legal && c.valid && decide (c.next < 2 ^ c.width)
  | .lzwInvalid code =>
    c.legal && decide (code.toNat < 2 ^ c.width) &&
      (decide (c.next < code.toNat) || (decide (code.toNat = c.next) && !c.valid))
  | .filtReserved tag _ => decide (5 ≤ tag.toNat)
  | .ctypeReserved v => v == 1#3 || v == 5#3 || v == 7#3
  | .nop => true
  | .lzwDecode => true
  | .blitGif => true
  | .defilterRun => true
  | .adam7Run => true
  | .unpackIdx => true
  | .unpackRgba => true
  | .compReset => true
  | .compFrame => true
  | .deltaBbox => true
  | .deltaBlend => true
  | .filtNone _ => true
  | .filtSub _ => true
  | .filtUp _ => true
  | .filtAvg _ => true
  | .filtPaeth _ => true
  | .disposeNone _ => true
  | .disposeClearToBackground _ => true
  | .disposeRestoreToPrevious _ => true
  | .disposeReserved _ => true
  | .blendSource => true
  | .blendOver => true
  | .rowOrderSequential => true
  | .rowOrderInterlaced => true
  | .transpOff => true
  | .transpOn => true
  | .orderRgba => true
  | .orderBgra => true
  | .ctypeGray => true
  | .ctypeRgb => true
  | .ctypePalette => true
  | .ctypeGrayAlpha => true
  | .ctypeRgba => true

end Sys2Proof
end

