-- ==== Sys2Proof/Decode.lean ====
section
/-! DEFINITION. The decoder, total on every value at every site, with every reserved encoding decoded to the row the table
names for it; and after it the encoder. Encodings: spec/30_encoding.md. -/

namespace Sys2Proof

/-- Bits `hi` down to `lo` of `w` (R8). -/
def bitField (w hi lo : Nat) : Nat := w / 2 ^ lo % 2 ^ (hi + 1 - lo)

/-- `CMD[7:0]` selects the command; bits [31:8] are ignored (R91, R92); 0x0B to 0xFF are reserved (R93). -/
def decodeCmd (w : Nat) : Instr :=
  match bitField w 7 0 with
  | 0x00 => .nop
  | 0x01 => .lzwDecode
  | 0x02 => .blitGif
  | 0x03 => .defilterRun
  | 0x04 => .adam7Run
  | 0x05 => .unpackIdx
  | 0x06 => .unpackRgba
  | 0x07 => .compReset
  | 0x08 => .compFrame
  | 0x09 => .deltaBbox
  | 0x0A => .deltaBlend
  | op => .cmdReserved (BitVec.ofNat 8 op)

/-- `clearCode` (R96, R131). -/
def clearCode (m : Nat) : Nat := 2 ^ m

/-- `eoiCode` (R96, R131). -/
def eoiCode (m : Nat) : Nat := clearCode m + 1

/-- The class of a code value, by the ordered tests of R97. -/
def classify (c : CodeCtx) (code : Nat) : CodeClass :=
  if code = clearCode c.m then .clear
  else if code = eoiCode c.m then .eoi
  else if code < clearCode c.m then .lit
  else if code < c.next then .ref
  else if code = c.next ∧ c.valid = true then .kwkwk
  else .invalid

/-- An LZW code as an instruction; the code value is the operand of the classes that have one (R98). -/
def decodeCode (c : CodeCtx) (code : Nat) : Instr :=
  match classify c code with
  | .clear => .lzwClear
  | .eoi => .lzwEoi
  | .lit => .lzwLit (BitVec.ofNat 12 code)
  | .ref => .lzwRef (BitVec.ofNat 12 code)
  | .kwkwk => .lzwKwkwk
  | .invalid => .lzwInvalid (BitVec.ofNat 12 code)

/-- All eight bits of the tag are compared (R102); 5 to 255 are reserved (R103). -/
def filterTag (tag : Byte) : FilterTag :=
  if tag = 0#8 then .none
  else if tag = 1#8 then .sub
  else if tag = 2#8 then .up
  else if tag = 3#8 then .avg
  else if tag = 4#8 then .paeth
  else .reserved

/-- The tag byte of filtered row `row` as an instruction. -/
def decodeTag (row : Nat) (tag : Byte) : Instr :=
  match filterTag tag with
  | .none => .filtNone row
  | .sub => .filtSub row
  | .up => .filtUp row
  | .avg => .filtAvg row
  | .paeth => .filtPaeth row
  | .reserved => .filtReserved tag row

/-- `CTYPE` (R107); `none` for the illegal values 1, 5, 7. -/
def colorType (v : BitVec 3) : Option ColorType :=
  if v = 0#3 then some .gray
  else if v = 2#3 then some .rgb
  else if v = 3#3 then some .palette
  else if v = 4#3 then some .grayAlpha
  else if v = 6#3 then some .rgba
  else none

/-- `COMP_CTL.DISPOSE` (R111); 3 is reserved. -/
def disposeOp (v : BitVec 2) : DisposeOp :=
  if v = 0#2 then .none
  else if v = 1#2 then .clearToBackground
  else if v = 2#2 then .restoreToPrevious
  else .reserved

/-- `COMP_CTL.BLEND` (R112). -/
def blendOp (v : Bool) : BlendOp := if v then .over else .source

/-- `CTYPE` as an instruction. -/
def decodeCtype (v : BitVec 3) : Instr :=
  match colorType v with
  | some .gray => .ctypeGray
  | some .rgb => .ctypeRgb
  | some .palette => .ctypePalette
  | some .grayAlpha => .ctypeGrayAlpha
  | some .rgba => .ctypeRgba
  | none => .ctypeReserved v

/-- `COMP_CTL.DISPOSE` as an instruction. -/
def decodeDispose (phase : DisposePhase) (v : BitVec 2) : Instr :=
  match disposeOp v with
  | .none => .disposeNone phase
  | .clearToBackground => .disposeClearToBackground phase
  | .restoreToPrevious => .disposeRestoreToPrevious phase
  | .reserved => .disposeReserved phase

/-- `COMP_CTL.BLEND` as an instruction. -/
def decodeBlend (v : Bool) : Instr :=
  match blendOp v with
  | .source => .blendSource
  | .over => .blendOver

/-- `BLIT_CTL.INTERLACED` as an instruction (R116). -/
def decodeRowOrder (v : Bool) : Instr := if v then .rowOrderInterlaced else .rowOrderSequential

/-- `BLIT_CTL.TRANSP_EN` as an instruction (R116). -/
def decodeTransp (v : Bool) : Instr := if v then .transpOn else .transpOff

/-- `BLIT_CTL.ORDER` as an instruction (R116). -/
def decodeOrder (v : Bool) : Instr := if v then .orderBgra else .orderRgba

/-- The instruction the value `w` spells at a site. Register fields are decoded from the whole 32-bit register value:
`COMP_CTL.DISPOSE` [1:0], `COMP_CTL.BLEND` [4], `BLIT_CTL.INTERLACED` [0], `TRANSP_EN` [1], `ORDER` [2], `CTYPE` [2:0]. -/
def decode (site : Site) (w : Nat) : Instr :=
  match site with
  | .cmd => decodeCmd w
  | .code c => decodeCode c (w % 2 ^ c.width)
  | .tag row => decodeTag row (BitVec.ofNat 8 w)
  | .dispose phase => decodeDispose phase (BitVec.ofNat 2 (bitField w 1 0))
  | .blend => decodeBlend (bitField w 4 4 == 1)
  | .rowOrder => decodeRowOrder (bitField w 0 0 == 1)
  | .transp => decodeTransp (bitField w 1 1 == 1)
  | .order => decodeOrder (bitField w 2 2 == 1)
  | .ctype => decodeCtype (BitVec.ofNat 3 (bitField w 2 0))

/-- The state the first code of a run with `LZW_MINCS = 8` is read in (R132): the context `decodeTableWord` reads a lone
LZW code in (log entry 11). -/
def firstCodeCtx : CodeCtx := { m := 8, width := 9, next := 258, valid := false }

/-- A word of 8 bits is taken for the low byte of a value written to `CMD`, upper bits 0, when it is an opcode that is no filter
tag of R102; any other is taken for a tag (log entry 11). -/
def isLoneOpcode (w : Nat) : Bool := decide (5 ≤ w) && decide (w ≤ 0x0A)

/-- The instruction the decoder reads from a row of the opcode table (log entry 11): 32 bits are a value written to `CMD`,
16 bits hold an LZW code met first in a run, 8 bits are an opcode or the tag of row 0. -/
def decodeTableWord (nbits w : Nat) : Option Instr :=
  if nbits = 32 then some (decode .cmd w)
  else if nbits = 16 then some (decode (.code firstCodeCtx) w)
  else if nbits = 8 then some (if isLoneOpcode w then decode .cmd w else decode (.tag 0) w)
  else none

/-! The encoder. -/

/-- Where an instruction stands; an LZW code stands in the context `c`. -/
def Instr.site (c : CodeCtx) : Instr → Site
  | .nop => .cmd
  | .lzwDecode => .cmd
  | .blitGif => .cmd
  | .defilterRun => .cmd
  | .adam7Run => .cmd
  | .unpackIdx => .cmd
  | .unpackRgba => .cmd
  | .compReset => .cmd
  | .compFrame => .cmd
  | .deltaBbox => .cmd
  | .deltaBlend => .cmd
  | .cmdReserved _ => .cmd
  | .lzwClear => .code c
  | .lzwEoi => .code c
  | .lzwLit _ => .code c
  | .lzwRef _ => .code c
  | .lzwKwkwk => .code c
  | .lzwInvalid _ => .code c
  | .filtNone row => .tag row
  | .filtSub row => .tag row
  | .filtUp row => .tag row
  | .filtAvg row => .tag row
  | .filtPaeth row => .tag row
  | .filtReserved _ row => .tag row
  | .disposeNone phase => .dispose phase
  | .disposeClearToBackground phase => .dispose phase
  | .disposeRestoreToPrevious phase => .dispose phase
  | .disposeReserved phase => .dispose phase
  | .blendSource => .blend
  | .blendOver => .blend
  | .rowOrderSequential => .rowOrder
  | .rowOrderInterlaced => .rowOrder
  | .transpOff => .transp
  | .transpOn => .transp
  | .orderRgba => .order
  | .orderBgra => .order
  | .ctypeGray => .ctype
  | .ctypeRgb => .ctype
  | .ctypePalette => .ctype
  | .ctypeGrayAlpha => .ctype
  | .ctypeRgba => .ctype
  | .ctypeReserved _ => .ctype

/-- How many bits the site holds: a 32-bit register, a code of `CURSIZE` bits (R95), or a byte (R102). -/
def Site.bits : Site → Nat
  | .code c => c.width
  | .tag _ => 8
  | .cmd => 32
  | .dispose _ => 32
  | .blend => 32
  | .rowOrder => 32
  | .transp => 32
  | .order => 32
  | .ctype => 32

/-- The value that spells a well-formed instruction at its site, ignored and foreign bits 0. -/
def encode (c : CodeCtx) : Instr → Nat
  | .nop => 0x00
  | .lzwDecode => 0x01
  | .blitGif => 0x02
  | .defilterRun => 0x03
  | .adam7Run => 0x04
  | .unpackIdx => 0x05
  | .unpackRgba => 0x06
  | .compReset => 0x07
  | .compFrame => 0x08
  | .deltaBbox => 0x09
  | .deltaBlend => 0x0A
  | .cmdReserved op => op.toNat
  | .lzwClear => 2 ^ c.m
  | .lzwEoi => 2 ^ c.m + 1
  | .lzwLit code => code.toNat
  | .lzwRef code => code.toNat
  | .lzwKwkwk => c.next
  | .lzwInvalid code => code.toNat
  | .filtNone _ => 0
  | .filtSub _ => 1
  | .filtUp _ => 2
  | .filtAvg _ => 3
  | .filtPaeth _ => 4
  | .filtReserved tag _ => tag.toNat
  | .disposeNone _ => 0x00
  | .disposeClearToBackground _ => 0x01
  | .disposeRestoreToPrevious _ => 0x02
  | .disposeReserved _ => 0x03
  | .blendSource => 0x00
  | .blendOver => 0x10
  | .rowOrderSequential => 0x0
  | .rowOrderInterlaced => 0x1
  | .transpOff => 0x0
  | .transpOn => 0x2
  | .orderRgba => 0x0
  | .orderBgra => 0x4
  | .ctypeGray => 0
  | .ctypeRgb => 2
  | .ctypePalette => 3
  | .ctypeGrayAlpha => 4
  | .ctypeRgba => 6
  | .ctypeReserved v => v.toNat

end Sys2Proof
end

