-- ==== Sys2Proof/Config.lean ====
section
/-! DEFINITION. What an implementation fixes (the buffer spaces and their capacities) and the free values: values the
spec leaves unspecified, each an opaque constant that no proof can see into. -/

namespace Sys2Proof

/-- The ten byte spaces of R61. They are disjoint (R80). -/
inductive Space where
  | inb | idx | filt | raw | pix | canvas | vis | snap | da | db
  deriving DecidableEq, Repr

/-- One palette entry (R30). -/
structure Rgb where
  r : Byte
  g : Byte
  b : Byte
  deriving DecidableEq, Repr, Inhabited

/-- One dictionary entry (R29). -/
structure DictEntry where
  prefixCode : BitVec 12
  suffix : Byte
  deriving DecidableEq, Repr, Inhabited

/-- The capacities the spec leaves open and a model takes as an argument (R7, R62). -/
structure Caps where
  inb : Nat
  idx : Nat
  filt : Nat
  raw : Nat
  pix : Nat
  canvas : Nat
  deriving DecidableEq, Repr

/-- The capacity of a space; `CAP_CANVAS` applies to each of five (R7, R61). -/
def Caps.of (c : Caps) : Space → Nat
  | .inb => c.inb
  | .idx => c.idx
  | .filt => c.filt
  | .raw => c.raw
  | .pix => c.pix
  | .canvas => c.canvas
  | .vis => c.canvas
  | .snap => c.canvas
  | .da => c.canvas
  | .db => c.canvas

/-- The only constraints the spec puts on the capacities (R62). -/
abbrev Caps.legal (c : Caps) : Prop :=
  (1 ≤ c.inb ∧ c.inb < 2 ^ 29) ∧ (1 ≤ c.idx ∧ c.idx < 2 ^ 29) ∧ (1 ≤ c.filt ∧ c.filt < 2 ^ 29) ∧
  (1 ≤ c.raw ∧ c.raw < 2 ^ 29) ∧ (1 ≤ c.pix ∧ c.pix < 2 ^ 29) ∧ (1 ≤ c.canvas ∧ c.canvas < 2 ^ 29)

/-- DESIGN CHOICE (log entry 4): the capacities State.reset carries, the largest R62 allows. -/
def Caps.largest : Caps :=
  let n := 2 ^ 29 - 1
  { inb := n, idx := n, filt := n, raw := n, pix := n, canvas := n }

namespace Config

/-- Free value (log entry 2): what a buffer byte nobody wrote since reset number `epoch` reads as (R42, R352). -/
opaque powerOn (epoch : Nat) (sp : Space) (i : Nat) : Byte

/-- Free value (log entry 2): a `PAL` entry nobody wrote since reset number `epoch` (R30, R352). -/
opaque powerOnPal (epoch : Nat) (i : Nat) : Rgb

/-- Free value (log entry 2): a `TRNSA` entry nobody wrote since reset number `epoch` (R31, R352). -/
opaque powerOnTrnsa (epoch : Nat) (i : Nat) : Byte

/-- Free value (log entry 2): a `DICT` entry nobody wrote since reset number `epoch` (R29, R42). -/
opaque powerOnDict (epoch : Nat) (code : Nat) : DictEntry

/-- Free value (log entry 3): byte `i` of the footprint of the `n`-th fault that leaves bytes unspecified (R324). -/
opaque afterFault (n : Nat) (i : Nat) : Byte

end Config

end Sys2Proof
end

