-- ==== Sys2Proof/Machine/State.lean ====
section
/-! DEFINITION. The state of the block as plain data (R20), the state after reset (R42), and the reasons a step can stop.
Registers are held as the fields R22 gives them: bits that belong to no field read as 0 and ignore writes (R21). -/

namespace Sys2Proof.Machine

/-- The registers by number (R21, R22). There are 39 and no others. -/
inductive RegName where
  | cmd | status | errinfo | lzwMincs | inLen | outLen | outPos | bitPos | curSize | nextCode | prevCode
  | imgW | imgH | ctype | depth | filtLen | palLen | trnsLen | trnsCtl | trnsK0 | trnsK1 | trnsK2
  | canvasW | canvasH | rectX | rectY | rectW | rectH | blitCtl | idxLen | compCtl | compFrame | tAlpha
  | bbX | bbY | bbW | bbH | blendSel | filtUsed
  deriving DecidableEq, Repr

/-- The operand registers, access RW: the host writes them, no command does (R21, R26). -/
structure Operands where
  lzwMincs : BitVec 4
  inLen : Word
  outLen : Word
  imgW : Word
  imgH : Word
  ctype : BitVec 3
  depth : BitVec 5
  filtLen : Word
  palLen : BitVec 9
  trnsLen : BitVec 9
  /-- `TRNS_CTL.KEY_EN` -/
  keyEn : Bool
  trnsK0 : BitVec 16
  trnsK1 : BitVec 16
  trnsK2 : BitVec 16
  canvasW : Word
  canvasH : Word
  rectX : Word
  rectY : Word
  rectW : Word
  rectH : Word
  /-- `BLIT_CTL.INTERLACED` -/
  interlaced : Bool
  /-- `BLIT_CTL.TRANSP_EN` -/
  transpEn : Bool
  /-- `BLIT_CTL.ORDER` -/
  order : Bool
  /-- `BLIT_CTL.TRANSP_IDX` -/
  transpIdx : Byte
  idxLen : Word
  /-- `COMP_CTL.DISPOSE` -/
  dispose : BitVec 2
  /-- `COMP_CTL.BLEND` -/
  blend : Bool
  tAlpha : BitVec 9
  deriving DecidableEq, Repr

/-- `STATUS` (R24). -/
structure Status where
  busy : Bool
  done : Bool
  err : Bool
  eoi : Bool
  trunc : Bool
  overrun : Bool
  exhausted : Bool
  errcode : Byte
  deriving DecidableEq, Repr

/-- The working registers of U0 (R28); `PREVCODE` as its two fields. -/
structure LzwRegs where
  outPos : Word
  bitPos : Word
  curSize : BitVec 4
  nextCode : BitVec 13
  prevCode : BitVec 12
  prevValid : Bool
  deriving DecidableEq, Repr

/-- `BB_X`, `BB_Y`, `BB_W`, `BB_H` (R37). -/
structure BBox where
  x : Word
  y : Word
  w : Word
  h : Word
  deriving DecidableEq, Repr

/-- The ten buffers (R61), each listing the bytes written since reset. -/
structure Memory where
  inb : Table Byte
  idx : Table Byte
  filt : Table Byte
  raw : Table Byte
  pix : Table Byte
  canvas : Table Byte
  vis : Table Byte
  snap : Table Byte
  da : Table Byte
  db : Table Byte
  deriving DecidableEq, Repr

/-- One access of the host to the idle block (R44), or the reset event (R350). Host reads change nothing and are
functions of the state (Machine/HostAccess.lean). -/
inductive HostAccess where
  | writeReg (r : RegName) (v : Word)
  | writeByte (sp : Space) (i : Nat) (b : Byte)
  | writePal (i : Byte) (c : Rgb)
  | writeTrnsa (i : Byte) (a : Byte)
  | reset
  deriving DecidableEq, Repr

/-- The state of the block (R20) and, marked so, the model's own fields. -/
structure State where
  /-- the operand registers -/
  op : Operands
  /-- `STATUS` -/
  status : Status
  /-- `ERRINFO` (R25) -/
  errinfo : Word
  /-- `OUT_POS`, `BITPOS`, `CURSIZE`, `NEXTCODE`, `PREVCODE` -/
  lzw : LzwRegs
  /-- `COMP_FRAME` (R36) -/
  compFrame : Word
  /-- `BB_X`, `BB_Y`, `BB_W`, `BB_H` -/
  bbox : BBox
  /-- `BLEND_SEL` (R37): false `Source`, true `Over` -/
  blendSel : Bool
  /-- `FILT_USED` (R32) -/
  filtUsed : Word
  /-- `COMP_READY`, the hidden bit (R36) -/
  compReady : Bool
  /-- `DICT` (R29) -/
  dict : Table DictEntry
  /-- `PAL` (R30) -/
  pal : Table Rgb
  /-- `TRNSA` (R31) -/
  trnsa : Table Byte
  /-- the buffers -/
  mem : Memory
  /-- MODEL: the capacities, configuration that no step changes (R7, R62, log entry 4) -/
  caps : Caps
  /-- MODEL: the host accesses still to be carried out, first one first (log entry 1) -/
  host : List HostAccess
  /-- MODEL: how many resets there have been; selects the free values unwritten bytes read as (log entry 2) -/
  epoch : Nat
  /-- MODEL: the counter of fresh free values (log entry 3) -/
  free : Nat
  deriving DecidableEq, Repr

/-- Reasons a step stops with a fault. A fault of the block itself is no stop: it is a next state with `STATUS.ERR = 1`
(R323). -/
inductive Fault where
  /-- Raised by `step` when the host writes a byte at an index at or above the space's capacity: no such byte exists
  (R61). Safe (log entry 7). -/
  | noSuchByte
  deriving DecidableEq, Repr

/-- Reasons a step is refused. -/
inductive Refusal where
  /-- Raised by `exec` for an instruction that has no meaning yet. Safe. -/
  | notModelled (mnemonic : String)
  /-- Raised by `step` when a host access or a reset meets `STATUS.BUSY = 1`, which the spec puts outside the model (R23,
  R353, R361); no run reaches such a state. Safe (log entry 6). -/
  | hostAccessWhileBusy
  deriving DecidableEq, Repr

/-- Every operand register 0 (R42). -/
def Operands.zero : Operands :=
  { lzwMincs := 0, inLen := 0, outLen := 0, imgW := 0, imgH := 0, ctype := 0, depth := 0, filtLen := 0,
    palLen := 0, trnsLen := 0, keyEn := false, trnsK0 := 0, trnsK1 := 0, trnsK2 := 0,
    canvasW := 0, canvasH := 0, rectX := 0, rectY := 0, rectW := 0, rectH := 0,
    interlaced := false, transpEn := false, order := false, transpIdx := 0, idxLen := 0,
    dispose := 0, blend := false, tAlpha := 0 }

/-- `STATUS = 0` (R24, R42). -/
def Status.zero : Status :=
  { busy := false, done := false, err := false, eoi := false, trunc := false, overrun := false, exhausted := false,
    errcode := 0 }

/-- Every working register of U0 0 (R42). -/
def LzwRegs.zero : LzwRegs :=
  { outPos := 0, bitPos := 0, curSize := 0, nextCode := 0, prevCode := 0, prevValid := false }

/-- Nothing written in any buffer (R42, R352). -/
def Memory.empty : Memory :=
  { inb := [], idx := [], filt := [], raw := [], pix := [], canvas := [], vis := [], snap := [], da := [], db := [] }

/-- The block after reset (R42, R350): every register 0, `COMP_READY = 0`, no table entry and no buffer byte written. The
model's own fields: log entries 1 to 4. -/
def State.reset : State :=
  { op := Operands.zero, status := Status.zero, errinfo := 0, lzw := LzwRegs.zero, compFrame := 0,
    bbox := { x := 0, y := 0, w := 0, h := 0 }, blendSel := false, filtUsed := 0, compReady := false,
    dict := [], pal := [], trnsa := [], mem := Memory.empty,
    caps := Caps.largest, host := [], epoch := 0, free := 0 }

end Sys2Proof.Machine
end

