-- ==== Sys2Proof/Machine/Ops.lean ====
section
/-! DEFINITION. The named operations over tables, buffers and registers, and taking a fault: the one way any rule reads
or writes the state's storage. -/

namespace Sys2Proof.Machine

/-! Tables. -/

/-- The entry listed at index `k`. -/
def tableGet {α : Type} : Table α → Nat → Option α
  | [], _ => none
  | (a, v) :: rest, k => if a = k then some v else tableGet rest k

/-- Write the values `vs` at the indices `k`, `k+1`, ... . -/
def tablePut {α : Type} (t : Table α) (k : Nat) (vs : List α) : Table α :=
  t.filter (fun e => decide (e.1 < k)) ++ (List.range' k vs.length).zip vs ++
    t.filter (fun e => decide (k + vs.length ≤ e.1))

/-- The canonical form: the listed indices rise strictly. -/
abbrev tableWf {α : Type} (t : Table α) : Prop := (t.map Prod.fst).Pairwise (· < ·)

/-- Every listed index is below `n`. -/
abbrev tableBelow {α : Type} (t : Table α) (n : Nat) : Prop := ∀ e ∈ t, e.1 < n

/-! Buffers (R61, R63, R70). -/

/-- The table of a space. -/
def Memory.buf (m : Memory) : Space → Table Byte
  | .inb => m.inb
  | .idx => m.idx
  | .filt => m.filt
  | .raw => m.raw
  | .pix => m.pix
  | .canvas => m.canvas
  | .vis => m.vis
  | .snap => m.snap
  | .da => m.da
  | .db => m.db

/-- Replace the table of one space; the spaces are disjoint (R80). -/
def Memory.setBuf (m : Memory) (sp : Space) (t : Table Byte) : Memory :=
  match sp with
  | .inb => { m with inb := t }
  | .idx => { m with idx := t }
  | .filt => { m with filt := t }
  | .raw => { m with raw := t }
  | .pix => { m with pix := t }
  | .canvas => { m with canvas := t }
  | .vis => { m with vis := t }
  | .snap => { m with snap := t }
  | .da => { m with da := t }
  | .db => { m with db := t }

/-- Every buffer is in canonical form. -/
abbrev Memory.wf (m : Memory) : Prop :=
  tableWf m.inb ∧ tableWf m.idx ∧ tableWf m.filt ∧ tableWf m.raw ∧ tableWf m.pix ∧
  tableWf m.canvas ∧ tableWf m.vis ∧ tableWf m.snap ∧ tableWf m.da ∧ tableWf m.db

/-- What byte `i` of a table of space `sp` reads as: the byte listed, else a free value fixed since the last reset
(R42, R70, R352; log entry 2). -/
def byteOf (epoch : Nat) (sp : Space) (t : Table Byte) (i : Nat) : Byte :=
  (tableGet t i).getD (Config.powerOn epoch sp i)

/-- `MemRead(SPACE, i)` (R9). -/
def State.byte (s : State) (sp : Space) (i : Nat) : Byte := byteOf s.epoch sp (s.mem.buf sp) i

/-- `MemRead(SPACE, i, n)` (R9). -/
def State.bytes (s : State) (sp : Space) (i n : Nat) : List Byte :=
  (List.range' i n).map (s.byte sp)

/-- Replace a whole buffer. -/
def State.setBuf (s : State) (sp : Space) (t : Table Byte) : State := { s with mem := s.mem.setBuf sp t }

/-- `MemWrite(SPACE, i, n, bs)` with `n = len(bs)` (R9). -/
def State.write (s : State) (sp : Space) (i : Nat) (bs : List Byte) : State :=
  s.setBuf sp (tablePut (s.mem.buf sp) i bs)

/-! Tables of the block. -/

/-- `DICT[code]` (R29). -/
def State.dictAt (s : State) (code : Nat) : DictEntry :=
  (tableGet s.dict code).getD (Config.powerOnDict s.epoch code)

/-- `PAL[i]` (R30). -/
def State.palAt (s : State) (i : Nat) : Rgb := (tableGet s.pal i).getD (Config.powerOnPal s.epoch i)

/-- `TRNSA[i]` (R31). -/
def State.trnsaAt (s : State) (i : Nat) : Byte := (tableGet s.trnsa i).getD (Config.powerOnTrnsa s.epoch i)

/-! The steps common to every command (R300) and taking a fault (R323). -/

/-- The fatal faults (R321). -/
inductive ErrKind where
  | cmd | param | seq | underrun | lzwCode | filterTag | palIndex
  deriving DecidableEq, Repr

/-- `STATUS.ERRCODE` of a fault (R321). -/
def errCode : ErrKind → Byte
  | .cmd => 1
  | .param => 2
  | .seq => 3
  | .underrun => 4
  | .lzwCode => 5
  | .filterTag => 6
  | .palIndex => 7

/-- The `CMD` write clears every field of `STATUS` and `ERRINFO` (R24, R300). -/
def State.begin (s : State) : State := { s with status := Status.zero, errinfo := 0 }

/-- A command that ends without a fault (R300, R149). -/
def State.finish (s : State) : State :=
  { s with status := { s.status with done := true, busy := false } }

/-- `raise E_X(info)` (R323): the one way a fault is taken. `ERR`, `ERRCODE`, `ERRINFO` and `DONE` are set, the warning
flags are forced to 0, nothing else is written. There is no vector and no return operation (R336, R337). -/
def State.raise (s : State) (e : ErrKind) (info : Nat) : State :=
  { s with
    status := { Status.zero with done := true, err := true, errcode := errCode e }
    errinfo := BitVec.ofNat 32 info }

/-- The body of a command has run: unless it raised a fault, the command ends normally (R300). -/
def State.complete (s : State) : State := if s.status.err then s else s.finish

/-- An operand check: what must hold, and the number of the register it names (R326). -/
abbrev Check := Bool × Nat

/-- The register named by the first failing check (R325). -/
def firstFailing : List Check → Option Nat
  | [] => none
  | (ok, reg) :: rest => if ok then firstFailing rest else some reg

/-- A command: clear the status, run the operand checks in order, and if all pass run the body to its end (R300, R325). -/
def command (checks : List Check) (body : State → State) (s : State) : State :=
  match firstFailing checks with
  | some reg => s.begin.raise .param reg
  | none => (body s.begin).complete

/-- `n` bytes of space `sp` from index `i` on become unspecified: each takes a fresh free value (R324, log entry 3). -/
def State.forget (s : State) (sp : Space) (i n : Nat) : State :=
  { s.write sp i ((List.range' i n).map (Config.afterFault s.free)) with free := s.free + 1 }

end Sys2Proof.Machine
end

