-- ==== Sys2Proof/Machine/Operands.lean ====
section
/-! DEFINITION. Operands: what the operand registers say about sizes, layouts and rectangles, how a sample is taken
from a raw row, and the start checks that several commands share. Every length is an exact natural number (R7). -/

namespace Sys2Proof.Machine

/-! Colour type and depth (R104 to R109). -/

/-- Channels per pixel (R104). -/
def channels : ColorType → Nat
  | .gray => 1
  | .rgb => 3
  | .palette => 1
  | .grayAlpha => 2
  | .rgba => 4

/-- The legal depths of a colour type (R105, R106). -/
def depthLegal (ct : ColorType) (depth : Nat) : Bool :=
  match ct with
  | .gray => depth == 1 || depth == 2 || depth == 4 || depth == 8 || depth == 16
  | .rgb => depth == 8 || depth == 16
  | .palette => depth == 1 || depth == 2 || depth == 4 || depth == 8
  | .grayAlpha => depth == 8 || depth == 16
  | .rgba => depth == 8 || depth == 16

/-- `ceil(x / y)` (R8). -/
def ceilDiv (x y : Nat) : Nat := (x + y - 1) / y

/-- `rowBytes(w)` (R109). -/
def rowBytes (bitsPerPixel w : Nat) : Nat := ceilDiv (w * bitsPerPixel) 8

/-- `bpp`, the filter's byte distance, at least 1 (R109). -/
def filterDistance (bitsPerPixel : Nat) : Nat := max 1 (ceilDiv bitsPerPixel 8)

/-- `bitsPerPixel` (R108) for the colour type `ct` and the depth the register holds. -/
def bitsPerPixel (s : State) (ct : ColorType) : Nat := channels ct * s.op.depth.toNat

/-- `bitsPerPixel` for the colour type the register `CTYPE` holds; 0 when that is illegal (R107), which every command
that reads `CTYPE` refuses. -/
def imageBits (s : State) : Nat :=
  match colorType s.op.ctype with
  | some ct => bitsPerPixel s ct
  | none => 0

/-- `DEPTH` is legal for `CTYPE` (R105). -/
def imageDepthLegal (s : State) : Bool :=
  match colorType s.op.ctype with
  | some ct => depthLegal ct s.op.depth.toNat
  | none => false

/-- The image's width and height. -/
def imgW (s : State) : Nat := s.op.imgW.toNat

def imgH (s : State) : Nat := s.op.imgH.toNat

/-- `rowBytes(IMG_W)`. -/
def imageRowBytes (s : State) : Nat := rowBytes (imageBits s) (imgW s)

/-! Samples (R68, R69, R110). -/

/-- Sample `k` of pixel `i` of a raw row whose bytes are `row`, with `ch` channels of `depth` bits: a byte, two bytes high
byte first, or a field packed most significant bits first. -/
def sampleAt (row : Nat → Byte) (depth ch i k : Nat) : Nat :=
  if depth = 8 then (row (i * ch + k)).toNat
  else if depth = 16 then 256 * (row (2 * (i * ch + k))).toNat + (row (2 * (i * ch + k) + 1)).toNat
  else (row (i * depth / 8)).toNat / 2 ^ (8 - depth - i * depth % 8) % 2 ^ depth

/-! Canvas and rectangle (R34, R71). -/

def canvasW (s : State) : Nat := s.op.canvasW.toNat

def canvasH (s : State) : Nat := s.op.canvasH.toNat

/-- The canvas in bytes, `CANVAS_W * CANVAS_H * 4`. -/
def canvasBytes (s : State) : Nat := canvasW s * canvasH s * 4

def rectX (s : State) : Nat := s.op.rectX.toNat

def rectY (s : State) : Nat := s.op.rectY.toNat

def rectW (s : State) : Nat := s.op.rectW.toNat

def rectH (s : State) : Nat := s.op.rectH.toNat

/-- The first byte of pixel `(x, y)` of a canvas-wide buffer (R71). -/
def pixelAddr (s : State) (x y : Nat) : Nat := 4 * (y * canvasW s + x)

/-- The first byte of the canvas pixel of rectangle pixel `(c, r)` (R175, R261). -/
def rectAddr (s : State) (c r : Nat) : Nat := pixelAddr s (rectX s + c) (rectY s + r)

/-- The pixels of a `w` by `h` area, row-major. -/
def pixelsOf (w h : Nat) : List (Nat × Nat) :=
  (List.range h).flatMap fun y => (List.range w).map fun x => (x, y)

/-! Start checks that several commands share (R326), with the register number `ERRINFO` reports. -/

/-- `CANVAS_W >= 1`, `CANVAS_H >= 1`, canvas bytes within `CAP_CANVAS`. -/
def canvasChecks (s : State) : List Check :=
  [ (decide (1 ≤ canvasW s), 22),
    (decide (1 ≤ canvasH s), 23),
    (decide (canvasBytes s ≤ s.caps.canvas), 22) ]

/-- A rectangle that is not empty and inside the canvas. -/
def rectChecks (s : State) : List Check :=
  [ (decide (1 ≤ rectW s), 26),
    (decide (1 ≤ rectH s), 27),
    (decide (rectX s + rectW s ≤ canvasW s), 24),
    (decide (rectY s + rectH s ≤ canvasH s), 25) ]

/-- Colour type, depth and size of an image (the first four checks of R190, R210, R235). -/
def imageChecks (s : State) : List Check :=
  [ ((colorType s.op.ctype).isSome, 13),
    (imageDepthLegal s, 14),
    (decide (1 ≤ imgW s), 11),
    (decide (1 ≤ imgH s), 12) ]

/-- The raw rows fit in `RAW`. -/
def rawCheck (s : State) : Check := (decide (imgH s * imageRowBytes s ≤ s.caps.raw), 12)

end Sys2Proof.Machine
end

