-- ==== Sys2Proof/Machine/Flags.lean ====
section
/-! DEFINITION. The fields of `STATUS` a command computes (R24, R38, R149), and `STATUS` as the 32-bit register the host reads. -/

namespace Sys2Proof.Machine

/-- `STATUS.EOI <- 1` (R137). -/
def State.setEoi (s : State) : State := { s with status := { s.status with eoi := true } }

/-- `STATUS.EXHAUSTED <- 1` (R134). -/
def State.setExhausted (s : State) : State := { s with status := { s.status with exhausted := true } }

/-- `STATUS.OVERRUN <- 1` (R143). -/
def State.setOverrun (s : State) : State := { s with status := { s.status with overrun := true } }

/-- A run of LZW.DECODE has ended in one of the four ways of R149. The `CMD` write cleared all four flags, so one of them
is set exactly when the run has ended. -/
def Status.halted (f : Status) : Bool := f.eoi || f.exhausted || f.overrun || f.err

/-- `STATUS.TRUNC` at the end of LZW.DECODE (R149). -/
def lzwTrunc (s : State) : Bool := s.status.exhausted || decide (s.lzw.outPos.toNat < s.op.outLen.toNat)

/-- The finish of R149: `TRUNC` is computed unless the run raised a fault. -/
def lzwFinish (s : State) : State :=
  if s.status.err then s else { s with status := { s.status with trunc := lzwTrunc s } }

/-- One bit of a register value. -/
def bitAt (b : Bool) (k : Nat) : Word := if b then BitVec.ofNat 32 (2 ^ k) else 0

/-- `STATUS` as read by the host: `BUSY` [0], `DONE` [1], `ERR` [2], `EOI` [3], `TRUNC` [4], `OVERRUN` [5], `EXHAUSTED` [6],
`ERRCODE` [15:8], the other bits 0 (R21, R22). -/
def Status.word (f : Status) : Word :=
  bitAt f.busy 0 ||| bitAt f.done 1 ||| bitAt f.err 2 ||| bitAt f.eoi 3 ||| bitAt f.trunc 4 |||
    bitAt f.overrun 5 ||| bitAt f.exhausted 6 ||| (f.errcode.setWidth 32 <<< 8)

end Sys2Proof.Machine
end

