-- ==== Sys2Proof/Machine/Defilter.lean ====
section
/-! DEFINITION. U2, the scanline defilter (spec/42_scanline_defilter.md): the predictors, `Recon`, DEFILTER.RUN and the filter
tags. A tag, run as an instruction on row `y`, reconstructs that row of the image the operand registers describe from
`FILT` and from raw row `y - 1` (log entry 9). -/

namespace Sys2Proof.Machine

/-! Predictors (R193 to R198): left, up, upper-left. -/

/-- `FILT.NONE` (R193). -/
def predNone (_a _b _c : Byte) : Byte := 0

/-- `FILT.SUB` (R194). -/
def predSub (a _b _c : Byte) : Byte := a

/-- `FILT.UP` (R195). -/
def predUp (_a b _c : Byte) : Byte := b

/-- `FILT.AVG` (R196): the sum is formed without wrap-around. -/
def predAvg (a b _c : Byte) : Byte := BitVec.ofNat 8 ((a.toNat + b.toNat) / 2)

/-- The Paeth function (R198), on exact integers. -/
def paeth (a b c : Byte) : Byte :=
  let p : Int := (a.toNat : Int) + b.toNat - c.toNat
  let pa := (p - a.toNat).natAbs
  let pb := (p - b.toNat).natAbs
  let pc := (p - c.toNat).natAbs
  if pa ≤ pb ∧ pa ≤ pc then a
  else if pb ≤ pc then b
  else c

/-- `FILT.PAETH` (R197). -/
def predPaeth (a b c : Byte) : Byte := paeth a b c

/-- The predictor of a tag (R191, R192); `none` for a reserved one (R199). -/
def predictor : FilterTag → Option (Byte → Byte → Byte → Byte)
  | .none => some predNone
  | .sub => some predSub
  | .up => some predUp
  | .avg => some predAvg
  | .paeth => some predPaeth
  | .reserved => none

/-! Reconstruction (R191, R192, R201, R202). -/

/-- The bytes of a row from the `cur.length`-th on, given those before (`cur`): `f + pred(left, up, upper-left) mod 256`, with 0
for neighbours before the start of the row (R202). -/
def reconFrom (pred : Byte → Byte → Byte → Byte) (bpp : Nat) (prev : List Byte) : List Byte → List Byte → List Byte
  | cur, [] => cur
  | cur, f :: rest =>
    let x := cur.length
    let a := if bpp ≤ x then cur.getD (x - bpp) 0 else 0
    let b := prev.getD x 0
    let c := if bpp ≤ x then prev.getD (x - bpp) 0 else 0
    reconFrom pred bpp prev (cur ++ [f + pred a b c]) rest

/-- One raw row (R191). -/
def reconRow (pred : Byte → Byte → Byte → Byte) (bpp : Nat) (prev filtered : List Byte) : List Byte :=
  reconFrom pred bpp prev [] filtered

/-- `Recon` (R191) from the tag byte at index `t` of `FILT` on: `h` rows of `rb` bytes, strictly in order; the index of a
reserved tag when it is reached (R199). -/
def recon (s : State) (rb bpp : Nat) : Nat → Nat → List Byte → Except Nat (List (List Byte))
  | 0, _, _ => .ok []
  | h + 1, t, prev =>
    match predictor (filterTag (s.byte .filt t)) with
    | none => .error t
    | some pred =>
      let cur := reconRow pred bpp prev (s.bytes .filt (t + 1) rb)
      match recon s rb bpp h (t + 1 + rb) cur with
      | .ok rows => .ok (cur :: rows)
      | .error e => .error e

/-- The zero row above the first one (R202). -/
def zeroRow (rb : Nat) : List Byte := List.replicate rb 0

/-- `E_FILTER_TAG(t)`: `RAW` becomes unspecified within the footprint of the image (R199, R324). -/
def raiseFilterTag (t : Nat) (s : State) : State :=
  (s.raise .filterTag t).forget .raw 0 (imgH s * imageRowBytes s)

/-- The filter's byte distance for the image (R109). -/
def imageDistance (s : State) : Nat := filterDistance (imageBits s)

/-! DEFILTER.RUN (R190). -/

/-- The bytes of `FILT` a non-interlaced image needs (R203). -/
def defilterNeed (s : State) : Nat := imgH s * (1 + imageRowBytes s)

/-- The operand checks of DEFILTER.RUN and ADAM7.RUN (R190, R210). -/
def reconChecks (s : State) : List Check :=
  imageChecks s ++ [(decide (s.op.filtLen.toNat ≤ s.caps.filt), 15), rawCheck s]

/-- DEFILTER.RUN after its operand checks (R190). -/
def defilterRun (s : State) : State :=
  if s.op.filtLen.toNat < defilterNeed s then s.raise .underrun (defilterNeed s)
  else
    match recon s (imageRowBytes s) (imageDistance s) (imgH s) 0 (zeroRow (imageRowBytes s)) with
    | .error t => raiseFilterTag t s
    | .ok rows => { s.write .raw 0 rows.flatten with filtUsed := BitVec.ofNat 32 (defilterNeed s) }

/-! One row. -/

/-- The index in `FILT` of the tag of row `y` (R72, R191). -/
def tagAddr (s : State) (y : Nat) : Nat := y * (1 + imageRowBytes s)

/-- The index in `RAW` of raw row `y` (R72). -/
def rawRowAddr (s : State) (y : Nat) : Nat := y * imageRowBytes s

/-- Raw row `y - 1`, zero for the first row (R202). -/
def rowAbove (s : State) (y : Nat) : List Byte :=
  if y = 0 then zeroRow (imageRowBytes s) else s.bytes .raw (rawRowAddr s (y - 1)) (imageRowBytes s)

/-- Reconstruct row `y` with one predictor and write it to `RAW` (R191); an image has no row at or beyond `IMG_H`. -/
def defilterRow (pred : Byte → Byte → Byte → Byte) (y : Nat) (s : State) : State :=
  if y < imgH s then
    s.write .raw (rawRowAddr s y)
      (reconRow pred (imageDistance s) (rowAbove s y) (s.bytes .filt (tagAddr s y + 1) (imageRowBytes s)))
  else s

/-! The instructions. -/

/-- `DEFILTER.RUN` (R190). -/
def execDefilterRun (s : State) : Host.Outcome State Fault Refusal := .next (command (reconChecks s) defilterRun s)

/-- `FILT.NONE` (R193). -/
def execFiltNone (row : Nat) (s : State) : Host.Outcome State Fault Refusal := .next (defilterRow predNone row s)

/-- `FILT.SUB` (R194). -/
def execFiltSub (row : Nat) (s : State) : Host.Outcome State Fault Refusal := .next (defilterRow predSub row s)

/-- `FILT.UP` (R195). -/
def execFiltUp (row : Nat) (s : State) : Host.Outcome State Fault Refusal := .next (defilterRow predUp row s)

/-- `FILT.AVG` (R196). -/
def execFiltAvg (row : Nat) (s : State) : Host.Outcome State Fault Refusal := .next (defilterRow predAvg row s)

/-- `FILT.PAETH` (R197). -/
def execFiltPaeth (row : Nat) (s : State) : Host.Outcome State Fault Refusal := .next (defilterRow predPaeth row s)

/-- `FILT.RESERVED` (R199): `E_FILTER_TAG` with the index of the row's tag byte, whichever reserved value the tag has. -/
def execFiltReserved (_tag : Byte) (row : Nat) (s : State) : Host.Outcome State Fault Refusal :=
  .next (raiseFilterTag (tagAddr s row) s)

end Sys2Proof.Machine
end

