-- ==== Sys2Proof/Machine/Adam7.lean ====
section
/-! DEFINITION. U3, the Adam7 deinterlacer (spec/43_adam7_deinterlace.md): pass geometry, scatter, ADAM7.RUN. -/

namespace Sys2Proof.Machine

/-- `(startRow, startCol, rowStep, colStep)` of a pass (R113). -/
structure Pass where
  startRow : Nat
  startCol : Nat
  rowStep : Nat
  colStep : Nat
  deriving DecidableEq, Repr

/-- The seven passes (R113). -/
def adam7Passes : List Pass :=
  [ ⟨0, 0, 8, 8⟩, ⟨0, 4, 8, 8⟩, ⟨4, 0, 8, 4⟩, ⟨0, 2, 4, 4⟩, ⟨2, 0, 4, 2⟩, ⟨0, 1, 2, 2⟩, ⟨1, 0, 2, 1⟩ ]

/-- How many lattice points `start, start + step, ...` lie below `n` (R211). -/
def latticeCount (n start step : Nat) : Nat := if start < n then (n - start + step - 1) / step else 0

/-- `pw` (R211). -/
def passW (w : Nat) (p : Pass) : Nat := latticeCount w p.startCol p.colStep

/-- `ph` (R211). -/
def passH (h : Nat) (p : Pass) : Nat := latticeCount h p.startRow p.rowStep

/-- `len_p`: an empty pass contributes no bytes (R212, R213). -/
def passLen (bits w h : Nat) (p : Pass) : Nat :=
  if passW w p = 0 ∨ passH h p = 0 then 0 else passH h p * (1 + rowBytes bits (passW w p))

/-- `need` (R213). -/
def adam7Need (s : State) : Nat := (adam7Passes.map (passLen (imageBits s) (imgW s) (imgH s))).sum

/-! Scatter (R215 to R217), on the bytes of the full raster. -/

/-- Replace bits `[sh + bp - 1 : sh]` of a byte by `v`, other bits kept (R217). -/
def putField (old : Byte) (sh bp v : Nat) : Byte :=
  BitVec.ofNat 8 (old.toNat / 2 ^ (sh + bp) * 2 ^ (sh + bp) + v * 2 ^ sh + old.toNat % 2 ^ sh)

/-- Put pixel `i` of a pass row at pixel `x` of raw row `y`: whole bytes (R216), or a field of a byte, MSB-first on both
sides (R217). -/
def putPixel (bits rbFull : Nat) (row : List Byte) (i x y : Nat) (raw : List Byte) : List Byte :=
  if 8 ≤ bits then
    let n := bits / 8
    (List.range n).foldl (fun r k => r.set (y * rbFull + x * n + k) (row.getD (i * n + k) 0)) raw
  else
    let v := (row.getD (i * bits / 8) 0).toNat / 2 ^ (8 - bits - i * bits % 8) % 2 ^ bits
    let at' := y * rbFull + x * bits / 8
    raw.set at' (putField (raw.getD at' 0) (8 - bits - x * bits % 8) bits v)

/-- Scatter the rows of a pass (R210, R215): `j` is the number of the first of `rows`. -/
def scatterRows (bits rbFull pw : Nat) (p : Pass) : Nat → List (List Byte) → List Byte → List Byte
  | _, [], raw => raw
  | j, row :: rest, raw =>
    scatterRows bits rbFull pw p (j + 1) rest
      ((List.range pw).foldl
        (fun r i => putPixel bits rbFull row i (p.startCol + i * p.colStep) (p.startRow + j * p.rowStep) r) raw)

/-- The passes in order from offset `off` of `FILT` on (R210, R212, R214, R221): each is reconstructed on its own and
scattered; the index of a reserved tag when one is reached. -/
def adam7Go (s : State) : List Pass → Nat → List Byte → Except Nat (List Byte)
  | [], _, raw => .ok raw
  | p :: rest, off, raw =>
    let pw := passW (imgW s) p
    let ph := passH (imgH s) p
    if pw = 0 ∨ ph = 0 then adam7Go s rest off raw
    else
      let rb := rowBytes (imageBits s) pw
      match recon s rb (imageDistance s) ph off (zeroRow rb) with
      | .error t => .error t
      | .ok rows =>
        adam7Go s rest (off + ph * (1 + rb)) (scatterRows (imageBits s) (imageRowBytes s) pw p 0 rows raw)

/-- ADAM7.RUN after its operand checks (R210): the raster starts as zeros (R218). -/
def adam7Run (s : State) : State :=
  if s.op.filtLen.toNat < adam7Need s then s.raise .underrun (adam7Need s)
  else
    match adam7Go s adam7Passes 0 (List.replicate (imgH s * imageRowBytes s) 0) with
    | .error t => raiseFilterTag t s
    | .ok raw => { s.write .raw 0 raw with filtUsed := BitVec.ofNat 32 (adam7Need s) }

/-- `ADAM7.RUN` (R210). -/
def execAdam7Run (s : State) : Host.Outcome State Fault Refusal := .next (command (reconChecks s) adam7Run s)

end Sys2Proof.Machine
end

