-- ==== Sys2Proof/Machine/Blit.lean ====
section
/-! DEFINITION. U1, the palette blitter (spec/41_palette_blitter.md): BLIT.GIF and the values of `BLIT_CTL`. The value of a
`BLIT_CTL` field, run as an instruction, is the blit of the whole index stream with that field at that value (log entry 9). -/

namespace Sys2Proof.Machine

/-! Row order (R115, R173, R174). -/

/-- The rows `start, start + stride, ...` below `h`. -/
def passRows (start stride h : Nat) : List Nat :=
  (List.range (ceilDiv (h - start) stride)).map fun k => start + k * stride

/-- `rows(h)`: the four passes of the GIF interlace one after another (R115, R174). -/
def interlacedRows (h : Nat) : List Nat := passRows 0 8 h ++ passRows 4 8 h ++ passRows 2 4 h ++ passRows 1 2 h

/-- `rowOf(k, h)` (R173, R174). -/
def rowOf (interlaced : Bool) (k h : Nat) : Nat := if interlaced then (interlacedRows h).getD k 0 else k

/-! One pixel (R170, R175 to R179). -/

/-- What the blitter does with an index: skip it (R176), report it (R177), or write four bytes (R178, R179). -/
inductive BlitAct where
  | skip
  | bad
  | paint (bs : List Byte)
  deriving DecidableEq, Repr

/-- How a blit runs: the selections of `BLIT_CTL`. -/
structure BlitMode where
  interlaced : Bool
  transpEn : Bool
  order : Bool
  deriving DecidableEq, Repr

/-- The selections the register `BLIT_CTL` holds (R116). -/
def blitMode (s : State) : BlitMode :=
  { interlaced := s.op.interlaced, transpEn := s.op.transpEn, order := s.op.order }

/-- The bytes of a palette entry at full opacity: R, G, B, 255 (R178), or B, G, R, 255 (R179). -/
def blitColour (order : Bool) (c : Rgb) : List Byte :=
  if order then [c.b, c.g, c.r, 255#8] else [c.r, c.g, c.b, 255#8]

/-- What happens to index `idx`: the transparent test comes before the palette bound (R176, R177). -/
def blitAct (mode : BlitMode) (s : State) (idx : Byte) : BlitAct :=
  if mode.transpEn = true ∧ idx = s.op.transpIdx then .skip
  else if s.op.palLen.toNat ≤ idx.toNat then .bad
  else .paint (blitColour mode.order (s.palAt idx.toNat))

/-- How many indices are processed (R171). -/
def blitCount (s : State) : Nat := min s.op.idxLen.toNat (rectW s * rectH s)

/-- The canvas byte stream position `i` is painted at (R172, R175). -/
def blitAddr (mode : BlitMode) (s : State) (i : Nat) : Nat :=
  rectAddr s (i % rectW s) (rowOf mode.interlaced (i / rectW s) (rectH s))

/-- Index `i` of the stream applied to the canvas. -/
def blitPixel (mode : BlitMode) (s : State) (canvas : Table Byte) (i : Nat) : Table Byte :=
  match blitAct mode s (s.byte .idx i) with
  | .paint bs => tablePut canvas (blitAddr mode s i) bs
  | .skip => canvas
  | .bad => canvas

/-- The first stream position whose index breaks the palette bound (R177, R181). -/
def blitFirstBad (mode : BlitMode) (s : State) : Option Nat :=
  (List.range (blitCount s)).find? fun i => blitAct mode s (s.byte .idx i) == .bad

/-- The bytes of the frame rectangle in `CANVAS` become unspecified, row by row (R324). -/
def forgetRect (s : State) : State :=
  (List.range (rectH s)).foldl (fun t r => t.forget .canvas (rectAddr s 0 r) (4 * rectW s)) s

/-- The blit of R170 after its checks. -/
def blitRun (mode : BlitMode) (s : State) : State :=
  match blitFirstBad mode s with
  | some i => forgetRect (s.raise .palIndex i)
  | none => s.setBuf .canvas ((List.range (blitCount s)).foldl (blitPixel mode s) (s.mem.buf .canvas))

/-- The operand checks of BLIT.GIF (R170). -/
def blitChecks (s : State) : List Check :=
  [ (decide (canvasBytes s ≤ s.caps.canvas), 22),
    (decide (rectX s + rectW s ≤ canvasW s), 24),
    (decide (rectY s + rectH s ≤ canvasH s), 25),
    (decide (s.op.palLen.toNat ≤ 256), 16),
    (decide (s.op.idxLen.toNat ≤ s.caps.idx), 29) ]

/-! The instructions. -/

/-- `BLIT.GIF` (R170). -/
def execBlitGif (s : State) : Host.Outcome State Fault Refusal :=
  .next (command (blitChecks s) (blitRun (blitMode s)) s)

/-- `ROWORDER.SEQUENTIAL` (R173). -/
def execRowOrderSequential (s : State) : Host.Outcome State Fault Refusal :=
  .next (blitRun { blitMode s with interlaced := false } s)

/-- `ROWORDER.INTERLACED` (R174). -/
def execRowOrderInterlaced (s : State) : Host.Outcome State Fault Refusal :=
  .next (blitRun { blitMode s with interlaced := true } s)

/-- `TRANSP.OFF` (R176): no index is skipped. -/
def execTranspOff (s : State) : Host.Outcome State Fault Refusal :=
  .next (blitRun { blitMode s with transpEn := false } s)

/-- `TRANSP.ON` (R176): an index equal to `TRANSP_IDX` is skipped. -/
def execTranspOn (s : State) : Host.Outcome State Fault Refusal :=
  .next (blitRun { blitMode s with transpEn := true } s)

/-- `ORDER.RGBA` (R178). -/
def execOrderRgba (s : State) : Host.Outcome State Fault Refusal :=
  .next (blitRun { blitMode s with order := false } s)

/-- `ORDER.BGRA` (R179). -/
def execOrderBgra (s : State) : Host.Outcome State Fault Refusal :=
  .next (blitRun { blitMode s with order := true } s)

end Sys2Proof.Machine
end

