-- ==== Sys2Proof/Machine/Compositor.lean ====
section
/-! DEFINITION. U5, the frame compositor (spec/45_frame_compositor.md): COMP.RESET, COMP.FRAME and the values of `COMP_CTL`. A
`DISPOSE` value, run as an instruction, is what it does at one of the two moments of COMP.FRAME at which the dispose
operation acts; a `BLEND` value is the blend of the frame onto the canvas (log entry 9). -/

namespace Sys2Proof.Machine

/-! COMP.RESET (R260). -/

/-- COMP.RESET after its checks. -/
def compResetRun (s : State) : State :=
  { s.write .canvas 0 (List.replicate (canvasBytes s) 0) with compFrame := 0, compReady := true }

/-! Blend (R264 to R268). -/

/-- One channel of the `Over` result, `(255 * Cf * Af + Cb * Ab * (255 - Af)) div N` (R266, floor by R268). -/
def overChannel (cf af cb ab n : Nat) : Byte := BitVec.ofNat 8 ((255 * cf * af + cb * ab * (255 - af)) / n)

/-- `over(s, d)`: frame pixel `f` over canvas pixel `d`, each the bytes R, G, B, A (R266). -/
def overPixel (f d : List Byte) : List Byte :=
  let af := (f.getD 3 0).toNat
  let ab := (d.getD 3 0).toNat
  let n := 255 * af + ab * (255 - af)
  if n = 0 then [0, 0, 0, 0]
  else
    [ overChannel (f.getD 0 0).toNat af (d.getD 0 0).toNat ab n,
      overChannel (f.getD 1 0).toNat af (d.getD 1 0).toNat ab n,
      overChannel (f.getD 2 0).toNat af (d.getD 2 0).toNat ab n,
      BitVec.ofNat 8 (n / 255) ]

/-- What a blend operation makes of a frame pixel and a canvas pixel (R264, R266). -/
def blendPixel (op : BlendOp) (f d : List Byte) : List Byte :=
  match op with
  | .source => f
  | .over => overPixel f d

/-- Frame pixel `(rx, ry)`, four bytes of `PIX` in rows of `RECT_W` pixels (R71, R261, R365). -/
def framePixel (s : State) (rx ry : Nat) : List Byte := s.bytes .pix (4 * (ry * rectW s + rx)) 4

/-- Four bytes of a canvas table. -/
def canvasPixel (s : State) (canvas : Table Byte) (a : Nat) : List Byte :=
  (List.range' a 4).map (byteOf s.epoch .canvas canvas)

/-- The blend step at one pixel of the rectangle (R261). -/
def blendAt (op : BlendOp) (s : State) (canvas : Table Byte) (p : Nat × Nat) : Table Byte :=
  tablePut canvas (rectAddr s p.1 p.2)
    (blendPixel op (framePixel s p.1 p.2) (canvasPixel s canvas (rectAddr s p.1 p.2)))

/-- The blend step of R261 over the rectangle. -/
def blendRect (op : BlendOp) (s : State) : State :=
  s.setBuf .canvas ((pixelsOf (rectW s) (rectH s)).foldl (blendAt op s) (s.mem.buf .canvas))

/-! Copies and dispose (R269 to R272). -/

/-- `dst[0..n) <- src[0..n)` with `n` the canvas in bytes. -/
def copyCanvas (src dst : Space) (s : State) : State := s.write dst 0 (s.bytes src 0 (canvasBytes s))

/-- Every byte of the rectangle in `CANVAS` becomes 0 (R271). -/
def zeroRect (s : State) : State :=
  s.setBuf .canvas
    ((List.range (rectH s)).foldl
      (fun t r => tablePut t (rectAddr s 0 r) (List.replicate (4 * rectW s) 0)) (s.mem.buf .canvas))

/-- `None` (R270): the canvas is left as it is. -/
def disposeNone (_phase : DisposePhase) (s : State) : State := s

/-- `ClearToBackground` (R271): nothing before the blend; after the visible canvas is taken, the rectangle is zeroed. -/
def disposeClear (phase : DisposePhase) (s : State) : State :=
  match phase with
  | .beforeBlend => s
  | .afterVisible => zeroRect s

/-- `RestoreToPrevious` (R272): `SNAP` receives the canvas before the blend and is copied back after the visible canvas is
taken. -/
def disposeRestore (phase : DisposePhase) (s : State) : State :=
  match phase with
  | .beforeBlend => copyCanvas .canvas .snap s
  | .afterVisible => copyCanvas .snap .canvas s

/-- The dispose operation the register selects, at one of its two moments (R261, R273). -/
def disposeStep (op : DisposeOp) (phase : DisposePhase) (s : State) : State :=
  match op with
  | .none => disposeNone phase s
  | .clearToBackground => disposeClear phase s
  | .restoreToPrevious => disposeRestore phase s
  | .reserved => s.raise .param 30

/-! COMP.FRAME (R261). -/

/-- The blend used: frame 0 is composited with `Source` whatever `BLEND` holds (R281). -/
def frameBlend (s : State) : BlendOp := if s.compFrame = 0 then .source else blendOp s.op.blend

/-- The frame count stops at `2^32 - 1` (R275). -/
def nextFrame (n : Word) : Word := if n.toNat + 1 < 2 ^ 32 then n + 1 else n

/-- COMP.FRAME after its checks: the five steps of R261 in order (R278). -/
def compFrameRun (s : State) : State :=
  let op := disposeOp s.op.dispose
  let s1 := disposeStep op .beforeBlend s
  let s2 := blendRect (frameBlend s) s1
  let s3 := copyCanvas .canvas .vis s2
  let s4 := disposeStep op .afterVisible s3
  { s4 with compFrame := nextFrame s4.compFrame }

/-- Frame 0 covers the canvas (R263). -/
def frameZeroCovers (s : State) : Bool :=
  decide (s.compFrame = 0 → rectX s = 0 ∧ rectY s = 0 ∧ rectW s = canvasW s ∧ rectH s = canvasH s)

/-- The operand checks of COMP.FRAME (R263). -/
def compFrameChecks (s : State) : List Check :=
  canvasChecks s ++ rectChecks s ++
    [ (decide (rectW s * rectH s * 4 ≤ s.caps.pix), 26),
      (decide (s.op.dispose.toNat ≤ 2), 30),
      (frameZeroCovers s, 24) ]

/-- COMP.FRAME: the sequencing check comes before the operand checks (R262, R325). -/
def compFrameCommand (s : State) : State :=
  if s.compReady then command (compFrameChecks s) compFrameRun s else s.begin.raise .seq 0

/-! The instructions. -/

/-- `COMP.RESET` (R260). -/
def execCompReset (s : State) : Host.Outcome State Fault Refusal := .next (command (canvasChecks s) compResetRun s)

/-- `COMP.FRAME` (R261). -/
def execCompFrame (s : State) : Host.Outcome State Fault Refusal := .next (compFrameCommand s)

/-- `DISPOSE.NONE` (R270). -/
def execDisposeNone (phase : DisposePhase) (s : State) : Host.Outcome State Fault Refusal := .next (disposeNone phase s)

/-- `DISPOSE.CLEAR_TO_BACKGROUND` (R271). -/
def execDisposeClearToBackground (phase : DisposePhase) (s : State) : Host.Outcome State Fault Refusal :=
  .next (disposeClear phase s)

/-- `DISPOSE.RESTORE_TO_PREVIOUS` (R272). -/
def execDisposeRestoreToPrevious (phase : DisposePhase) (s : State) : Host.Outcome State Fault Refusal :=
  .next (disposeRestore phase s)

/-- `DISPOSE.RESERVED` (R273): `E_PARAM(30)`, before anything is written. -/
def execDisposeReserved (_phase : DisposePhase) (s : State) : Host.Outcome State Fault Refusal :=
  .next (s.raise .param 30)

/-- `BLEND.SOURCE` (R264). -/
def execBlendSource (s : State) : Host.Outcome State Fault Refusal := .next (blendRect .source s)

/-- `BLEND.OVER` (R266), on a frame other than frame 0; frame 0 is composited with `Source` whatever the bit holds (R281). -/
def execBlendOver (s : State) : Host.Outcome State Fault Refusal :=
  .next (blendRect (if s.compFrame = 0 then .source else .over) s)

end Sys2Proof.Machine
end

