-- ==== Sys2Proof/Machine/Delta.lean ====
section
/-! DEFINITION. U5, the frame delta (spec/46_frame_delta.md): DELTA.BBOX and DELTA.BLEND. -/

namespace Sys2Proof.Machine

/-- `differs(x, y)`: the four bytes of the pixel are not all equal in `DA` and `DB` (R291). -/
def differs (s : State) (x y : Nat) : Bool := s.bytes .da (pixelAddr s x y) 4 != s.bytes .db (pixelAddr s x y) 4

/-- `D`, the differing pixels of the canvas (R290). -/
def differing (s : State) : List (Nat × Nat) :=
  (pixelsOf (canvasW s) (canvasH s)).filter fun p => differs s p.1 p.2

/-- The least of a list of numbers, 0 for the empty list. -/
def leastOf : List Nat → Nat
  | [] => 0
  | n :: rest => rest.foldl min n

/-- The greatest of a list of numbers, 0 for the empty list. -/
def greatestOf (ns : List Nat) : Nat := ns.foldl max 0

/-- The bounding box of a set of pixels; `(0, 0, 1, 1)` for the empty set (R290, R292). -/
def boxOf : List (Nat × Nat) → BBox
  | [] => { x := 0, y := 0, w := 1, h := 1 }
  | p :: rest =>
    let xs := (p :: rest).map Prod.fst
    let ys := (p :: rest).map Prod.snd
    { x := BitVec.ofNat 32 (leastOf xs)
      y := BitVec.ofNat 32 (leastOf ys)
      w := BitVec.ofNat 32 (greatestOf xs - leastOf xs + 1)
      h := BitVec.ofNat 32 (greatestOf ys - leastOf ys + 1) }

/-- DELTA.BBOX after its checks (R290). -/
def deltaBboxRun (s : State) : State := { s with bbox := boxOf (differing s) }

/-- Rectangle pixel `(c, r)` forces `Source`: changed, new alpha below `T_ALPHA`, destination opaque (R293). -/
def forcesSource (s : State) (c r : Nat) : Bool :=
  differs s (rectX s + c) (rectY s + r) &&
    decide ((s.byte .da (rectAddr s c r + 3)).toNat < s.op.tAlpha.toNat) &&
    decide (s.byte .db (rectAddr s c r + 3) = 255#8)

/-- DELTA.BLEND after its checks (R293). -/
def deltaBlendRun (s : State) : State :=
  { s with blendSel := !(pixelsOf (rectW s) (rectH s)).any fun p => forcesSource s p.1 p.2 }

/-- The operand checks of DELTA.BLEND (R293). -/
def deltaBlendChecks (s : State) : List Check :=
  canvasChecks s ++ rectChecks s ++ [(decide (s.op.tAlpha.toNat ≤ 256), 32)]

/-- `DELTA.BBOX` (R290). -/
def execDeltaBbox (s : State) : Host.Outcome State Fault Refusal := .next (command (canvasChecks s) deltaBboxRun s)

/-- `DELTA.BLEND` (R293). -/
def execDeltaBlend (s : State) : Host.Outcome State Fault Refusal := .next (command (deltaBlendChecks s) deltaBlendRun s)

end Sys2Proof.Machine
end

