-- ==== Sys2Proof/Machine/HostCommands.lean ====
section
/-! DEFINITION. The commands of the dispatcher itself (spec/47_host_commands.md): NOP and the reserved opcodes. -/

namespace Sys2Proof.Machine

/-- `NOP` (R303): `STATUS <- 0`, `ERRINFO <- 0`, then `DONE <- 1`. -/
def execNop (s : State) : Host.Outcome State Fault Refusal := .next s.begin.finish

/-- Reserved opcodes (R304): `E_CMD(OPCODE)`, nothing else changes. -/
def execCmdReserved (opcode : Byte) (s : State) : Host.Outcome State Fault Refusal :=
  .next (s.begin.raise .cmd opcode.toNat)

end Sys2Proof.Machine
end

