-- ==== Sys2Proof/Machine/Lzw.lean ====
section
/-! DEFINITION. U0, the LZW decoder (spec/40_lzw_decoder.md): LZW.DECODE and the six code classes. -/

namespace Sys2Proof.Machine

/-- `m`, the minimum code size of the run (R130). -/
def minCode (s : State) : Nat := s.op.lzwMincs.toNat

/-- The state a code is read in, as the decoder needs it (R95, R97). -/
def codeCtx (s : State) : CodeCtx :=
  { m := minCode s, width := s.lzw.curSize.toNat, next := s.lzw.nextCode.toNat, valid := s.lzw.prevValid }

/-! The bit reader (R133, R134). -/

/-- The payload of the sub-blocks in `bs`, with fuel for as many sub-blocks as there are bytes: a size byte, then that many
bytes; a zero size, or the end of the data, ends it (R94, R133). -/
def payloadOf : Nat → List Byte → List Byte
  | 0, _ => []
  | _ + 1, [] => []
  | fuel + 1, n :: rest =>
    if n = 0#8 then []
    else rest.take n.toNat ++ (if rest.length < n.toNat then [] else payloadOf fuel (rest.drop n.toNat))

/-- `payload(IN, IN_LEN)` (R133). -/
def payload (s : State) : List Byte :=
  let bs := s.bytes .inb 0 s.op.inLen.toNat
  payloadOf bs.length bs

/-- The payload as one number, byte 0 least significant: its bit `k` is bit `k mod 8` of payload byte `k div 8` (R66). -/
def bitStream : List Byte → Nat
  | [] => 0
  | b :: rest => b.toNat + 2 ^ 8 * bitStream rest

/-- The code of width `w` at bit `p`: bit `j` of it is payload bit `p + j` (R66, R134). -/
def codeAt (stream p w : Nat) : Nat := stream / 2 ^ p % 2 ^ w

/-! Strings (R138). -/

/-- `str(code)`, by walking the prefix chain back to a literal and writing it back to front: `acc` is what follows. The
fuel is the size of the table; no chain is longer (R138). -/
def codeString (s : State) : Nat → BitVec 12 → List Byte → List Byte
  | 0, code, acc => code.setWidth 8 :: acc
  | fuel + 1, code, acc =>
    if code.toNat < clearCode (minCode s) then code.setWidth 8 :: acc
    else codeString s fuel (s.dictAt code.toNat).prefixCode ((s.dictAt code.toNat).suffix :: acc)

/-- `str(code)` (R138). -/
def strOf (s : State) (code : BitVec 12) : List Byte := codeString s 4096 code []

/-! Emit, add, grow (R143 to R148). -/

/-- Grow (R146). -/
def lzwGrow (r : LzwRegs) : LzwRegs :=
  if 2 ^ r.curSize.toNat ≤ r.nextCode.toNat ∧ r.curSize.toNat < 12 then { r with curSize := r.curSize + 1 } else r

/-- Add entry (R145): `(PREVCODE.CODE, first byte of the string)` at `NEXTCODE`. -/
def lzwAddEntry (first : Byte) (s : State) : State :=
  if s.lzw.prevValid = true ∧ s.lzw.nextCode.toNat < 4096 then
    { s with
      dict := tablePut s.dict s.lzw.nextCode.toNat [{ prefixCode := s.lzw.prevCode, suffix := first }]
      lzw := lzwGrow { s.lzw with nextCode := s.lzw.nextCode + 1 } }
  else s

/-- What every data code does with its string `str` (R143, R145, R148): emit it with the overrun check, add the entry, become
the previous code. On an overrun nothing is written and nothing is added. -/
def lzwData (str : List Byte) (code : BitVec 12) (s : State) : State :=
  if s.op.outLen.toNat < s.lzw.outPos.toNat + str.length then s.setOverrun
  else
    let s1 := s.write .idx s.lzw.outPos.toNat str
    let s2 := { s1 with lzw := { s1.lzw with outPos := s1.lzw.outPos + BitVec.ofNat 32 str.length } }
    let s3 := lzwAddEntry (str.headD 0) s2
    { s3 with lzw := { s3.lzw with prevCode := code, prevValid := true } }

/-! The six classes. -/

/-- The state a `clearCode` leaves in the working registers (R136). DESIGN CHOICE (log entry 18): `PREVCODE.CODE` keeps its
value, which the host can read beside `VALID = 0`. -/
def lzwClearRegs (m : Nat) (r : LzwRegs) : LzwRegs :=
  { r with nextCode := BitVec.ofNat 13 (eoiCode m + 1), curSize := BitVec.ofNat 4 (m + 1), prevValid := false }

/-- `LZW.CLEAR` (R136). -/
def lzwClear (s : State) : State := { s with lzw := lzwClearRegs (minCode s) s.lzw }

/-- `LZW.EOI` (R137). -/
def lzwEoi (s : State) : State := s.setEoi

/-- `LZW.LIT` (R139). -/
def lzwLit (code : BitVec 12) (s : State) : State := lzwData [code.setWidth 8] code s

/-- `LZW.REF` (R140). -/
def lzwRef (code : BitVec 12) (s : State) : State := lzwData (strOf s code) code s

/-- `LZW.KWKWK` (R141): the code is `NEXTCODE`, its string the previous string and that string's first byte again. -/
def lzwKwkwk (s : State) : State :=
  let t := strOf s s.lzw.prevCode
  lzwData (t ++ [t.headD 0]) (s.lzw.nextCode.setWidth 12) s

/-- `LZW.INVALID` (R142): `E_LZW_CODE(code)`; `IDX[0 .. OUT_LEN)` becomes unspecified (R324). -/
def lzwInvalid (code : BitVec 12) (s : State) : State :=
  (s.raise .lzwCode code.toNat).forget .idx 0 s.op.outLen.toNat

/-- Run a fetched code by its class (R97). -/
def lzwCode (code : BitVec 12) (s : State) : State :=
  match classify (codeCtx s) code.toNat with
  | .clear => lzwClear s
  | .eoi => lzwEoi s
  | .lit => lzwLit code s
  | .ref => lzwRef code s
  | .kwkwk => lzwKwkwk s
  | .invalid => lzwInvalid code s

/-! The command. -/

/-- The initial state of a run (R132). -/
def lzwInit (s : State) : State :=
  { s with lzw := { outPos := 0, bitPos := 0, curSize := BitVec.ofNat 4 (minCode s + 1),
                    nextCode := BitVec.ofNat 13 (eoiCode (minCode s) + 1), prevCode := 0, prevValid := false } }

/-- The state with `BITPOS` past the code it is about to run (R134). -/
def lzwAdvance (s : State) : State :=
  { s with lzw := { s.lzw with bitPos := s.lzw.bitPos + s.lzw.curSize.setWidth 32 } }

/-- The code at `BITPOS` (R134). -/
def lzwFetch (stream : Nat) (s : State) : BitVec 12 :=
  BitVec.ofNat 12 (codeAt stream s.lzw.bitPos.toNat s.lzw.curSize.toNat)

/-- One turn of the loop of R130: fetch a code, or halt exhausted when fewer than `CURSIZE` of the `nbits` payload bits are
left (R134); then run it. -/
def lzwTurn (stream nbits : Nat) (s : State) : State :=
  if nbits < s.lzw.bitPos.toNat + s.lzw.curSize.toNat then s.setExhausted
  else lzwCode (lzwFetch stream s) (lzwAdvance s)

/-- The loop of R130. Every turn that does not halt moves `BITPOS` on, so `nbits + 1` turns are more than any run takes
(R312). -/
def lzwLoop (stream nbits : Nat) : Nat → State → State
  | 0, s => s
  | turns + 1, s =>
    let s' := lzwTurn stream nbits s
    if s'.status.halted then s' else lzwLoop stream nbits turns s'

/-- The run of LZW.DECODE after its operand checks (R130, R149). -/
def lzwRun (s : State) : State :=
  let p := payload s
  lzwFinish (lzwLoop (bitStream p) (8 * p.length) (8 * p.length + 1) (lzwInit s))

/-- The operand checks of LZW.DECODE (R130). -/
def lzwChecks (s : State) : List Check :=
  [ (decide (1 ≤ minCode s ∧ minCode s ≤ 8), 3),
    (decide (s.op.inLen.toNat ≤ s.caps.inb), 4),
    (decide (s.op.outLen.toNat ≤ s.caps.idx), 5) ]

/-! The instructions. -/

/-- `LZW.DECODE` (R130). -/
def execLzwDecode (s : State) : Host.Outcome State Fault Refusal := .next (command (lzwChecks s) lzwRun s)

/-- `LZW.CLEAR` (R136). -/
def execLzwClear (s : State) : Host.Outcome State Fault Refusal := .next (lzwClear s)

/-- `LZW.EOI` (R137). -/
def execLzwEoi (s : State) : Host.Outcome State Fault Refusal := .next (lzwEoi s)

/-- `LZW.LIT` (R139). -/
def execLzwLit (code : BitVec 12) (s : State) : Host.Outcome State Fault Refusal := .next (lzwLit code s)

/-- `LZW.REF` (R140). -/
def execLzwRef (code : BitVec 12) (s : State) : Host.Outcome State Fault Refusal := .next (lzwRef code s)

/-- `LZW.KWKWK` (R141). -/
def execLzwKwkwk (s : State) : Host.Outcome State Fault Refusal := .next (lzwKwkwk s)

/-- `LZW.INVALID` (R142). -/
def execLzwInvalid (code : BitVec 12) (s : State) : Host.Outcome State Fault Refusal := .next (lzwInvalid code s)

end Sys2Proof.Machine
end

