-- ==== Sys2Proof/Machine/Unpack.lean ====
section
/-! DEFINITION. U4, the bit unpacker (spec/44_bit_unpacker.md): UNPACK.IDX, UNPACK.RGBA and the values of `CTYPE`. A legal
`CTYPE` value, run as an instruction, is the expansion of the whole image in `RAW` by that colour type (log entry 9). -/

namespace Sys2Proof.Machine

/-- The bytes of raw row `y` when rows have `rb` bytes (R72). -/
def rawRow (s : State) (rb y : Nat) : Nat → Byte := fun j => s.byte .raw (y * rb + j)

/-- `DEPTH`. -/
def depth (s : State) : Nat := s.op.depth.toNat

/-- Sample `k` of pixel `(x, y)` of an image of colour type `ct` (R110, R235). -/
def sample (ct : ColorType) (s : State) (x y k : Nat) : Nat :=
  sampleAt (rawRow s (rowBytes (bitsPerPixel s ct) (imgW s)) y) (depth s) (channels ct) x k

/-- A sample's byte in a straight copy: 16-bit samples keep their high byte (R239, R240, R242, R245). -/
def copySample (depth v : Nat) : Byte := if depth = 16 then BitVec.ofNat 8 (v / 256) else BitVec.ofNat 8 v

/-- `expand(s)` for a gray sample (R244). -/
def expandGray (depth v : Nat) : Byte :=
  if depth = 1 then BitVec.ofNat 8 (v * 255)
  else if depth = 2 then BitVec.ofNat 8 (v * 85)
  else if depth = 4 then BitVec.ofNat 8 (v * 17)
  else copySample depth v

/-- Alpha of a Gray pixel (R241, R243): the comparison is on the sample as stored. -/
def alphaGray (s : State) (v : Nat) : Byte := if s.op.keyEn = true ∧ v = s.op.trnsK0.toNat then 0#8 else 255#8

/-- Alpha of an RGB pixel (R238, R239, R243). -/
def alphaRgb (s : State) (r g b : Nat) : Byte :=
  if s.op.keyEn = true ∧ r = s.op.trnsK0.toNat ∧ g = s.op.trnsK1.toNat ∧ b = s.op.trnsK2.toNat then 0#8 else 255#8

/-- Alpha of a palette index (R237). -/
def alphaPalette (s : State) (v : Nat) : Byte := if v < s.op.trnsLen.toNat then s.trnsaAt v else 255#8

/-! One pixel of each colour type: the bytes R, G, B, A; `none` for an index at or above `PAL_LEN` (R247). -/

/-- Gray (R241). -/
def pixelGray (s : State) (x y : Nat) : Option (List Byte) :=
  let v := sample .gray s x y 0
  let g := expandGray (depth s) v
  some [g, g, g, alphaGray s v]

/-- RGB (R238, R239). -/
def pixelRgb (s : State) (x y : Nat) : Option (List Byte) :=
  let r := sample .rgb s x y 0
  let g := sample .rgb s x y 1
  let b := sample .rgb s x y 2
  some [copySample (depth s) r, copySample (depth s) g, copySample (depth s) b, alphaRgb s r g b]

/-- Palette (R237). -/
def pixelPalette (s : State) (x y : Nat) : Option (List Byte) :=
  let v := sample .palette s x y 0
  if s.op.palLen.toNat ≤ v then none
  else some [(s.palAt v).r, (s.palAt v).g, (s.palAt v).b, alphaPalette s v]

/-- GrayAlpha (R242). -/
def pixelGrayAlpha (s : State) (x y : Nat) : Option (List Byte) :=
  let g := copySample (depth s) (sample .grayAlpha s x y 0)
  some [g, g, g, copySample (depth s) (sample .grayAlpha s x y 1)]

/-- RGBA (R240). -/
def pixelRgba (s : State) (x y : Nat) : Option (List Byte) :=
  some ((List.range 4).map fun k => copySample (depth s) (sample .rgba s x y k))

/-- Expand every pixel of the image and write `PIX`; a pixel that has no colour raises `E_PAL_INDEX` with the smallest such
pixel number, and `PIX` becomes unspecified within the footprint (R235, R247, R249, R324). -/
def expandImage (pixel : State → Nat → Nat → Option (List Byte)) (s : State) : State :=
  let ps := pixelsOf (imgW s) (imgH s)
  match ps.find? fun p => (pixel s p.1 p.2).isNone with
  | some p => (s.raise .palIndex (p.2 * imgW s + p.1)).forget .pix 0 (imgW s * imgH s * 4)
  | none => s.write .pix 0 (ps.flatMap fun p => (pixel s p.1 p.2).getD [])

/-- UNPACK.RGBA after its checks: the colour type selects the expansion (R235). -/
def unpackRgbaRun (s : State) : State :=
  match colorType s.op.ctype with
  | some .gray => expandImage pixelGray s
  | some .rgb => expandImage pixelRgb s
  | some .palette => expandImage pixelPalette s
  | some .grayAlpha => expandImage pixelGrayAlpha s
  | some .rgba => expandImage pixelRgba s
  | none => s.raise .param 13

/-- The operand checks of UNPACK.RGBA (R235). -/
def unpackRgbaChecks (s : State) : List Check :=
  imageChecks s ++
    [ rawCheck s,
      (decide (imgW s * imgH s * 4 ≤ s.caps.pix), 12),
      (decide (colorType s.op.ctype = some .palette → s.op.palLen.toNat ≤ 256), 16),
      (decide (colorType s.op.ctype = some .palette → s.op.trnsLen.toNat ≤ 256), 17) ]

/-! UNPACK.IDX (R230). -/

/-- The index of pixel `(x, y)`, zero-extended (R230, R231). -/
def pixelIndex (s : State) (x y : Nat) : Byte := BitVec.ofNat 8 (sample .palette s x y 0)

/-- UNPACK.IDX after its checks. -/
def unpackIdxRun (s : State) : State :=
  s.write .idx 0 ((pixelsOf (imgW s) (imgH s)).map fun p => pixelIndex s p.1 p.2)

/-- The operand checks of UNPACK.IDX (R230). -/
def unpackIdxChecks (s : State) : List Check :=
  [ (decide (colorType s.op.ctype = some .palette), 13),
    (depthLegal .palette (depth s), 14),
    (decide (1 ≤ imgW s), 11),
    (decide (1 ≤ imgH s), 12),
    rawCheck s,
    (decide (imgW s * imgH s ≤ s.caps.idx), 12) ]

/-! The instructions. -/

/-- `UNPACK.IDX` (R230). -/
def execUnpackIdx (s : State) : Host.Outcome State Fault Refusal := .next (command (unpackIdxChecks s) unpackIdxRun s)

/-- `UNPACK.RGBA` (R235). -/
def execUnpackRgba (s : State) : Host.Outcome State Fault Refusal :=
  .next (command (unpackRgbaChecks s) unpackRgbaRun s)

/-- `CTYPE.GRAY` (R241). -/
def execCtypeGray (s : State) : Host.Outcome State Fault Refusal := .next (expandImage pixelGray s)

/-- `CTYPE.RGB` (R238, R239). -/
def execCtypeRgb (s : State) : Host.Outcome State Fault Refusal := .next (expandImage pixelRgb s)

/-- `CTYPE.PALETTE` (R237). -/
def execCtypePalette (s : State) : Host.Outcome State Fault Refusal := .next (expandImage pixelPalette s)

/-- `CTYPE.GRAYALPHA` (R242). -/
def execCtypeGrayAlpha (s : State) : Host.Outcome State Fault Refusal := .next (expandImage pixelGrayAlpha s)

/-- `CTYPE.RGBA` (R240). -/
def execCtypeRgba (s : State) : Host.Outcome State Fault Refusal := .next (expandImage pixelRgba s)

/-- `CTYPE.RESERVED` (R107): `E_PARAM(13)`, whichever reserved value it is. -/
def execCtypeReserved (_value : BitVec 3) (s : State) : Host.Outcome State Fault Refusal := .next (s.raise .param 13)

end Sys2Proof.Machine
end

