-- ==== Sys2Proof/Machine/Dispatch.lean ====
section
/-! DEFINITION. One arm per row of spec/opcode_table.json. -/

namespace Sys2Proof.Machine

def exec (i : Instr) (s : State) : Host.Outcome State Fault Refusal :=
  match i with
  -- commands (R92, R93)
  | .nop => Sys2Proof.Machine.execNop s
  | .lzwDecode => Sys2Proof.Machine.execLzwDecode s
  | .blitGif => Sys2Proof.Machine.execBlitGif s
  | .defilterRun => Sys2Proof.Machine.execDefilterRun s
  | .adam7Run => Sys2Proof.Machine.execAdam7Run s
  | .unpackIdx => Sys2Proof.Machine.execUnpackIdx s
  | .unpackRgba => Sys2Proof.Machine.execUnpackRgba s
  | .compReset => Sys2Proof.Machine.execCompReset s
  | .compFrame => Sys2Proof.Machine.execCompFrame s
  | .deltaBbox => Sys2Proof.Machine.execDeltaBbox s
  | .deltaBlend => Sys2Proof.Machine.execDeltaBlend s
  | .cmdReserved opcode => Sys2Proof.Machine.execCmdReserved opcode s
  -- LZW codes (R97)
  | .lzwClear => Sys2Proof.Machine.execLzwClear s
  | .lzwEoi => Sys2Proof.Machine.execLzwEoi s
  | .lzwLit code => Sys2Proof.Machine.execLzwLit code s
  | .lzwRef code => Sys2Proof.Machine.execLzwRef code s
  | .lzwKwkwk => Sys2Proof.Machine.execLzwKwkwk s
  | .lzwInvalid code => Sys2Proof.Machine.execLzwInvalid code s
  -- filter tags (R102, R103)
  | .filtNone row => Sys2Proof.Machine.execFiltNone row s
  | .filtSub row => Sys2Proof.Machine.execFiltSub row s
  | .filtUp row => Sys2Proof.Machine.execFiltUp row s
  | .filtAvg row => Sys2Proof.Machine.execFiltAvg row s
  | .filtPaeth row => Sys2Proof.Machine.execFiltPaeth row s
  | .filtReserved tag row => Sys2Proof.Machine.execFiltReserved tag row s
  -- enumeration values (R107, R111, R112, R116)
  | .disposeNone phase => Sys2Proof.Machine.execDisposeNone phase s
  | .disposeClearToBackground phase => Sys2Proof.Machine.execDisposeClearToBackground phase s
  | .disposeRestoreToPrevious phase => Sys2Proof.Machine.execDisposeRestoreToPrevious phase s
  | .disposeReserved phase => Sys2Proof.Machine.execDisposeReserved phase s
  | .blendSource => Sys2Proof.Machine.execBlendSource s
  | .blendOver => Sys2Proof.Machine.execBlendOver s
  | .rowOrderSequential => Sys2Proof.Machine.execRowOrderSequential s
  | .rowOrderInterlaced => Sys2Proof.Machine.execRowOrderInterlaced s
  | .transpOff => Sys2Proof.Machine.execTranspOff s
  | .transpOn => Sys2Proof.Machine.execTranspOn s
  | .orderRgba => Sys2Proof.Machine.execOrderRgba s
  | .orderBgra => Sys2Proof.Machine.execOrderBgra s
  | .ctypeGray => Sys2Proof.Machine.execCtypeGray s
  | .ctypeRgb => Sys2Proof.Machine.execCtypeRgb s
  | .ctypePalette => Sys2Proof.Machine.execCtypePalette s
  | .ctypeGrayAlpha => Sys2Proof.Machine.execCtypeGrayAlpha s
  | .ctypeRgba => Sys2Proof.Machine.execCtypeRgba s
  | .ctypeReserved value => Sys2Proof.Machine.execCtypeReserved value s

end Sys2Proof.Machine
end

