-- ==== Sys2Proof/Machine/HostAccess.lean ====
section
/-! DEFINITION. The host's side of the block (R21 to R26, R44): reading and writing registers, buffer bytes and table
entries, the reset event, and placing an instruction where the next step runs it. -/

namespace Sys2Proof.Machine

/-! Reads. They change nothing (R70), so they are functions of the state. -/

/-- A register as the host reads it (R21, R22): fields at the places R22 gives them, other bits 0; `CMD` reads 0. -/
def State.readReg (s : State) : RegName → Word
  | .cmd => 0
  | .status => s.status.word
  | .errinfo => s.errinfo
  | .lzwMincs => s.op.lzwMincs.setWidth 32
  | .inLen => s.op.inLen
  | .outLen => s.op.outLen
  | .outPos => s.lzw.outPos
  | .bitPos => s.lzw.bitPos
  | .curSize => s.lzw.curSize.setWidth 32
  | .nextCode => s.lzw.nextCode.setWidth 32
  | .prevCode => s.lzw.prevCode.setWidth 32 ||| bitAt s.lzw.prevValid 12
  | .imgW => s.op.imgW
  | .imgH => s.op.imgH
  | .ctype => s.op.ctype.setWidth 32
  | .depth => s.op.depth.setWidth 32
  | .filtLen => s.op.filtLen
  | .palLen => s.op.palLen.setWidth 32
  | .trnsLen => s.op.trnsLen.setWidth 32
  | .trnsCtl => bitAt s.op.keyEn 0
  | .trnsK0 => s.op.trnsK0.setWidth 32
  | .trnsK1 => s.op.trnsK1.setWidth 32
  | .trnsK2 => s.op.trnsK2.setWidth 32
  | .canvasW => s.op.canvasW
  | .canvasH => s.op.canvasH
  | .rectX => s.op.rectX
  | .rectY => s.op.rectY
  | .rectW => s.op.rectW
  | .rectH => s.op.rectH
  | .blitCtl =>
    bitAt s.op.interlaced 0 ||| bitAt s.op.transpEn 1 ||| bitAt s.op.order 2 ||| (s.op.transpIdx.setWidth 32 <<< 8)
  | .idxLen => s.op.idxLen
  | .compCtl => s.op.dispose.setWidth 32 ||| bitAt s.op.blend 4
  | .compFrame => s.compFrame
  | .tAlpha => s.op.tAlpha.setWidth 32
  | .bbX => s.bbox.x
  | .bbY => s.bbox.y
  | .bbW => s.bbox.w
  | .bbH => s.bbox.h
  | .blendSel => bitAt s.blendSel 0
  | .filtUsed => s.filtUsed

/-- A buffer byte as the host reads it (R44); no byte at or above the capacity exists (R61). -/
def State.hostByte (s : State) (sp : Space) (i : Nat) : Option Byte :=
  if i < s.caps.of sp then some (s.byte sp i) else none

/-- The number of a register (R22). -/
def RegName.number : RegName → Nat
  | .cmd => 0 | .status => 1 | .errinfo => 2 | .lzwMincs => 3 | .inLen => 4 | .outLen => 5 | .outPos => 6
  | .bitPos => 7 | .curSize => 8 | .nextCode => 9 | .prevCode => 10 | .imgW => 11 | .imgH => 12 | .ctype => 13
  | .depth => 14 | .filtLen => 15 | .palLen => 16 | .trnsLen => 17 | .trnsCtl => 18 | .trnsK0 => 19
  | .trnsK1 => 20 | .trnsK2 => 21 | .canvasW => 22 | .canvasH => 23 | .rectX => 24 | .rectY => 25
  | .rectW => 26 | .rectH => 27 | .blitCtl => 28 | .idxLen => 29 | .compCtl => 30 | .compFrame => 31
  | .tAlpha => 32 | .bbX => 33 | .bbY => 34 | .bbW => 35 | .bbH => 36 | .blendSel => 37 | .filtUsed => 38

/-! Writes. -/

/-- A host write to a register other than `CMD` (R21, R22): an operand register takes the bits of its fields, the upper
bits dropped (R326); a write to a read-only register is ignored. A `CMD` write is the dispatcher's (Step.lean) and
stores nothing (R23). -/
def writeOperand (o : Operands) (r : RegName) (v : Word) : Operands :=
  match r with
  | .lzwMincs => { o with lzwMincs := v.setWidth 4 }
  | .inLen => { o with inLen := v }
  | .outLen => { o with outLen := v }
  | .imgW => { o with imgW := v }
  | .imgH => { o with imgH := v }
  | .ctype => { o with ctype := v.setWidth 3 }
  | .depth => { o with depth := v.setWidth 5 }
  | .filtLen => { o with filtLen := v }
  | .palLen => { o with palLen := v.setWidth 9 }
  | .trnsLen => { o with trnsLen := v.setWidth 9 }
  | .trnsCtl => { o with keyEn := v.getLsbD 0 }
  | .trnsK0 => { o with trnsK0 := v.setWidth 16 }
  | .trnsK1 => { o with trnsK1 := v.setWidth 16 }
  | .trnsK2 => { o with trnsK2 := v.setWidth 16 }
  | .canvasW => { o with canvasW := v }
  | .canvasH => { o with canvasH := v }
  | .rectX => { o with rectX := v }
  | .rectY => { o with rectY := v }
  | .rectW => { o with rectW := v }
  | .rectH => { o with rectH := v }
  | .blitCtl =>
    { o with interlaced := v.getLsbD 0, transpEn := v.getLsbD 1, order := v.getLsbD 2, transpIdx := v.extractLsb' 8 8 }
  | .idxLen => { o with idxLen := v }
  | .compCtl => { o with dispose := v.setWidth 2, blend := v.getLsbD 4 }
  | .tAlpha => { o with tAlpha := v.setWidth 9 }
  | .cmd => o
  | .status => o
  | .errinfo => o
  | .outPos => o
  | .bitPos => o
  | .curSize => o
  | .nextCode => o
  | .prevCode => o
  | .compFrame => o
  | .bbX => o
  | .bbY => o
  | .bbW => o
  | .bbH => o
  | .blendSel => o
  | .filtUsed => o

/-- A register write. -/
def hostWriteReg (r : RegName) (v : Word) (s : State) : Host.Outcome State Fault Refusal :=
  .next { s with op := writeOperand s.op r v }

/-- A buffer byte write (R44). -/
def hostWriteByte (sp : Space) (i : Nat) (b : Byte) (s : State) : Host.Outcome State Fault Refusal :=
  if i < s.caps.of sp then .next (s.write sp i [b]) else .fault .noSuchByte

/-- A `PAL` entry write (R30, R44). -/
def hostWritePal (i : Byte) (c : Rgb) (s : State) : Host.Outcome State Fault Refusal :=
  .next { s with pal := tablePut s.pal i.toNat [c] }

/-- A `TRNSA` entry write (R31, R44). -/
def hostWriteTrnsa (i : Byte) (a : Byte) (s : State) : Host.Outcome State Fault Refusal :=
  .next { s with trnsa := tablePut s.trnsa i.toNat [a] }

/-- The reset event (R350): every register 0, `COMP_READY = 0`, tables and buffers unspecified anew. The capacities and
the host's remaining accesses are not the block's. -/
def resetEvent (s : State) : Host.Outcome State Fault Refusal :=
  .next { State.reset with caps := s.caps, host := s.host, epoch := s.epoch + 1, free := s.free }

/-! Placing an instruction where the next step runs it (log entry 12). -/

/-- The host is about to write `v` to `CMD`, with the block idle. -/
def placeCommand (v : Nat) (s : State) : State :=
  { s with status := { s.status with busy := false }, host := .writeReg .cmd (BitVec.ofNat 32 v) :: s.host }

/-- A filtered row of one Gray byte, 0, behind the tag `tag`, and DEFILTER.RUN about to be started: it runs that row. -/
def placeTag (tag : Byte) (s : State) : State :=
  placeCommand 0x03
    { s.write .filt 0 [tag, 0] with
      op := { s.op with imgW := 1, imgH := 1, ctype := 0, depth := 8, filtLen := 2 } }

/-- A payload of the two bytes of `w`, low byte first, and LZW.DECODE with 9-bit first codes about to be started: it runs
the code `w mod 512` first. -/
def placeCode (w : Nat) (s : State) : State :=
  placeCommand 0x01
    { s.write .inb 0 [2, BitVec.ofNat 8 w, BitVec.ofNat 8 (w / 256), 0] with
      op := { s.op with lzwMincs := 8, inLen := 4, outLen := 1 } }

/-- An instruction of `nbits` bits placed where the next step runs it, as `decodeTableWord` reads it. -/
def placeWord (s : State) (nbits w : Nat) : State :=
  if nbits = 16 then placeCode w s
  else if nbits = 8 && !isLoneOpcode w then placeTag (BitVec.ofNat 8 w) s
  else placeCommand w s

end Sys2Proof.Machine
end

