-- ==== Sys2Proof/Machine/Step.lean ====
section
/-! DEFINITION. One step: the block carries out the host's next access. A `CMD` write runs the command its value decodes to,
from start to end, as one step (R3, R23, R300). -/

namespace Sys2Proof.Machine

/-- One access of the host to the idle block. -/
def hostAccess (a : HostAccess) (s : State) : Host.Outcome State Fault Refusal :=
  match a with
  | .writeReg .cmd v => exec (decode .cmd v.toNat) s
  | .writeReg r v => hostWriteReg r v s
  | .writeByte sp i b => hostWriteByte sp i b s
  | .writePal i c => hostWritePal i c s
  | .writeTrnsa i b => hostWriteTrnsa i b s
  | .reset => resetEvent s

/-- One step. With no access pending the block is idle and stays as it is (R351); an access while `BUSY = 1` is outside the
model (R361). -/
def step (s : State) : Host.Outcome State Fault Refusal :=
  match s.host with
  | [] => .next s
  | a :: rest => if s.status.busy then .refused .hostAccessWhileBusy else hostAccess a { s with host := rest }

/-- `s` with the instruction of `nbits` bits `w` placed where the next step runs it (log entry 12). -/
def State.withFetchWord (s : State) (nbits w : Nat) : State := placeWord s nbits w

end Sys2Proof.Machine
end

