-- ==== Sys2Proof/Safety.lean ====
section
/-! DEFINITION. The terms claims use: the invariant of the block, the states LZW.DECODE runs codes in, the bytes an
instruction may write, and steps that run. -/

namespace Sys2Proof.Machine

/-- Every listed index of a buffer lies inside the capacity of its space (R61, R62). -/
abbrev Memory.inside (m : Memory) (c : Caps) : Prop :=
  tableBelow m.inb c.inb ∧ tableBelow m.idx c.idx ∧ tableBelow m.filt c.filt ∧ tableBelow m.raw c.raw ∧
  tableBelow m.pix c.pix ∧ tableBelow m.canvas c.canvas ∧ tableBelow m.vis c.canvas ∧ tableBelow m.snap c.canvas ∧
  tableBelow m.da c.canvas ∧ tableBelow m.db c.canvas

/-- What `STATUS` and `ERRINFO` can hold between commands (R24, R25, R320, R321): not busy; `ERR` exactly when there is a
fault code, which is at most 7; with `ERR`, `DONE` and no warning flag; without, `ERRINFO` is 0. -/
abbrev statusLegal (f : Status) (errinfo : Word) : Prop :=
  f.busy = false ∧ (f.err = true ↔ f.errcode ≠ 0#8) ∧ f.errcode.toNat ≤ 7 ∧
  (f.err = true → f.done = true ∧ f.eoi = false ∧ f.trunc = false ∧ f.overrun = false ∧ f.exhausted = false) ∧
  (f.err = false → errinfo = 0#32)

/-- The invariant of the block: every buffer and table is in canonical form and inside its size (R29, R30, R31, R61), the
status is legal. -/
structure Inv (s : State) : Prop where
  memWf : s.mem.wf
  memInside : s.mem.inside s.caps
  dictWf : tableWf s.dict
  dictInside : tableBelow s.dict 4096
  palWf : tableWf s.pal
  palInside : tableBelow s.pal 256
  trnsaWf : tableWf s.trnsa
  trnsaInside : tableBelow s.trnsa 256
  status : statusLegal s.status s.errinfo

/-- `code` has a string: it is a literal, or a dictionary code below `NEXTCODE` (R138). -/
abbrev spelled (s : State) (code : BitVec 12) : Prop :=
  code.toNat < s.lzw.nextCode.toNat ∧ code.toNat ≠ clearCode (minCode s) ∧ code.toNat ≠ eoiCode (minCode s)

/-- The states in which LZW.DECODE fetches a code (R28, R101, R138, R145, R148): the working registers in their ranges, every
entry below `NEXTCODE` with a prefix that is spelled and below the entry's own code, a valid previous code spelled, and no
entry while there is no previous code. -/
structure LzwInv (s : State) : Prop where
  minLegal : 1 ≤ minCode s ∧ minCode s ≤ 8
  width : minCode s + 1 ≤ s.lzw.curSize.toNat ∧ s.lzw.curSize.toNat ≤ 12
  next : eoiCode (minCode s) + 1 ≤ s.lzw.nextCode.toNat ∧ s.lzw.nextCode.toNat ≤ 4096
  fits : s.lzw.nextCode.toNat ≤ 2 ^ s.lzw.curSize.toNat
  room : s.lzw.outPos.toNat ≤ s.op.outLen.toNat
  entries : ∀ code, eoiCode (minCode s) < code → code < s.lzw.nextCode.toNat →
    spelled s (s.dictAt code).prefixCode ∧ (s.dictAt code).prefixCode.toNat < code
  prev : s.lzw.prevValid = true → spelled s s.lzw.prevCode
  fresh : s.lzw.prevValid = false → s.lzw.nextCode.toNat = eoiCode (minCode s) + 1

/-- No access is pending. -/
abbrev idle (s : State) : Prop := s.host = []

/-- A step that neither faults nor is refused. -/
def runs (s : State) : Bool :=
  match step s with
  | .next _ => true
  | .fault _ => false
  | .refused _ => false

end Sys2Proof.Machine
end

