-- ==== Sys2Proof/Certificates/Slice0/Obligations.lean ====
section
/-! DEFINITION. The statements for the provers. First the terms they are written in (namespace Claim), which spell the spec's
formulas out of register values and bytes, beside the model's own functions; then the statements, family by family. -/

open Sys2Proof Sys2Proof.Machine

namespace Sys2Proof.Claim

/-! Outcomes of a command. -/

/-- `STATUS` of a command that ended with fault code `code` (R320, R323). -/
def faultStatus (code : Byte) : Status :=
  { busy := false, done := true, err := true, eoi := false, trunc := false, overrun := false, exhausted := false,
    errcode := code }

/-- `STATUS` of a command that ended normally with no warning (R320). -/
def okStatus : Status :=
  { busy := false, done := true, err := false, eoi := false, trunc := false, overrun := false, exhausted := false,
    errcode := 0#8 }

/-- A command that raised fault `code` with `ERRINFO = info` and changed nothing else (R323, R324). -/
def faulted (s : State) (code : Byte) (info : Nat) : State :=
  { s with status := faultStatus code, errinfo := BitVec.ofNat 32 info }

/-- A command that ended normally and changed nothing else (R300, R303). -/
def ended (s : State) : State := { s with status := okStatus, errinfo := 0#32 }

/-- The state after the `CMD` write has cleared the status (R300). -/
def cleared (s : State) : State := { s with status := Status.zero, errinfo := 0#32 }

/-- What a command leaves when its body left `u`: `u` if that is a fault, else `u` with `DONE` (R300). -/
def closed (u : State) : State := if u.status.err then u else { u with status := { u.status with done := true } }

/-- Every byte at which `inside` does not hold reads as before. -/
def sameOutside (s t : State) (inside : Space → Nat → Prop) : Prop :=
  ∀ sp a, ¬ inside sp a → t.byte sp a = s.byte sp a

/-- `t` is `s` with other buffer contents, everything else unchanged. -/
def onlyMem (s t : State) : Prop := t = { s with mem := t.mem }

/-! Image geometry out of `CTYPE`, `DEPTH`, `IMG_W`, `IMG_H` (R104 to R109). -/

def imageW (s : State) : Nat := s.op.imgW.toNat

def imageH (s : State) : Nat := s.op.imgH.toNat

/-- `bitsPerPixel` (R104, R108); 0 for an illegal colour type. -/
def pixelBits (s : State) : Nat :=
  (match s.op.ctype.toNat with
    | 0 => 1
    | 2 => 3
    | 3 => 1
    | 4 => 2
    | 6 => 4
    | _ => 0) * s.op.depth.toNat

/-- `rowBytes(w)` (R109). -/
def rowLen (bits w : Nat) : Nat := (w * bits + 7) / 8

/-- `rowBytes(IMG_W)`. -/
def imageRow (s : State) : Nat := rowLen (pixelBits s) (imageW s)

/-- `bpp` (R109). -/
def leftDistance (s : State) : Nat := max 1 ((pixelBits s + 7) / 8)

/-- The legal pairs of colour type and depth (R105). -/
def legalPair (s : State) : Bool :=
  [(0, 1), (0, 2), (0, 4), (0, 8), (0, 16), (2, 8), (2, 16), (3, 1), (3, 2), (3, 4), (3, 8), (4, 8), (4, 16), (6, 8),
    (6, 16)].contains (s.op.ctype.toNat, s.op.depth.toNat)

/-! Canvas geometry (R34, R71, R175). -/

def canvasSize (s : State) : Nat := s.op.canvasW.toNat * s.op.canvasH.toNat * 4

/-- The first byte of the canvas pixel of rectangle pixel `(c, r)` (R175). -/
def rectByte (s : State) (c r : Nat) : Nat :=
  4 * ((s.op.rectY.toNat + r) * s.op.canvasW.toNat + (s.op.rectX.toNat + c))

/-- Byte `a` of a canvas-wide buffer lies in the frame rectangle. -/
def inRect (s : State) (a : Nat) : Prop :=
  ∃ c r, c < s.op.rectW.toNat ∧ r < s.op.rectH.toNat ∧ rectByte s c r ≤ a ∧ a < rectByte s c r + 4

/-- The rectangle's columns lie inside the canvas. -/
abbrev rectFits (s : State) : Prop := s.op.rectX.toNat + s.op.rectW.toNat ≤ s.op.canvasW.toNat

/-! Start checks (R326). -/

/-- The operand checks of a command in the order of R326: what must hold, and the register `ERRINFO` names. -/
def r326 (i : Instr) (s : State) : List (Bool × Nat) :=
  let o := s.op
  let rawFits := decide (imageH s * imageRow s ≤ s.caps.raw)
  let canvas : List (Bool × Nat) :=
    [(decide (1 ≤ o.canvasW.toNat), 22), (decide (1 ≤ o.canvasH.toNat), 23),
      (decide (canvasSize s ≤ s.caps.canvas), 22)]
  let rect : List (Bool × Nat) :=
    [(decide (1 ≤ o.rectW.toNat), 26), (decide (1 ≤ o.rectH.toNat), 27),
      (decide (o.rectX.toNat + o.rectW.toNat ≤ o.canvasW.toNat), 24),
      (decide (o.rectY.toNat + o.rectH.toNat ≤ o.canvasH.toNat), 25)]
  let image : List (Bool × Nat) :=
    [([0, 2, 3, 4, 6].contains o.ctype.toNat, 13), (legalPair s, 14), (decide (1 ≤ imageW s), 11),
      (decide (1 ≤ imageH s), 12)]
  let recon : List (Bool × Nat) := image ++ [(decide (o.filtLen.toNat ≤ s.caps.filt), 15), (rawFits, 12)]
  match i with
  | .lzwDecode =>
    [(decide (1 ≤ o.lzwMincs.toNat ∧ o.lzwMincs.toNat ≤ 8), 3), (decide (o.inLen.toNat ≤ s.caps.inb), 4),
      (decide (o.outLen.toNat ≤ s.caps.idx), 5)]
  | .blitGif =>
    [(decide (canvasSize s ≤ s.caps.canvas), 22),
      (decide (o.rectX.toNat + o.rectW.toNat ≤ o.canvasW.toNat), 24),
      (decide (o.rectY.toNat + o.rectH.toNat ≤ o.canvasH.toNat), 25),
      (decide (o.palLen.toNat ≤ 256), 16), (decide (o.idxLen.toNat ≤ s.caps.idx), 29)]
  | .defilterRun => recon
  | .adam7Run => recon
  | .unpackIdx =>
    [(decide (o.ctype.toNat = 3), 13), ([1, 2, 4, 8].contains o.depth.toNat, 14), (decide (1 ≤ imageW s), 11),
      (decide (1 ≤ imageH s), 12), (rawFits, 12), (decide (imageW s * imageH s ≤ s.caps.idx), 12)]
  | .unpackRgba =>
    image ++
      [(rawFits, 12), (decide (imageW s * imageH s * 4 ≤ s.caps.pix), 12),
        (decide (o.ctype.toNat = 3 → o.palLen.toNat ≤ 256), 16),
        (decide (o.ctype.toNat = 3 → o.trnsLen.toNat ≤ 256), 17)]
  | .compReset => canvas
  | .deltaBbox => canvas
  | .compFrame =>
    canvas ++ rect ++
      [(decide (o.rectW.toNat * o.rectH.toNat * 4 ≤ s.caps.pix), 26), (decide (o.dispose.toNat ≤ 2), 30),
        (decide (s.compFrame.toNat = 0 →
          o.rectX.toNat = 0 ∧ o.rectY.toNat = 0 ∧ o.rectW = o.canvasW ∧ o.rectH = o.canvasH), 24)]
  | .deltaBlend => canvas ++ rect ++ [(decide (o.tAlpha.toNat ≤ 256), 32)]
  | _ => []

/-- All operand checks of the command hold. -/
abbrev passes (i : Instr) (s : State) : Prop := ∀ c ∈ r326 i s, c.1 = true

/-- The first check that fails is raised as `E_PARAM` with its register and nothing else changes; when none fails, no
`E_PARAM` is raised. -/
def checkedInOrder (i : Instr) (s : State) : List (Bool × Nat) → Prop
  | [] => ∀ t, exec i s = .next t → t.status.errcode ≠ 2#8
  | (ok, reg) :: rest => if ok then checkedInOrder i s rest else exec i s = .next (faulted s 2#8 reg)

/-! LZW (R66, R133 to R149). -/

/-- Payload extraction as a relation between the bytes of `IN` and the payload (R133). -/
inductive Framed : List Byte → List Byte → Prop where
  /-- the size byte is missing -/
  | missing : Framed [] []
  /-- a zero size ends the sequence -/
  | terminator (rest : List Byte) : Framed (0#8 :: rest) []
  /-- a sub-block cut short by `IN_LEN` -/
  | cut (n : Byte) (rest : List Byte) : rest.length < n.toNat → Framed (n :: rest) rest
  /-- a whole sub-block -/
  | block (n : Byte) (body rest out : List Byte) :
      n ≠ 0#8 → body.length = n.toNat → Framed rest out → Framed (n :: (body ++ rest)) (body ++ out)

/-- Bit `k` of the payload: bit `k mod 8` of byte `k div 8` (R66). -/
def payloadBit (p : List Byte) (k : Nat) : Nat := (p.getD (k / 8) 0#8).toNat / 2 ^ (k % 8) % 2

/-- The code of width `w` at bit position `pos`, the sum of R134. -/
def codeValue (p : List Byte) (pos w : Nat) : Nat :=
  ((List.range w).map fun j => payloadBit p (pos + j) * 2 ^ j).sum

/-- The state a run starts in (R132). -/
def lzwStart (s : State) : State :=
  { cleared s with
    lzw := { outPos := 0, bitPos := 0, curSize := BitVec.ofNat 4 (s.op.lzwMincs.toNat + 1),
             nextCode := BitVec.ofNat 13 (2 ^ s.op.lzwMincs.toNat + 2), prevCode := 0, prevValid := false } }

/-- `BITPOS` moved past the code about to run (R134). -/
def advanced (s : State) : State :=
  { s with lzw := { s.lzw with bitPos := BitVec.ofNat 32 (s.lzw.bitPos.toNat + s.lzw.curSize.toNat) } }

/-- The instruction the code at `BITPOS` decodes to (R97, R134). -/
def nextCodeInstr (p : List Byte) (s : State) : Instr :=
  decode (.code (codeCtx s)) (codeValue p s.lzw.bitPos.toNat s.lzw.curSize.toNat)

/-- The loop of R130 over the payload `p`: from `s` the run reaches `t`, where it halts. -/
inductive LzwRuns (p : List Byte) : State → State → Prop where
  /-- fewer than `CURSIZE` bits are left (R134) -/
  | exhausted (s : State) : 8 * p.length < s.lzw.bitPos.toNat + s.lzw.curSize.toNat →
      LzwRuns p s { s with status := { s.status with exhausted := true } }
  /-- the code at `BITPOS` ends the run -/
  | last (s t : State) : s.lzw.bitPos.toNat + s.lzw.curSize.toNat ≤ 8 * p.length →
      exec (nextCodeInstr p s) (advanced s) = .next t →
      (t.status.eoi = true ∨ t.status.overrun = true ∨ t.status.err = true) → LzwRuns p s t
  /-- the code at `BITPOS` does not end the run -/
  | more (s t u : State) : s.lzw.bitPos.toNat + s.lzw.curSize.toNat ≤ 8 * p.length →
      exec (nextCodeInstr p s) (advanced s) = .next t →
      (t.status.eoi = false ∧ t.status.overrun = false ∧ t.status.err = false) → LzwRuns p t u → LzwRuns p s u

/-- The finish of R149. -/
def lzwClosed (u : State) : State :=
  if u.status.err then u
  else
    { u with
      status := { u.status with
        done := true, trunc := u.status.exhausted || decide (u.lzw.outPos.toNat < u.op.outLen.toNat) } }

/-- `str(code)` as a relation (R138). -/
inductive CodeString (s : State) : BitVec 12 → List Byte → Prop where
  | literal (code : BitVec 12) : code.toNat < 2 ^ s.op.lzwMincs.toNat → CodeString s code [BitVec.ofNat 8 code.toNat]
  | entry (code : BitVec 12) (str : List Byte) : 2 ^ s.op.lzwMincs.toNat + 1 < code.toNat →
      CodeString s (s.dictAt code.toNat).prefixCode str →
      CodeString s code (str ++ [(s.dictAt code.toNat).suffix])

/-- What a data code with string `str` does (R143 to R148). -/
def dataCode (s t : State) (str : List Byte) (code : Nat) : Prop :=
  if s.op.outLen.toNat < s.lzw.outPos.toNat + str.length then
    t = { s with status := { s.status with overrun := true } }
  else
    t = { s with lzw := t.lzw, dict := t.dict, mem := t.mem } ∧
    t.bytes .idx s.lzw.outPos.toNat str.length = str ∧
    sameOutside s t (fun sp a => sp = .idx ∧ s.lzw.outPos.toNat ≤ a ∧ a < s.lzw.outPos.toNat + str.length) ∧
    t.lzw.outPos.toNat = s.lzw.outPos.toNat + str.length ∧ t.lzw.bitPos = s.lzw.bitPos ∧
    t.lzw.prevValid = true ∧ t.lzw.prevCode.toNat = code ∧
    if s.lzw.prevValid = true ∧ s.lzw.nextCode.toNat < 4096 then
      t.dictAt s.lzw.nextCode.toNat = { prefixCode := s.lzw.prevCode, suffix := str.headD 0#8 } ∧
      (∀ k, k ≠ s.lzw.nextCode.toNat → t.dictAt k = s.dictAt k) ∧
      t.lzw.nextCode.toNat = s.lzw.nextCode.toNat + 1 ∧
      t.lzw.curSize.toNat =
        (if 2 ^ s.lzw.curSize.toNat ≤ s.lzw.nextCode.toNat + 1 ∧ s.lzw.curSize.toNat < 12
          then s.lzw.curSize.toNat + 1 else s.lzw.curSize.toNat)
    else t.dict = s.dict ∧ t.lzw.nextCode = s.lzw.nextCode ∧ t.lzw.curSize = s.lzw.curSize

/-! The blitter (R170 to R181). -/

/-- `rows(h)`, the sequence of R174. -/
def rowSequence (h : Nat) : List Nat :=
  (List.range h).filter (fun r => r % 8 == 0) ++ (List.range h).filter (fun r => r % 8 == 4) ++
    (List.range h).filter (fun r => r % 4 == 2) ++ (List.range h).filter (fun r => r % 2 == 1)

/-- How many indices are processed (R171). -/
def indexCount (s : State) : Nat := min s.op.idxLen.toNat (s.op.rectW.toNat * s.op.rectH.toNat)

/-- Where stream position `i` is painted (R172 to R175). -/
def indexByte (m : BlitMode) (s : State) (i : Nat) : Nat :=
  rectByte s (i % s.op.rectW.toNat)
    (if m.interlaced then (rowSequence s.op.rectH.toNat).getD (i / s.op.rectW.toNat) 0 else i / s.op.rectW.toNat)

/-- Stream position `i` holds the transparent index (R176). -/
abbrev indexSkipped (m : BlitMode) (s : State) (i : Nat) : Prop :=
  m.transpEn = true ∧ s.byte .idx i = s.op.transpIdx

/-- Stream position `i` holds an index outside the palette that is not skipped (R177). -/
abbrev indexBad (m : BlitMode) (s : State) (i : Nat) : Prop :=
  ¬ indexSkipped m s i ∧ s.op.palLen.toNat ≤ (s.byte .idx i).toNat

/-- The four bytes painted for stream position `i` (R178, R179). -/
def indexColour (m : BlitMode) (s : State) (i : Nat) : List Byte :=
  let c := s.palAt (s.byte .idx i).toNat
  if m.order then [c.b, c.g, c.r, 255#8] else [c.r, c.g, c.b, 255#8]

/-- The canvas is painted by the whole index stream and nothing else changes (R175 to R180). -/
def painted (m : BlitMode) (s t : State) : Prop :=
  onlyMem s t ∧
  (∀ i, i < indexCount s → ¬ indexSkipped m s i → t.bytes .canvas (indexByte m s i) 4 = indexColour m s i) ∧
  sameOutside s t (fun sp a => sp = .canvas ∧
    ∃ i, i < indexCount s ∧ ¬ indexSkipped m s i ∧ indexByte m s i ≤ a ∧ a < indexByte m s i + 4)

/-- The values of `BLIT_CTL`'s fields as instructions, and the blit each one is. -/
def controlBlits (s : State) : List (Instr × BlitMode) :=
  [ (.rowOrderSequential, { interlaced := false, transpEn := s.op.transpEn, order := s.op.order }),
    (.rowOrderInterlaced, { interlaced := true, transpEn := s.op.transpEn, order := s.op.order }),
    (.transpOff, { interlaced := s.op.interlaced, transpEn := false, order := s.op.order }),
    (.transpOn, { interlaced := s.op.interlaced, transpEn := true, order := s.op.order }),
    (.orderRgba, { interlaced := s.op.interlaced, transpEn := s.op.transpEn, order := false }),
    (.orderBgra, { interlaced := s.op.interlaced, transpEn := s.op.transpEn, order := true }) ]

/-! Reconstruction (R191 to R202). -/

/-- `pred(tag, a, b, c)` (R193 to R197); `none` for a reserved tag. -/
def predicted (tag a b c : Byte) : Option Byte :=
  match tag.toNat with
  | 0 => some 0#8
  | 1 => some a
  | 2 => some b
  | 3 => some (BitVec.ofNat 8 ((a.toNat + b.toNat) / 2))
  | 4 => some (paeth a b c)
  | _ => none

/-- Byte `x` of raw row `y` is the reconstruction of filtered byte `f` under tag `tag` from its neighbours in `raw`, which
are 0 before the start of the row and above the first row (R191, R192, R202). -/
def reconstructed (tag f : Byte) (bpp : Nat) (raw : Nat → Nat → Byte) (y x : Nat) : Prop :=
  ∃ p, predicted tag
      (if bpp ≤ x then raw y (x - bpp) else 0#8)
      (if y = 0 then 0#8 else raw (y - 1) x)
      (if y = 0 ∨ x < bpp then 0#8 else raw (y - 1) (x - bpp)) = some p ∧
    raw y x = f + p

/-- Rows 0 to `h - 1` of `raw` are the reconstruction of `FILT` from index `off` on (R191). -/
def reconstructs (s : State) (off h rb : Nat) (raw : Nat → Nat → Byte) : Prop :=
  ∀ y x, y < h → x < rb →
    reconstructed (s.byte .filt (off + y * (1 + rb))) (s.byte .filt (off + y * (1 + rb) + 1 + x)) (leftDistance s) raw y x

/-- The raw rows of the image as they stand in `RAW` (R72). -/
def rawRows (t : State) (rb : Nat) (y x : Nat) : Byte := t.byte .raw (y * rb + x)

/-- The bytes of `FILT` a non-interlaced image needs (R203). -/
def plainNeed (s : State) : Nat := imageH s * (1 + imageRow s)

/-- The filter tags as instructions on row `y`, and the tag bytes they stand for (R102). -/
def tagInstrs (y : Nat) : List (Instr × Byte) :=
  [(.filtNone y, 0#8), (.filtSub y, 1#8), (.filtUp y, 2#8), (.filtAvg y, 3#8), (.filtPaeth y, 4#8)]

/-! Adam7 (R211 to R218). -/

/-- `len_p` of R213. -/
def passBytes (s : State) (p : Pass) : Nat :=
  if passW (imageW s) p = 0 ∨ passH (imageH s) p = 0 then 0
  else passH (imageH s) p * (1 + rowLen (pixelBits s) (passW (imageW s) p))

/-- `off_p` of R213 for the pass number `k + 1`. -/
def passOffset (s : State) (k : Nat) : Nat := ((adam7Passes.take k).map (passBytes s)).sum

/-- `need` of R213. -/
def interlacedNeed (s : State) : Nat := passOffset s 7

/-- The index in `FILT` of the tag of row `j` of pass number `k + 1`. -/
def passTag (s : State) (k : Nat) (p : Pass) (j : Nat) : Nat :=
  passOffset s k + j * (1 + rowLen (pixelBits s) (passW (imageW s) p))

/-- Row `j` of pass `p` exists. -/
abbrev passHasRow (s : State) (p : Pass) (j : Nat) : Prop := 0 < passW (imageW s) p ∧ j < passH (imageH s) p

/-- The `bits`-wide field at bit `o` of a byte, most significant first (R68). -/
def fieldAt (b : Byte) (bits o : Nat) : Nat := b.toNat / 2 ^ (8 - bits - o) % 2 ^ bits

/-- Pixel `x` of raw row `y` in `RAW` equals pixel `i` of the pass row `row` (R216, R217). -/
def pixelCopied (s t : State) (row : Nat → Byte) (i x y : Nat) : Prop :=
  let bits := pixelBits s
  if 8 ≤ bits then
    ∀ b, b < bits / 8 → t.byte .raw (y * imageRow s + x * (bits / 8) + b) = row (i * (bits / 8) + b)
  else
    fieldAt (t.byte .raw (y * imageRow s + x * bits / 8)) bits (x * bits % 8) =
      fieldAt (row (i * bits / 8)) bits (i * bits % 8)

/-! Samples (R110). -/

/-- Sample `k` of pixel `(x, y)` of an image with `ch` channels per pixel (R68, R69, R110). -/
def rawSample (s : State) (ch x y k : Nat) : Nat :=
  let d := s.op.depth.toNat
  let row := y * rowLen (ch * d) (imageW s)
  if d = 8 then (s.byte .raw (row + (x * ch + k))).toNat
  else if d = 16 then
    256 * (s.byte .raw (row + 2 * (x * ch + k))).toNat + (s.byte .raw (row + (2 * (x * ch + k) + 1))).toNat
  else fieldAt (s.byte .raw (row + x * d / 8)) d (x * d % 8)

/-- A sample of depth 8 or 16 as an output byte: the byte itself, or the high byte (R238 to R242, R245). -/
def copied (s : State) (v : Nat) : Byte := BitVec.ofNat 8 (if s.op.depth.toNat = 16 then v / 256 else v)

/-- The four bytes of output pixel `(x, y)` in `PIX` (R71). -/
def pixAt (t : State) (x y : Nat) : List Byte := t.bytes .pix (4 * (y * imageW t + x)) 4

/-- The bytes of `PIX` an image covers (R64). -/
abbrev inPix (s : State) (sp : Space) (a : Nat) : Prop := sp = .pix ∧ a < imageW s * imageH s * 4

/-- `PIX` holds `pixel x y` for every pixel of the image and nothing else changes. -/
def expanded (s t : State) (pixel : Nat → Nat → List Byte) : Prop :=
  onlyMem s t ∧ (∀ x y, x < imageW s → y < imageH s → pixAt t x y = pixel x y) ∧ sameOutside s t (inPix s)

/-- Alpha of a pixel whose `tRNS` key comparison has this outcome (R243). -/
def keyAlpha (hit : Bool) : Byte := if hit then 0#8 else 255#8

/-- The palette index of pixel `(x, y)` (R230, R237). -/
def rawIndex (s : State) (x y : Nat) : Nat := rawSample s 1 x y 0

/-! The compositor (R264 to R272). -/

/-- Pixel `(c, r)` of the frame in `PIX` (R71, R365). -/
def framePix (s : State) (c r : Nat) : List Byte := s.bytes .pix (4 * (r * s.op.rectW.toNat + c)) 4

/-- What the blend puts at rectangle pixel `(c, r)` (R264, R266). -/
def blendedPix (isOver : Bool) (s : State) (c r : Nat) : List Byte :=
  if isOver then overPixel (framePix s c r) (s.bytes .canvas (rectByte s c r) 4) else framePix s c r

/-- The bytes of the frame rectangle in `CANVAS`. -/
abbrev inCanvasRect (s : State) (sp : Space) (a : Nat) : Prop := sp = .canvas ∧ inRect s a

/-- The frame is blended onto the canvas and nothing else changes. -/
def blended (isOver : Bool) (s t : State) : Prop :=
  onlyMem s t ∧
  (∀ c r, c < s.op.rectW.toNat → r < s.op.rectH.toNat →
    t.bytes .canvas (rectByte s c r) 4 = blendedPix isOver s c r) ∧
  sameOutside s t (inCanvasRect s)

/-! The frame delta (R290 to R293). -/

/-- `differs(x, y)` (R291). -/
def pixelDiffers (s : State) (x y : Nat) : Prop :=
  s.bytes .da (4 * (y * s.op.canvasW.toNat + x)) 4 ≠ s.bytes .db (4 * (y * s.op.canvasW.toNat + x)) 4

/-- `(x, y)` is a pixel of the canvas at which the frames differ (R290). -/
abbrev changedPixel (s : State) (x y : Nat) : Prop :=
  x < s.op.canvasW.toNat ∧ y < s.op.canvasH.toNat ∧ pixelDiffers s x y

/-! Write footprints (R64). -/

/-- The bytes a command or a stream item may write, going from `s` to `t` (R64, R142). -/
def footprint (i : Instr) (s t : State) (sp : Space) (a : Nat) : Prop :=
  let raw := sp = .raw ∧ a < imageH s * imageRow s
  let row (y : Nat) := sp = .raw ∧ y < imageH s ∧ y * imageRow s ≤ a ∧ a < y * imageRow s + imageRow s
  let pix := sp = .pix ∧ a < imageW s * imageH s * 4
  let rect := sp = .canvas ∧ inRect s a
  let canvas (q : Space) := sp = q ∧ a < canvasSize s
  let data := sp = .idx ∧ s.lzw.outPos.toNat ≤ a ∧ a < s.op.outLen.toNat
  match i with
  | .lzwDecode => sp = .idx ∧ a < (if t.status.err then s.op.outLen.toNat else t.lzw.outPos.toNat)
  | .blitGif => rect
  | .defilterRun => raw
  | .adam7Run => raw
  | .unpackIdx => sp = .idx ∧ a < imageW s * imageH s
  | .unpackRgba => pix
  | .compReset => canvas .canvas
  | .compFrame => rect ∨ canvas .vis ∨ (canvas .snap ∧ s.op.dispose = 2#2)
  | .lzwLit _ => data
  | .lzwRef _ => data
  | .lzwKwkwk => data
  | .lzwInvalid _ => sp = .idx ∧ a < s.op.outLen.toNat
  | .filtNone y => row y
  | .filtSub y => row y
  | .filtUp y => row y
  | .filtAvg y => row y
  | .filtPaeth y => row y
  | .filtReserved _ _ => raw
  | .disposeClearToBackground phase => rect ∧ phase = .afterVisible
  | .disposeRestoreToPrevious phase => if phase = .beforeBlend then canvas .snap else canvas .canvas
  | .blendSource => rect
  | .blendOver => rect
  | .rowOrderSequential => rect
  | .rowOrderInterlaced => rect
  | .transpOff => rect
  | .transpOn => rect
  | .orderRgba => rect
  | .orderBgra => rect
  | .ctypeGray => pix
  | .ctypeRgb => pix
  | .ctypePalette => pix
  | .ctypeGrayAlpha => pix
  | .ctypeRgba => pix
  | _ => False

/-! The register file (R21, R22). -/

/-- The bits of the fields R22 gives a register. -/
def fieldMask : RegName → Word
  | .cmd => 0#32
  | .status => 0xFF7F#32
  | .lzwMincs => 0xF#32
  | .curSize => 0xF#32
  | .nextCode => 0x1FFF#32
  | .prevCode => 0x1FFF#32
  | .ctype => 0x7#32
  | .depth => 0x1F#32
  | .palLen => 0x1FF#32
  | .trnsLen => 0x1FF#32
  | .trnsCtl => 0x1#32
  | .trnsK0 => 0xFFFF#32
  | .trnsK1 => 0xFFFF#32
  | .trnsK2 => 0xFFFF#32
  | .blitCtl => 0xFF07#32
  | .compCtl => 0x13#32
  | .tAlpha => 0x1FF#32
  | .blendSel => 0x1#32
  | _ => 0xFFFFFFFF#32

/-- The registers of access `RW` (R22): the operand registers. -/
def isOperand : RegName → Bool
  | .cmd => false
  | .status => false
  | .errinfo => false
  | .outPos => false
  | .bitPos => false
  | .curSize => false
  | .nextCode => false
  | .prevCode => false
  | .compFrame => false
  | .bbX => false
  | .bbY => false
  | .bbW => false
  | .bbH => false
  | .blendSel => false
  | .filtUsed => false
  | _ => true

end Sys2Proof.Claim

open Sys2Proof.Claim

/-! Encoding. -/

/-- R90 to R118: every well-formed instruction, encoded at its site, decodes to itself with every operand. -/
def Obligations.DecodeOfEncode : Prop :=
  ∀ (c : CodeCtx) (i : Instr), i.wf c = true → decode (i.site c) (encode c i) = i

/-- The other direction, at the sites whose whole value is the item: an LZW code in any legal state, a filter tag, and
`CMD[7:0]` decode to a well-formed instruction that encodes to the same value. -/
def Obligations.EncodeOfDecode : Prop :=
  (∀ (c : CodeCtx) (code : Nat), c.legal = true → code < 2 ^ c.width →
    (decode (.code c) code).wf c = true ∧ encode c (decode (.code c) code) = code) ∧
  (∀ (c : CodeCtx) (row : Nat) (tag : Byte),
    (decode (.tag row) tag.toNat).wf c = true ∧ encode c (decode (.tag row) tag.toNat) = tag.toNat) ∧
  (∀ (c : CodeCtx) (w : Nat), (decode .cmd w).wf c = true ∧ encode c (decode .cmd w) = w % 256)

/-- The opcode map of R92, the tag table of R102, and the enumeration values of R107, R111, R112, R116, word by word. -/
def Obligations.DecodedWords : Prop :=
  (decode .cmd 0x00 = .nop ∧ decode .cmd 0x01 = .lzwDecode ∧ decode .cmd 0x02 = .blitGif ∧
    decode .cmd 0x03 = .defilterRun ∧ decode .cmd 0x04 = .adam7Run ∧ decode .cmd 0x05 = .unpackIdx ∧
    decode .cmd 0x06 = .unpackRgba ∧ decode .cmd 0x07 = .compReset ∧ decode .cmd 0x08 = .compFrame ∧
    decode .cmd 0x09 = .deltaBbox ∧ decode .cmd 0x0A = .deltaBlend) ∧
  (decode (.tag 5) 0 = .filtNone 5 ∧ decode (.tag 5) 1 = .filtSub 5 ∧ decode (.tag 5) 2 = .filtUp 5 ∧
    decode (.tag 5) 3 = .filtAvg 5 ∧ decode (.tag 5) 4 = .filtPaeth 5) ∧
  (decode .ctype 0 = .ctypeGray ∧ decode .ctype 2 = .ctypeRgb ∧ decode .ctype 3 = .ctypePalette ∧
    decode .ctype 4 = .ctypeGrayAlpha ∧ decode .ctype 6 = .ctypeRgba) ∧
  (decode (.dispose .beforeBlend) 0 = .disposeNone .beforeBlend ∧
    decode (.dispose .beforeBlend) 1 = .disposeClearToBackground .beforeBlend ∧
    decode (.dispose .beforeBlend) 2 = .disposeRestoreToPrevious .beforeBlend ∧
    decode .blend 0x00 = .blendSource ∧ decode .blend 0x10 = .blendOver) ∧
  (decode .rowOrder 0 = .rowOrderSequential ∧ decode .rowOrder 1 = .rowOrderInterlaced ∧ decode .transp 0 = .transpOff ∧
    decode .transp 2 = .transpOn ∧ decode .order 0 = .orderRgba ∧ decode .order 4 = .orderBgra)

/-- R91: `CMD[31:8]` is ignored. R93, R304: an opcode of 0x0B or above is reserved; running it raises `E_CMD` with
`ERRINFO` the opcode, and nothing else changes. -/
def Obligations.ReservedOpcode : Prop :=
  (∀ w : Nat, decode .cmd w = decode .cmd (w % 256)) ∧
  (∀ (w : Nat) (s : State), 0x0B ≤ w % 256 → exec (decode .cmd w) s = .next (faulted s 1#8 (w % 256))) ∧
  (∀ (op : Byte) (s : State), exec (.cmdReserved op) s = .next (faulted s 1#8 op.toNat))

/-- R97: the instruction a code selects, by the ordered tests of the table, with the code as its operand (R98). R99: a code of
a legal width is at most 4095, and with a full table none is `LZW.KWKWK` or `LZW.INVALID`. -/
def Obligations.CodeClasses : Prop :=
  (∀ (c : CodeCtx) (code : Nat), c.legal = true → code < 2 ^ c.width →
    decode (.code c) code =
      if code = 2 ^ c.m then .lzwClear
      else if code = 2 ^ c.m + 1 then .lzwEoi
      else if code < 2 ^ c.m then .lzwLit (BitVec.ofNat 12 code)
      else if code < c.next then .lzwRef (BitVec.ofNat 12 code)
      else if code = c.next ∧ c.valid = true then .lzwKwkwk
      else .lzwInvalid (BitVec.ofNat 12 code)) ∧
  (∀ (c : CodeCtx) (code : Nat), c.legal = true → code < 2 ^ c.width →
    code ≤ 4095 ∧
    (c.next = 4096 →
      decode (.code c) code ≠ .lzwKwkwk ∧ ∀ v, decode (.code c) code ≠ .lzwInvalid v))

/-! The step, the host, reset. -/

/-- R300, R351, R361: one step carries out the host's next access. A `CMD` write to the idle block runs the instruction its
value decodes to, on the state with that access done (the queue of accesses is the model's, log entry 1); with no access
the block stays as it is; an access while `BUSY = 1` is refused (log entry 6). -/
def Obligations.StepRunsDecoded : Prop :=
  (∀ (s : State) (v : Word) (rest : List HostAccess), s.host = .writeReg .cmd v :: rest → s.status.busy = false →
    step s = exec (decode .cmd v.toNat) { s with host := rest }) ∧
  (∀ s : State, s.host = [] → step s = .next s) ∧
  (∀ (s : State) (a : HostAccess) (rest : List HostAccess), s.host = a :: rest → s.status.busy = true →
    step s = .refused .hostAccessWhileBusy)

/-- R21, R22: a host write to an operand register is read back in its field bits; a write to any other register but `CMD` is
ignored; no other register, no buffer and no table changes. -/
def Obligations.RegisterWrite : Prop :=
  ∀ (s : State) (r : RegName) (v : Word) (rest : List HostAccess),
    s.host = .writeReg r v :: rest → s.status.busy = false → r ≠ .cmd →
    ∃ t, step s = .next t ∧
      t.readReg r = (if isOperand r then v &&& fieldMask r else s.readReg r) ∧
      (∀ q, q ≠ r → t.readReg q = s.readReg q) ∧
      t = { s with op := t.op, host := rest }

/-- R21: 39 registers numbered 0 to 38, one name each; the bits of a register that belong to no field read as 0; `CMD` reads
as 0 (R23). -/
def Obligations.RegisterFile : Prop :=
  (∀ n, n < 39 → ∃ r : RegName, r.number = n) ∧ (∀ r : RegName, r.number < 39) ∧
  (∀ r q : RegName, r.number = q.number → r = q) ∧
  (∀ (s : State) (r : RegName), s.readReg r &&& ~~~ fieldMask r = 0#32) ∧
  (∀ s : State, s.readReg .cmd = 0#32)

/-- R70, R80: a host write of one buffer byte changes that byte only, of that space only, and no register or table. A byte at
or above the capacity does not exist (R61); writing it is a fault of the model's (log entry 7). -/
def Obligations.ByteWrite : Prop :=
  ∀ (s : State) (sp : Space) (i : Nat) (b : Byte) (rest : List HostAccess),
    s.host = .writeByte sp i b :: rest → s.status.busy = false →
    (i < s.caps.of sp →
      ∃ t, step s = .next t ∧ t.hostByte sp i = some b ∧
        (∀ sq j, sq ≠ sp ∨ j ≠ i → t.hostByte sq j = s.hostByte sq j) ∧
        t = { s with mem := t.mem, host := rest }) ∧
    (s.caps.of sp ≤ i → step s = .fault .noSuchByte)

/-- R30, R31, R44: a host write of a `PAL` or `TRNSA` entry changes that entry only. -/
def Obligations.TableWrite : Prop :=
  (∀ (s : State) (i : Byte) (c : Rgb) (rest : List HostAccess),
    s.host = .writePal i c :: rest → s.status.busy = false →
    ∃ t, step s = .next t ∧ t.palAt i.toNat = c ∧ (∀ j, j ≠ i.toNat → t.palAt j = s.palAt j) ∧
      t = { s with pal := t.pal, host := rest }) ∧
  (∀ (s : State) (i a : Byte) (rest : List HostAccess),
    s.host = .writeTrnsa i a :: rest → s.status.busy = false →
    ∃ t, step s = .next t ∧ t.trnsaAt i.toNat = a ∧ (∀ j, j ≠ i.toNat → t.trnsaAt j = s.trnsaAt j) ∧
      t = { s with trnsa := t.trnsa, host := rest })

/-- R42: after reset every register reads 0 and `COMP_READY` is 0. R42, R352: what no one has written is unspecified, which
in the model is a free value (log entry 2). -/
def Obligations.ResetValues : Prop :=
  (∀ r : RegName, State.reset.readReg r = 0#32) ∧ State.reset.compReady = false ∧
  (∀ sp i, State.reset.byte sp i = Config.powerOn 0 sp i) ∧
  (∀ i, State.reset.palAt i = Config.powerOnPal 0 i) ∧ (∀ i, State.reset.trnsaAt i = Config.powerOnTrnsa 0 i) ∧
  (∀ i, State.reset.dictAt i = Config.powerOnDict 0 i)

/-- R350: the reset event takes the idle block to the registers of R42, with every table and buffer unspecified anew: free
values of the next epoch (log entry 2). -/
def Obligations.ResetEvent : Prop :=
  ∀ (s : State) (rest : List HostAccess), s.host = .reset :: rest → s.status.busy = false →
    ∃ t, step s = .next t ∧ (∀ r : RegName, t.readReg r = 0#32) ∧ t.compReady = false ∧
      (∀ sp i, t.byte sp i = Config.powerOn (s.epoch + 1) sp i) ∧
      (∀ i, t.palAt i = Config.powerOnPal (s.epoch + 1) i) ∧
      (∀ i, t.trnsaAt i = Config.powerOnTrnsa (s.epoch + 1) i) ∧
      (∀ i, t.dictAt i = Config.powerOnDict (s.epoch + 1) i)

/-- The invariant holds after reset. -/
def Obligations.InvariantAtReset : Prop := Inv State.reset

/-- Every step keeps the invariant: the canonical form and the bounds of every buffer and table (R61, R62), and a legal
status (R24, R321). -/
def Obligations.InvariantKept : Prop := ∀ s t : State, Inv s → step s = .next t → Inv t

/-! What instructions leave alone. -/

/-- R26, R43, R79, R80: no instruction writes an operand register, `PAL`, `TRNSA`, or a byte of `IN`, `FILT`, `DA`, `DB`. -/
def Obligations.InputsKept : Prop :=
  ∀ (i : Instr) (s t : State), exec i s = .next t →
    t.op = s.op ∧ t.pal = s.pal ∧ t.trnsa = s.trnsa ∧ t.mem.inb = s.mem.inb ∧ t.mem.filt = s.mem.filt ∧
    t.mem.da = s.mem.da ∧ t.mem.db = s.mem.db ∧ t.caps = s.caps ∧ t.host = s.host ∧ t.epoch = s.epoch

/-- R22, R38, R43: which results an instruction can change. -/
def Obligations.ResultsKept : Prop :=
  ∀ (i : Instr) (s t : State), exec i s = .next t →
    (t.lzw ≠ s.lzw ∨ t.dict ≠ s.dict →
      i = .lzwDecode ∨ i = .lzwClear ∨ i = .lzwKwkwk ∨ ∃ code, i = .lzwLit code ∨ i = .lzwRef code) ∧
    (t.compFrame ≠ s.compFrame → i = .compReset ∨ i = .compFrame) ∧
    (t.compReady ≠ s.compReady → i = .compReset ∧ t.compReady = true) ∧
    (t.bbox ≠ s.bbox → i = .deltaBbox) ∧ (t.blendSel ≠ s.blendSel → i = .deltaBlend) ∧
    (t.filtUsed ≠ s.filtUsed → i = .defilterRun ∨ i = .adam7Run)

/-- R64: an instruction changes no byte of any space outside its write footprint. -/
def Obligations.WriteFootprint : Prop :=
  ∀ (i : Instr) (s t : State), exec i s = .next t → sameOutside s t (footprint i s t)

/-- R324: after a fault raised at the start (codes 1 to 4) nothing but `STATUS` and `ERRINFO` has changed; after a
data-dependent one every byte outside the command's footprint, `PAL`, `TRNSA`, the operand registers, `COMP_READY` and
`COMP_FRAME` are unchanged. (Bytes inside the footprint are unspecified: nothing is said of them.) -/
def Obligations.StateAfterFault : Prop :=
  ∀ (w : Nat) (s t : State), exec (decode .cmd w) s = .next t → t.status.err = true →
    (t.status.errcode.toNat ≤ 4 → t = { s with status := t.status, errinfo := t.errinfo }) ∧
    (5 ≤ t.status.errcode.toNat →
      sameOutside s t (footprint (decode .cmd w) s t) ∧ t.pal = s.pal ∧ t.trnsa = s.trnsa ∧ t.op = s.op ∧
      t.compReady = s.compReady ∧ t.compFrame = s.compFrame)

/-- R24, R320, R321: every command ends, with `DONE = 1` and `BUSY = 0`, in one of three ways: normally; with a warning, which
only LZW.DECODE gives; or with a fault, whose code is 1 to 7 and which carries no warning. Without a fault `ERRCODE` and
`ERRINFO` are 0; a command other than LZW.DECODE leaves `EOI` and `EXHAUSTED` 0. -/
def Obligations.CommandOutcome : Prop :=
  ∀ (w : Nat) (s : State), ∃ t, exec (decode .cmd w) s = .next t ∧ t.status.done = true ∧ t.status.busy = false ∧
    ((t.status.err = false ∧ t.status.errcode = 0#8 ∧ t.errinfo = 0#32 ∧
        (t.status = okStatus ∨ decode .cmd w = .lzwDecode)) ∨
      (∃ code : Byte, 1 ≤ code.toNat ∧ code.toNat ≤ 7 ∧ t.status = faultStatus code))

/-- R36: `COMP_READY` becomes 1 only by a COMP.RESET that ends without a fault, and only a reset clears it. -/
def Obligations.CompReadyHistory : Prop :=
  ∀ (s t : State) (a : HostAccess) (rest : List HostAccess), s.host = a :: rest → step s = .next t →
    (t.compReady = true → s.compReady = true ∨
      (∃ v : Word, a = .writeReg .cmd v ∧ decode .cmd v.toNat = .compReset ∧ t.status.err = false)) ∧
    (s.compReady = true → t.compReady = true ∨ a = .reset)

/-! Commands in general. -/

/-- R303: NOP clears `STATUS` and `ERRINFO`, sets `DONE`, and changes nothing else. -/
def Obligations.NopEffect : Prop := ∀ s : State, exec .nop s = .next (ended s)

/-- R326: the `E_PARAM` checks of every command, in order, with the register each names; COMP.FRAME makes them only when
`COMP_READY = 1` (R325). -/
def Obligations.StartChecksInOrder : Prop :=
  ∀ (i : Instr) (s : State),
    i ∈ [Instr.lzwDecode, .blitGif, .defilterRun, .adam7Run, .unpackIdx, .unpackRgba, .compReset, .compFrame, .deltaBbox,
      .deltaBlend] →
    (i = .compFrame → s.compReady = true) → checkedInOrder i s (r326 i s)

/-- R262: COMP.FRAME with `COMP_READY = 0` raises `E_SEQ` with `ERRINFO = 0`, before any operand check, and changes nothing.
R203, R219: when the operand checks pass and `FILT_LEN` is less than the geometry needs, DEFILTER.RUN and ADAM7.RUN raise
`E_UNDERRUN` with `ERRINFO` the need and change nothing. -/
def Obligations.SequenceAndLengthFaults : Prop :=
  (∀ s : State, s.compReady = false → exec .compFrame s = .next (faulted s 3#8 0)) ∧
  (∀ s : State, passes .defilterRun s → s.op.filtLen.toNat < plainNeed s →
    exec .defilterRun s = .next (faulted s 4#8 (plainNeed s))) ∧
  (∀ s : State, passes .adam7Run s → s.op.filtLen.toNat < interlacedNeed s →
    exec .adam7Run s = .next (faulted s 4#8 (interlacedNeed s)))

/-! LZW. -/

/-- R136: `LZW.CLEAR`, selected by `clearCode`, resets `NEXTCODE` and `CURSIZE`, forgets the previous code, and changes nothing
else. R137: `LZW.EOI`, selected by `eoiCode`, sets `STATUS.EOI` and changes nothing else (that the run halts there is
`Obligations.LzwDecodeRunsCodes`). The model's choices: a code runs as an instruction of its own (log entry 9), with no operand
check, also for `LZW_MINCS = 0`, and with `DONE` left to the command (log entry 14); a clear keeps `PREVCODE.CODE` (log
entry 18). -/
def Obligations.LzwControlCodes : Prop :=
  (∀ c : CodeCtx, c.legal = true →
    decode (.code c) (2 ^ c.m) = .lzwClear ∧ decode (.code c) (2 ^ c.m + 1) = .lzwEoi) ∧
  (∀ s : State, s.op.lzwMincs.toNat ≤ 8 →
    ∃ t, exec .lzwClear s = .next t ∧ t = { s with lzw := t.lzw } ∧
      t.lzw.nextCode.toNat = 2 ^ s.op.lzwMincs.toNat + 2 ∧ t.lzw.curSize.toNat = s.op.lzwMincs.toNat + 1 ∧
      t.lzw.prevValid = false ∧ t.lzw.prevCode = s.lzw.prevCode ∧ t.lzw.bitPos = s.lzw.bitPos ∧
      t.lzw.outPos = s.lzw.outPos) ∧
  (∀ s : State, exec .lzwEoi s = .next { s with status := { s.status with eoi := true } })

/-- R139: `LZW.LIT` is the data code whose string is the code value itself. (A code as an instruction of its own: the model's choice,
log entries 9 and 14.) -/
def Obligations.LzwLitEffect : Prop :=
  ∀ (s : State) (code : BitVec 12), ∃ t, exec (.lzwLit code) s = .next t ∧
    dataCode s t [BitVec.ofNat 8 code.toNat] code.toNat

/-- R140: `LZW.REF` is the data code whose string is the code's dictionary string. (A code as an instruction of its own: the
model's choice, log entries 9 and 14.) -/
def Obligations.LzwRefEffect : Prop :=
  ∀ (s : State) (code : BitVec 12), LzwInv s → 2 ^ s.op.lzwMincs.toNat + 1 < code.toNat →
    code.toNat < s.lzw.nextCode.toNat →
    ∃ t str, exec (.lzwRef code) s = .next t ∧ CodeString s code str ∧ dataCode s t str code.toNat

/-- R141: `LZW.KWKWK` is the data code `NEXTCODE`, whose string is the previous code's string and its first index again;
unless that overruns, the string of the code is that string afterwards. (A code as an instruction of its own: the model's
choice, log entries 9 and 14.) -/
def Obligations.LzwKwkwkEffect : Prop :=
  ∀ s : State, LzwInv s → s.lzw.prevValid = true → s.lzw.nextCode.toNat < 4096 →
    ∃ t str, exec .lzwKwkwk s = .next t ∧ CodeString s s.lzw.prevCode str ∧
      dataCode s t (str ++ [str.headD 0#8]) s.lzw.nextCode.toNat ∧
      (t.status.overrun = false →
        CodeString t (BitVec.ofNat 12 s.lzw.nextCode.toNat) (str ++ [str.headD 0#8]))

/-- R142: `LZW.INVALID` raises `E_LZW_CODE` with `ERRINFO` the code; the working registers keep their values, and only bytes of
`IDX[0 .. OUT_LEN)` can change. (A code as an instruction of its own: the model's choice, log entries 9 and 14.) -/
def Obligations.LzwInvalidEffect : Prop :=
  ∀ (s : State) (code : BitVec 12), ∃ t, exec (.lzwInvalid code) s = .next t ∧
    t = { faulted s 5#8 code.toNat with mem := t.mem, free := t.free } ∧
    sameOutside s t (fun sp a => sp = .idx ∧ a < s.op.outLen.toNat)

/-- The states LZW.DECODE fetches codes in: a run starts in one (R132), and every code of the current width leads to one. (A code as an instruction of its own: the model's choice, log entries 9
and 14.) -/
def Obligations.LzwInvariantKept : Prop :=
  (∀ s : State, passes .lzwDecode s → LzwInv (lzwStart s)) ∧
  (∀ (s t : State) (code : Nat), LzwInv s → code < 2 ^ s.lzw.curSize.toNat →
    exec (decode (.code (codeCtx s)) code) s = .next t → LzwInv t)

/-- R133: the payload is what the framing rule extracts from `IN[0 .. IN_LEN)`, and nothing else is. -/
def Obligations.PayloadFraming : Prop :=
  ∀ (s : State) (p : List Byte), Framed (s.bytes .inb 0 s.op.inLen.toNat) p ↔ p = payload s

/-- R66, R134: a code of width `w` at bit position `pos` has as bit `j` the payload bit `pos + j`, where payload bit `k` is bit
`k mod 8` of payload byte `k div 8`; a run starts at bit 0. -/
def Obligations.CodeBitOrder : Prop :=
  (∀ (p : List Byte) (pos w j : Nat), j < w →
    codeAt (bitStream p) pos w / 2 ^ j % 2 = payloadBit p (pos + j)) ∧
  (∀ (p : List Byte) (pos w : Nat), codeAt (bitStream p) pos w = codeValue p pos w) ∧
  (∀ s : State, (lzwInit s).lzw.bitPos = 0#32)

/-- R130, R132, R134, R149: LZW.DECODE with legal operands starts in the state of R132, runs the codes of its payload one after
another, each as the instruction it decodes to, until one of them or the end of the payload halts it, and finishes. That a code is an instruction of its own (log entry 9) and
that a bounded loop stands for the loop of R130 (log entry 13) are the model's. -/
def Obligations.LzwDecodeRunsCodes : Prop :=
  ∀ s : State, s.caps.legal → passes .lzwDecode s →
    ∃ u, LzwRuns (payload s) (lzwStart s) u ∧ exec .lzwDecode s = .next (lzwClosed u)

/-- R149: a run of LZW.DECODE ends in exactly one of four ways, and `TRUNC` is as the finish computes it; `OUT_POS` and `BITPOS`
stay within their bounds (R27, R64). -/
def Obligations.LzwRunEnds : Prop :=
  ∀ s : State, s.caps.legal → passes .lzwDecode s →
    ∃ t, exec .lzwDecode s = .next t ∧ t.status.done = true ∧ t.status.busy = false ∧
      [t.status.eoi, t.status.exhausted, t.status.overrun, t.status.err].count true = 1 ∧
      (t.status.err = true → t.status.errcode = 5#8) ∧
      t.status.trunc =
        (!t.status.err && (t.status.exhausted || decide (t.lzw.outPos.toNat < s.op.outLen.toNat))) ∧
      t.lzw.outPos.toNat ≤ s.op.outLen.toNat ∧ t.lzw.bitPos.toNat ≤ 8 * s.op.inLen.toNat ∧
      2 ≤ t.lzw.curSize.toNat ∧ t.lzw.curSize.toNat ≤ 12 ∧
      2 ^ s.op.lzwMincs.toNat + 2 ≤ t.lzw.nextCode.toNat ∧ t.lzw.nextCode.toNat ≤ 4096

/-- R150, R151: two runs with equal `LZW_MINCS`, `IN_LEN`, `OUT_LEN` and equal `IN[0 .. IN_LEN)` give equal result registers, equal
flags and, unless they fault, equal `IDX[0 .. OUT_POS)`, whatever else differs: no other register, no old byte of `IDX`, no
dictionary entry left by an earlier run is read. (After a fault those bytes are unspecified, R324.) -/
def Obligations.LzwRepeatable : Prop :=
  ∀ s1 s2 t1 t2 : State, s1.caps.legal → s2.caps.legal → passes .lzwDecode s1 → passes .lzwDecode s2 →
    s1.op.lzwMincs = s2.op.lzwMincs → s1.op.inLen = s2.op.inLen → s1.op.outLen = s2.op.outLen →
    (∀ i, i < s1.op.inLen.toNat → s1.byte .inb i = s2.byte .inb i) →
    exec .lzwDecode s1 = .next t1 → exec .lzwDecode s2 = .next t2 →
    t1.lzw = t2.lzw ∧ t1.status = t2.status ∧ t1.errinfo = t2.errinfo ∧
    (t1.status.err = false → ∀ i, i < t1.lzw.outPos.toNat → t1.byte .idx i = t2.byte .idx i)

/-! The blitter. -/

/-- R173: without interlace the `k`-th transmitted row is row `k`. R174: the interlaced row order is the four passes one after
another, and is a permutation of the rows. -/
def Obligations.InterlacedRows : Prop :=
  ∀ h : Nat, (∀ k, rowOf false k h = k) ∧ (∀ k, k < h → (rowSequence h)[k]? = some (rowOf true k h)) ∧
    (rowSequence h).Perm (List.range h)

/-- R171 to R180: BLIT.GIF on operands it accepts and an index stream that keeps the palette bound paints the pixels `BLIT_CTL`
selects, changes nothing else and ends normally. R177, R181: when an index breaks the bound, it raises `E_PAL_INDEX` with
`ERRINFO` the first such stream position; only bytes of the frame rectangle can change. -/
def Obligations.BlitGifPaints : Prop :=
  (∀ s : State, passes .blitGif s → (∀ i, i < indexCount s → ¬ indexBad (blitMode s) s i) →
    ∃ t, exec .blitGif s = .next t ∧ painted (blitMode s) (ended s) t) ∧
  (∀ (s : State) (n : Nat), passes .blitGif s → n < indexCount s → indexBad (blitMode s) s n →
    (∀ i, i < n → ¬ indexBad (blitMode s) s i) →
    ∃ t, exec .blitGif s = .next t ∧ t = { faulted s 7#8 n with mem := t.mem, free := t.free } ∧
      sameOutside s t (inCanvasRect s))

/-- R172 to R180, R116: each `BLIT_CTL` value, on operands BLIT.GIF accepts and an index stream that keeps the palette bound,
paints the pixels its selections give and changes nothing else. -/
def Obligations.ControlValuesBlit : Prop :=
  ∀ s : State, passes .blitGif s → ∀ im ∈ controlBlits s, (∀ i, i < indexCount s → ¬ indexBad im.2 s i) →
    ∃ t, exec im.1 s = .next t ∧ painted im.2 s t

/-- R177, R181: when an index breaks the palette bound, the blit raises `E_PAL_INDEX` with `ERRINFO` the first such stream
position; only bytes of the frame rectangle can change. -/
def Obligations.ControlValuesFault : Prop :=
  ∀ (s : State) (n : Nat), ∀ im ∈ controlBlits s, n < indexCount s → indexBad im.2 s n →
    (∀ i, i < n → ¬ indexBad im.2 s i) →
    ∃ t, exec im.1 s = .next t ∧ t = { faulted s 7#8 n with mem := t.mem, free := t.free } ∧
      sameOutside s t (inCanvasRect s)

/-- R170: BLIT.GIF on operands it accepts is the blit of `BLIT_CTL`'s own values, with the status cleared before and `DONE` set
after it unless it faults. -/
def Obligations.BlitGifRunsControls : Prop :=
  ∀ s : State, passes .blitGif s → ∀ site ∈ [Site.rowOrder, Site.transp, Site.order],
    ∃ u, exec (decode site (s.readReg .blitCtl).toNat) (cleared s) = .next u ∧ exec .blitGif s = .next (closed u)

/-! The defilter and the deinterlacer. -/

/-- R198, R205: Paeth returns one of its arguments, the closest to `a + b - c`, ties in the order left, up, upper-left. R197: with
no row above it is the left byte, with nothing to the left the byte above. -/
def Obligations.PaethClosest : Prop :=
  (∀ a b c : Byte,
    let d (x : Byte) : Nat := ((a.toNat : Int) + b.toNat - c.toNat - x.toNat).natAbs
    let r := paeth a b c
    (r = a ∨ r = b ∨ r = c) ∧ d r ≤ d a ∧ d r ≤ d b ∧ d r ≤ d c ∧
      (d a ≤ d b → d a ≤ d c → r = a) ∧ ((d b < d a ∨ d c < d a) → d b ≤ d c → r = b) ∧
      ((d b < d a ∨ d c < d a) → d c < d b → r = c)) ∧
  (∀ a : Byte, paeth a a a = a) ∧ (∀ a : Byte, paeth a 0#8 0#8 = a) ∧ (∀ b : Byte, paeth 0#8 b 0#8 = b)

/-- R192 to R197, R202: a filter tag reconstructs its row, byte by byte, from the filtered bytes, the bytes to the left and the
row above, and changes nothing else; a row the image does not have is left alone (log entry 9). -/
def Obligations.FilterTagsReconstruct : Prop :=
  ∀ (s : State) (y : Nat), ∀ it ∈ tagInstrs y,
    (y < imageH s →
      ∃ t, exec it.1 s = .next t ∧ onlyMem s t ∧
        (∀ x, x < imageRow s →
          reconstructed it.2 (s.byte .filt (y * (1 + imageRow s) + 1 + x)) (leftDistance s) (rawRows t (imageRow s)) y x) ∧
        sameOutside s t (fun sp a => sp = .raw ∧ y * imageRow s ≤ a ∧ a < y * imageRow s + imageRow s)) ∧
    (imageH s ≤ y → exec it.1 s = .next s)

/-- R199: a reserved tag raises `E_FILTER_TAG` with `ERRINFO` the index in `FILT` of the row's tag byte; only bytes of the image
in `RAW` can change, `FILT_USED` does not. -/
def Obligations.FilterTagReserved : Prop :=
  ∀ (s : State) (tag : Byte) (y : Nat), ∃ t, exec (.filtReserved tag y) s = .next t ∧
    t = { faulted s 6#8 (y * (1 + imageRow s)) with mem := t.mem, free := t.free } ∧
    sameOutside s t (fun sp a => sp = .raw ∧ a < imageH s * imageRow s)

/-- R190 to R197, R200, R203: DEFILTER.RUN on operands it accepts, enough bytes and legal tags leaves in `RAW` the reconstruction of
`FILT`, in `FILT_USED` the bytes consumed, and changes nothing else. -/
def Obligations.DefilterReconstructs : Prop :=
  ∀ s : State, passes .defilterRun s → plainNeed s ≤ s.op.filtLen.toNat →
    (∀ y, y < imageH s → (s.byte .filt (y * (1 + imageRow s))).toNat ≤ 4) →
    ∃ t, exec .defilterRun s = .next t ∧
      t = { ended s with mem := t.mem, filtUsed := t.filtUsed } ∧ t.filtUsed.toNat = plainNeed s ∧
      reconstructs s 0 (imageH s) (imageRow s) (rawRows t (imageRow s)) ∧
      sameOutside s t (fun sp a => sp = .raw ∧ a < imageH s * imageRow s)

/-- R102, R191: after DEFILTER.RUN, the instruction each row's tag byte decodes to leaves every byte as it is: the command made
of each row what the row's instruction makes of it. -/
def Obligations.DefilterRunsTags : Prop :=
  ∀ (s t : State) (y : Nat), exec .defilterRun s = .next t → t.status.err = false → y < imageH s →
    ∃ u, exec (decode (.tag y) (s.byte .filt (y * (1 + imageRow s))).toNat) t = .next u ∧ onlyMem t u ∧
      ∀ sp a, u.byte sp a = t.byte sp a

/-- R199, R221, R325: with operands accepted and enough bytes, DEFILTER.RUN and ADAM7.RUN report the first reserved tag in their
order of rows (in passes then rows), change only bytes of the image in `RAW`, and not `FILT_USED`. -/
def Obligations.FirstReservedTag : Prop :=
  (∀ (s : State) (y : Nat), passes .defilterRun s → plainNeed s ≤ s.op.filtLen.toNat → y < imageH s →
    (∀ j, j < y → (s.byte .filt (j * (1 + imageRow s))).toNat ≤ 4) →
    5 ≤ (s.byte .filt (y * (1 + imageRow s))).toNat →
    ∃ t, exec .defilterRun s = .next t ∧
      t = { faulted s 6#8 (y * (1 + imageRow s)) with mem := t.mem, free := t.free } ∧
      sameOutside s t (fun sp a => sp = .raw ∧ a < imageH s * imageRow s)) ∧
  (∀ (s : State) (k : Nat) (p : Pass) (j : Nat), passes .adam7Run s → interlacedNeed s ≤ s.op.filtLen.toNat →
    adam7Passes[k]? = some p → passHasRow s p j →
    (∀ k' p' j', adam7Passes[k']? = some p' → passHasRow s p' j' → k' < k ∨ (k' = k ∧ j' < j) →
      (s.byte .filt (passTag s k' p' j')).toNat ≤ 4) →
    5 ≤ (s.byte .filt (passTag s k p j)).toNat →
    ∃ t, exec .adam7Run s = .next t ∧
      t = { faulted s 6#8 (passTag s k p j) with mem := t.mem, free := t.free } ∧
      sameOutside s t (fun sp a => sp = .raw ∧ a < imageH s * imageRow s))

/-- R113, R211: the dimensions of a pass count its lattice points inside the image. R220: the seven lattices partition the
pixel grid. -/
def Obligations.AdamPartition : Prop :=
  (∀ (w h : Nat) (p : Pass), p ∈ adam7Passes →
    passW w p = (if p.startCol < w then (w - p.startCol + p.colStep - 1) / p.colStep else 0) ∧
    passH h p = (if p.startRow < h then (h - p.startRow + p.rowStep - 1) / p.rowStep else 0) ∧
    (∀ i, i < passW w p ↔ p.startCol + i * p.colStep < w) ∧ (∀ j, j < passH h p ↔ p.startRow + j * p.rowStep < h)) ∧
  (∀ x y : Nat, ∃ (k : Nat) (p : Pass) (i j : Nat), adam7Passes[k]? = some p ∧ x = p.startCol + i * p.colStep ∧ y = p.startRow + j * p.rowStep ∧
    ∀ (k' : Nat) (p' : Pass) (i' j' : Nat), adam7Passes[k']? = some p' → x = p'.startCol + i' * p'.colStep → y = p'.startRow + j' * p'.rowStep →
      k' = k ∧ i' = i ∧ j' = j)

/-- R210 to R218: ADAM7.RUN on operands it accepts, enough bytes and legal tags reconstructs each pass on its own, puts every
pass pixel at its place in `RAW`, leaves the padding bits of the rows 0, reports the bytes consumed, and changes nothing
else. -/
def Obligations.AdamScatters : Prop :=
  ∀ s : State, passes .adam7Run s → interlacedNeed s ≤ s.op.filtLen.toNat →
    (∀ k p j, adam7Passes[k]? = some p → passHasRow s p j → (s.byte .filt (passTag s k p j)).toNat ≤ 4) →
    ∃ (t : State) (rows : Nat → Nat → Nat → Byte), exec .adam7Run s = .next t ∧
      t = { ended s with mem := t.mem, filtUsed := t.filtUsed } ∧ t.filtUsed.toNat = interlacedNeed s ∧
      (∀ k p, adam7Passes[k]? = some p →
        (0 < passW (imageW s) p →
          reconstructs s (passOffset s k) (passH (imageH s) p) (rowLen (pixelBits s) (passW (imageW s) p)) (rows k)) ∧
        (∀ i j, i < passW (imageW s) p → j < passH (imageH s) p →
          pixelCopied s t (rows k j) i (p.startCol + i * p.colStep) (p.startRow + j * p.rowStep))) ∧
      (∀ y, y < imageH s →
        (t.byte .raw (y * imageRow s + imageRow s - 1)).toNat % 2 ^ (8 * imageRow s - imageW s * pixelBits s) = 0) ∧
      sameOutside s t (fun sp a => sp = .raw ∧ a < imageH s * imageRow s)

/-! The unpacker. -/

/-- R230, R231: UNPACK.IDX on operands it accepts writes the index of every pixel, zero-extended, and changes nothing else. -/
def Obligations.UnpackIndices : Prop :=
  ∀ s : State, passes .unpackIdx s →
    ∃ t, exec .unpackIdx s = .next t ∧ t = { ended s with mem := t.mem } ∧
      (∀ x y, x < imageW s → y < imageH s → (t.byte .idx (y * imageW s + x)).toNat = rawIndex s x y) ∧
      sameOutside s t (fun sp a => sp = .idx ∧ a < imageW s * imageH s)

/-- R241, R243, R244: `CTYPE` = Gray expands every pixel to its scaled sample three times and the alpha of the key comparison. -/
def Obligations.GrayPixels : Prop :=
  ∀ s : State, s.op.depth.toNat ∈ [1, 2, 4, 8, 16] →
    ∃ t, exec .ctypeGray s = .next t ∧ expanded s t (fun x y =>
      let v := rawSample s 1 x y 0
      let g := BitVec.ofNat 8 (if s.op.depth.toNat = 16 then v / 256 else v * (255 / (2 ^ s.op.depth.toNat - 1)))
      [g, g, g, keyAlpha (s.op.keyEn && v == s.op.trnsK0.toNat)])

/-- R238 to R240, R242, R243, R245: the straight copies of RGB, GrayAlpha and RGBA at depths 8 and 16. -/
def Obligations.DirectColourPixels : Prop :=
  ∀ s : State, s.op.depth.toNat ∈ [8, 16] →
    (∃ t, exec .ctypeRgb s = .next t ∧ expanded s t (fun x y =>
      let v := rawSample s 3 x y
      [copied s (v 0), copied s (v 1), copied s (v 2),
        keyAlpha (s.op.keyEn && v 0 == s.op.trnsK0.toNat && v 1 == s.op.trnsK1.toNat && v 2 == s.op.trnsK2.toNat)])) ∧
    (∃ t, exec .ctypeGrayAlpha s = .next t ∧ expanded s t (fun x y =>
      let v := rawSample s 2 x y
      [copied s (v 0), copied s (v 0), copied s (v 0), copied s (v 1)])) ∧
    (∃ t, exec .ctypeRgba s = .next t ∧ expanded s t (fun x y =>
      let v := rawSample s 4 x y
      [copied s (v 0), copied s (v 1), copied s (v 2), copied s (v 3)]))

/-- R237: `CTYPE` = Palette maps every index through `PAL`, with alpha from `TRNSA` below `TRNS_LEN` and 255 above. R247: if an
index is at or above `PAL_LEN`, `E_PAL_INDEX` with the smallest such pixel number; only bytes of the image in `PIX` can
change. -/
def Obligations.PalettePixels : Prop :=
  (∀ s : State, (∀ x y, x < imageW s → y < imageH s → rawIndex s x y < s.op.palLen.toNat) →
    ∃ t, exec .ctypePalette s = .next t ∧ expanded s t (fun x y =>
      let v := rawIndex s x y
      [(s.palAt v).r, (s.palAt v).g, (s.palAt v).b, if v < s.op.trnsLen.toNat then s.trnsaAt v else 255#8])) ∧
  (∀ (s : State) (x y : Nat), x < imageW s → y < imageH s → s.op.palLen.toNat ≤ rawIndex s x y →
    (∀ x' y', x' < imageW s → y' < imageH s → y' * imageW s + x' < y * imageW s + x →
      rawIndex s x' y' < s.op.palLen.toNat) →
    ∃ t, exec .ctypePalette s = .next t ∧
      t = { faulted s 7#8 (y * imageW s + x) with mem := t.mem, free := t.free } ∧ sameOutside s t (inPix s))

/-- R107, R273: the reserved values of `CTYPE` and of `DISPOSE` raise `E_PARAM` with the register's number and change nothing
else. -/
def Obligations.ReservedValues : Prop :=
  (∀ (s : State) (v : BitVec 3), exec (.ctypeReserved v) s = .next (faulted s 2#8 13)) ∧
  (∀ (s : State) (phase : DisposePhase), exec (.disposeReserved phase) s = .next (faulted s 2#8 30))

/-- R235: UNPACK.RGBA on operands it accepts is the expansion by the colour type `CTYPE` holds, with the status cleared before
and `DONE` set after it unless it faults. -/
def Obligations.UnpackRgbaRunsCtype : Prop :=
  ∀ s : State, passes .unpackRgba s →
    ∃ u, exec (decode .ctype (s.readReg .ctype).toNat) (cleared s) = .next u ∧ exec .unpackRgba s = .next (closed u)

/-! The compositor. -/

/-- R260: COMP.RESET on operands it accepts zeroes the canvas, sets `COMP_FRAME` to 0 and `COMP_READY` to 1, and changes nothing
else. -/
def Obligations.CompResetEffect : Prop :=
  ∀ s : State, passes .compReset s →
    ∃ t, exec .compReset s = .next t ∧ t = { ended s with mem := t.mem, compFrame := 0#32, compReady := true } ∧
      (∀ a, a < canvasSize s → t.byte .canvas a = 0#8) ∧
      sameOutside s t (fun sp a => sp = .canvas ∧ a < canvasSize s)

/-- R266: `over` in integers, exactly: no quotient leaves 0 to 255. R267: its special cases. -/
def Obligations.OverFormula : Prop :=
  (∀ rf gf bf af rb gb bb ab : Byte,
    let n := 255 * af.toNat + ab.toNat * (255 - af.toNat)
    let chan (cf cb : Byte) := (255 * cf.toNat * af.toNat + cb.toNat * ab.toNat * (255 - af.toNat)) / n
    let out := (overPixel [rf, gf, bf, af] [rb, gb, bb, ab]).map BitVec.toNat
    (n = 0 → out = [0, 0, 0, 0]) ∧ (n ≠ 0 → out = [chan rf rb, chan gf gb, chan bf bb, n / 255])) ∧
  (∀ (rf gf bf : Byte) (d : List Byte), overPixel [rf, gf, bf, 255#8] d = [rf, gf, bf, 255#8]) ∧
  (∀ rf gf bf rb gb bb ab : Byte, ab ≠ 0#8 → overPixel [rf, gf, bf, 0#8] [rb, gb, bb, ab] = [rb, gb, bb, ab]) ∧
  (∀ rf gf bf rb gb bb : Byte, overPixel [rf, gf, bf, 0#8] [rb, gb, bb, 0#8] = [0#8, 0#8, 0#8, 0#8]) ∧
  (∀ rf gf bf af rb gb bb : Byte, af ≠ 0#8 → overPixel [rf, gf, bf, af] [rb, gb, bb, 0#8] = [rf, gf, bf, af])

/-- R264, R266, R281: the blend values, on a rectangle whose columns lie inside the canvas: `Source` overwrites, `Over`
composites each pixel with its old value, but on frame 0 `Over` is `Source`; nothing else changes. -/
def Obligations.BlendValues : Prop :=
  ∀ s : State, rectFits s →
    (∃ t, exec .blendSource s = .next t ∧ blended false s t) ∧
    (∃ t, exec .blendOver s = .next t ∧ blended (decide (s.compFrame ≠ 0#32)) s t)

/-- R270 to R272: what each dispose value does before the blend and after the visible canvas is taken. -/
def Obligations.DisposeValues : Prop :=
  (∀ (s : State) (phase : DisposePhase), exec (.disposeNone phase) s = .next s) ∧
  (∀ s : State, exec (.disposeClearToBackground .beforeBlend) s = .next s) ∧
  (∀ s : State, ∃ t, exec (.disposeClearToBackground .afterVisible) s = .next t ∧ onlyMem s t ∧
    (∀ a, inRect s a → t.byte .canvas a = 0#8) ∧ sameOutside s t (inCanvasRect s)) ∧
  (∀ s : State, ∃ t, exec (.disposeRestoreToPrevious .beforeBlend) s = .next t ∧ onlyMem s t ∧
    (∀ a, a < canvasSize s → t.byte .snap a = s.byte .canvas a) ∧
    sameOutside s t (fun sp a => sp = .snap ∧ a < canvasSize s)) ∧
  (∀ s : State, ∃ t, exec (.disposeRestoreToPrevious .afterVisible) s = .next t ∧ onlyMem s t ∧
    (∀ a, a < canvasSize s → t.byte .canvas a = s.byte .snap a) ∧
    sameOutside s t (fun sp a => sp = .canvas ∧ a < canvasSize s))

/-- R261, R264, R266, R269 to R272, R275, R277, R281: COMP.FRAME on operands it accepts. `VIS` is the canvas with the frame blended into the
rectangle (frame 0 with `Source`); `CANVAS` is then that, or that with the rectangle zeroed, or what it was; `SNAP` is the
old canvas under `RestoreToPrevious`; `COMP_FRAME` counts up to its limit; nothing else changes. -/
def Obligations.CompFrameEffect : Prop :=
  ∀ s : State, s.compReady = true → passes .compFrame s →
    let isOver := s.op.blend && decide (s.compFrame ≠ 0#32)
    ∃ t, exec .compFrame s = .next t ∧ t = { ended s with mem := t.mem, compFrame := t.compFrame } ∧
      t.compFrame.toNat = min (s.compFrame.toNat + 1) (2 ^ 32 - 1) ∧
      (∀ c r, c < s.op.rectW.toNat → r < s.op.rectH.toNat →
        t.bytes .vis (rectByte s c r) 4 = blendedPix isOver s c r) ∧
      (∀ a, a < canvasSize s → ¬ inRect s a → t.byte .vis a = s.byte .canvas a) ∧
      (s.op.dispose ≠ 2#2 → ∀ a, a < canvasSize s → ¬ (s.op.dispose = 1#2 ∧ inRect s a) →
        t.byte .canvas a = t.byte .vis a) ∧
      (s.op.dispose = 1#2 → ∀ a, inRect s a → t.byte .canvas a = 0#8) ∧
      (s.op.dispose = 2#2 → ∀ a, a < canvasSize s →
        t.byte .canvas a = s.byte .canvas a ∧ t.byte .snap a = s.byte .canvas a) ∧
      sameOutside s t (fun sp a => a < canvasSize s ∧
        (sp = .canvas ∨ sp = .vis ∨ (sp = .snap ∧ s.op.dispose = 2#2)))

/-! The frame delta. -/

/-- R290 to R292, R297: DELTA.BBOX on operands it accepts reports the smallest rectangle that holds every differing pixel, inside
the canvas, or the top-left pixel when there is none; nothing else changes. -/
def Obligations.BoundingBox : Prop :=
  ∀ s : State, passes .deltaBbox s →
    ∃ t, exec .deltaBbox s = .next t ∧ t = { ended s with bbox := t.bbox } ∧
      ((∀ x y, ¬ changedPixel s x y) →
        t.bbox.x.toNat = 0 ∧ t.bbox.y.toNat = 0 ∧ t.bbox.w.toNat = 1 ∧ t.bbox.h.toNat = 1) ∧
      (∀ x y, changedPixel s x y →
        t.bbox.x.toNat ≤ x ∧ x < t.bbox.x.toNat + t.bbox.w.toNat ∧
        t.bbox.y.toNat ≤ y ∧ y < t.bbox.y.toNat + t.bbox.h.toNat) ∧
      ((∃ x y, changedPixel s x y) →
        (∃ y, changedPixel s t.bbox.x.toNat y) ∧ (∃ y, changedPixel s (t.bbox.x.toNat + t.bbox.w.toNat - 1) y) ∧
        (∃ x, changedPixel s x t.bbox.y.toNat) ∧ (∃ x, changedPixel s x (t.bbox.y.toNat + t.bbox.h.toNat - 1))) ∧
      t.bbox.x.toNat + t.bbox.w.toNat ≤ s.op.canvasW.toNat ∧ t.bbox.y.toNat + t.bbox.h.toNat ≤ s.op.canvasH.toNat

/-- R293: DELTA.BLEND on operands it accepts selects `Source` exactly when some changed pixel of the rectangle has a new alpha
below `T_ALPHA` over an opaque destination; nothing else changes. -/
def Obligations.BlendSelection : Prop :=
  ∀ s : State, passes .deltaBlend s →
    ∃ t, exec .deltaBlend s = .next t ∧ t = { ended s with blendSel := t.blendSel } ∧
      (t.blendSel = false ↔
        ∃ x y, s.op.rectX.toNat ≤ x ∧ x < s.op.rectX.toNat + s.op.rectW.toNat ∧
          s.op.rectY.toNat ≤ y ∧ y < s.op.rectY.toNat + s.op.rectH.toNat ∧ pixelDiffers s x y ∧
          (s.byte .da (4 * (y * s.op.canvasW.toNat + x) + 3)).toNat < s.op.tAlpha.toNat ∧
          s.byte .db (4 * (y * s.op.canvasW.toNat + x) + 3) = 255#8)
end

