-- ==== Sys2Proof/Laws/State.lean ====
section
/-! SUPPORT. One lemma per field per named update of the state, each true by computation, so that no later proof unfolds a
record update. -/

namespace Sys2Proof.Machine

/-! Buffers. -/

@[simp] theorem Memory.buf_setBuf_same (m : Memory) (sp : Space) (t : Table Byte) : (m.setBuf sp t).buf sp = t := by
  cases sp <;> rfl

theorem Memory.buf_setBuf_other (m : Memory) {sp sq : Space} (t : Table Byte) (h : sq ≠ sp) :
    (m.setBuf sp t).buf sq = m.buf sq := by
  cases sp <;> cases sq <;> first | rfl | exact absurd rfl h

/-! `State.setBuf`. -/

@[simp] theorem State.setBuf_op (s : State) (sp : Space) (t : Table Byte) : (s.setBuf sp t).op = s.op := rfl
@[simp] theorem State.setBuf_status (s : State) (sp : Space) (t : Table Byte) :
    (s.setBuf sp t).status = s.status := rfl
@[simp] theorem State.setBuf_errinfo (s : State) (sp : Space) (t : Table Byte) :
    (s.setBuf sp t).errinfo = s.errinfo := rfl
@[simp] theorem State.setBuf_lzw (s : State) (sp : Space) (t : Table Byte) : (s.setBuf sp t).lzw = s.lzw := rfl
@[simp] theorem State.setBuf_compFrame (s : State) (sp : Space) (t : Table Byte) :
    (s.setBuf sp t).compFrame = s.compFrame := rfl
@[simp] theorem State.setBuf_bbox (s : State) (sp : Space) (t : Table Byte) : (s.setBuf sp t).bbox = s.bbox := rfl
@[simp] theorem State.setBuf_blendSel (s : State) (sp : Space) (t : Table Byte) :
    (s.setBuf sp t).blendSel = s.blendSel := rfl
@[simp] theorem State.setBuf_filtUsed (s : State) (sp : Space) (t : Table Byte) :
    (s.setBuf sp t).filtUsed = s.filtUsed := rfl
@[simp] theorem State.setBuf_compReady (s : State) (sp : Space) (t : Table Byte) :
    (s.setBuf sp t).compReady = s.compReady := rfl
@[simp] theorem State.setBuf_dict (s : State) (sp : Space) (t : Table Byte) : (s.setBuf sp t).dict = s.dict := rfl
@[simp] theorem State.setBuf_pal (s : State) (sp : Space) (t : Table Byte) : (s.setBuf sp t).pal = s.pal := rfl
@[simp] theorem State.setBuf_trnsa (s : State) (sp : Space) (t : Table Byte) : (s.setBuf sp t).trnsa = s.trnsa := rfl
@[simp] theorem State.setBuf_mem (s : State) (sp : Space) (t : Table Byte) :
    (s.setBuf sp t).mem = s.mem.setBuf sp t := rfl
@[simp] theorem State.setBuf_caps (s : State) (sp : Space) (t : Table Byte) : (s.setBuf sp t).caps = s.caps := rfl
@[simp] theorem State.setBuf_host (s : State) (sp : Space) (t : Table Byte) : (s.setBuf sp t).host = s.host := rfl
@[simp] theorem State.setBuf_epoch (s : State) (sp : Space) (t : Table Byte) : (s.setBuf sp t).epoch = s.epoch := rfl
@[simp] theorem State.setBuf_free (s : State) (sp : Space) (t : Table Byte) : (s.setBuf sp t).free = s.free := rfl

/-! `State.write`. -/

@[simp] theorem State.write_op (s : State) (sp : Space) (i : Nat) (bs : List Byte) :
    (s.write sp i bs).op = s.op := rfl
@[simp] theorem State.write_status (s : State) (sp : Space) (i : Nat) (bs : List Byte) :
    (s.write sp i bs).status = s.status := rfl
@[simp] theorem State.write_errinfo (s : State) (sp : Space) (i : Nat) (bs : List Byte) :
    (s.write sp i bs).errinfo = s.errinfo := rfl
@[simp] theorem State.write_lzw (s : State) (sp : Space) (i : Nat) (bs : List Byte) :
    (s.write sp i bs).lzw = s.lzw := rfl
@[simp] theorem State.write_compFrame (s : State) (sp : Space) (i : Nat) (bs : List Byte) :
    (s.write sp i bs).compFrame = s.compFrame := rfl
@[simp] theorem State.write_bbox (s : State) (sp : Space) (i : Nat) (bs : List Byte) :
    (s.write sp i bs).bbox = s.bbox := rfl
@[simp] theorem State.write_blendSel (s : State) (sp : Space) (i : Nat) (bs : List Byte) :
    (s.write sp i bs).blendSel = s.blendSel := rfl
@[simp] theorem State.write_filtUsed (s : State) (sp : Space) (i : Nat) (bs : List Byte) :
    (s.write sp i bs).filtUsed = s.filtUsed := rfl
@[simp] theorem State.write_compReady (s : State) (sp : Space) (i : Nat) (bs : List Byte) :
    (s.write sp i bs).compReady = s.compReady := rfl
@[simp] theorem State.write_dict (s : State) (sp : Space) (i : Nat) (bs : List Byte) :
    (s.write sp i bs).dict = s.dict := rfl
@[simp] theorem State.write_pal (s : State) (sp : Space) (i : Nat) (bs : List Byte) :
    (s.write sp i bs).pal = s.pal := rfl
@[simp] theorem State.write_trnsa (s : State) (sp : Space) (i : Nat) (bs : List Byte) :
    (s.write sp i bs).trnsa = s.trnsa := rfl
@[simp] theorem State.write_mem (s : State) (sp : Space) (i : Nat) (bs : List Byte) :
    (s.write sp i bs).mem = s.mem.setBuf sp (tablePut (s.mem.buf sp) i bs) := rfl
@[simp] theorem State.write_caps (s : State) (sp : Space) (i : Nat) (bs : List Byte) :
    (s.write sp i bs).caps = s.caps := rfl
@[simp] theorem State.write_host (s : State) (sp : Space) (i : Nat) (bs : List Byte) :
    (s.write sp i bs).host = s.host := rfl
@[simp] theorem State.write_epoch (s : State) (sp : Space) (i : Nat) (bs : List Byte) :
    (s.write sp i bs).epoch = s.epoch := rfl
@[simp] theorem State.write_free (s : State) (sp : Space) (i : Nat) (bs : List Byte) :
    (s.write sp i bs).free = s.free := rfl

/-! `State.begin`. -/

@[simp] theorem State.begin_op (s : State) : s.begin.op = s.op := rfl
@[simp] theorem State.begin_status (s : State) : s.begin.status = Status.zero := rfl
@[simp] theorem State.begin_errinfo (s : State) : s.begin.errinfo = 0 := rfl
@[simp] theorem State.begin_lzw (s : State) : s.begin.lzw = s.lzw := rfl
@[simp] theorem State.begin_compFrame (s : State) : s.begin.compFrame = s.compFrame := rfl
@[simp] theorem State.begin_bbox (s : State) : s.begin.bbox = s.bbox := rfl
@[simp] theorem State.begin_blendSel (s : State) : s.begin.blendSel = s.blendSel := rfl
@[simp] theorem State.begin_filtUsed (s : State) : s.begin.filtUsed = s.filtUsed := rfl
@[simp] theorem State.begin_compReady (s : State) : s.begin.compReady = s.compReady := rfl
@[simp] theorem State.begin_dict (s : State) : s.begin.dict = s.dict := rfl
@[simp] theorem State.begin_pal (s : State) : s.begin.pal = s.pal := rfl
@[simp] theorem State.begin_trnsa (s : State) : s.begin.trnsa = s.trnsa := rfl
@[simp] theorem State.begin_mem (s : State) : s.begin.mem = s.mem := rfl
@[simp] theorem State.begin_caps (s : State) : s.begin.caps = s.caps := rfl
@[simp] theorem State.begin_host (s : State) : s.begin.host = s.host := rfl
@[simp] theorem State.begin_epoch (s : State) : s.begin.epoch = s.epoch := rfl
@[simp] theorem State.begin_free (s : State) : s.begin.free = s.free := rfl

/-! `State.finish`. -/

@[simp] theorem State.finish_op (s : State) : s.finish.op = s.op := rfl
@[simp] theorem State.finish_status (s : State) :
    s.finish.status = { s.status with done := true, busy := false } := rfl
@[simp] theorem State.finish_errinfo (s : State) : s.finish.errinfo = s.errinfo := rfl
@[simp] theorem State.finish_lzw (s : State) : s.finish.lzw = s.lzw := rfl
@[simp] theorem State.finish_compFrame (s : State) : s.finish.compFrame = s.compFrame := rfl
@[simp] theorem State.finish_bbox (s : State) : s.finish.bbox = s.bbox := rfl
@[simp] theorem State.finish_blendSel (s : State) : s.finish.blendSel = s.blendSel := rfl
@[simp] theorem State.finish_filtUsed (s : State) : s.finish.filtUsed = s.filtUsed := rfl
@[simp] theorem State.finish_compReady (s : State) : s.finish.compReady = s.compReady := rfl
@[simp] theorem State.finish_dict (s : State) : s.finish.dict = s.dict := rfl
@[simp] theorem State.finish_pal (s : State) : s.finish.pal = s.pal := rfl
@[simp] theorem State.finish_trnsa (s : State) : s.finish.trnsa = s.trnsa := rfl
@[simp] theorem State.finish_mem (s : State) : s.finish.mem = s.mem := rfl
@[simp] theorem State.finish_caps (s : State) : s.finish.caps = s.caps := rfl
@[simp] theorem State.finish_host (s : State) : s.finish.host = s.host := rfl
@[simp] theorem State.finish_epoch (s : State) : s.finish.epoch = s.epoch := rfl
@[simp] theorem State.finish_free (s : State) : s.finish.free = s.free := rfl

/-! `State.raise`. -/

@[simp] theorem State.raise_op (s : State) (e : ErrKind) (info : Nat) : (s.raise e info).op = s.op := rfl
@[simp] theorem State.raise_status (s : State) (e : ErrKind) (info : Nat) :
    (s.raise e info).status = { Status.zero with done := true, err := true, errcode := errCode e } := rfl
@[simp] theorem State.raise_errinfo (s : State) (e : ErrKind) (info : Nat) :
    (s.raise e info).errinfo = BitVec.ofNat 32 info := rfl
@[simp] theorem State.raise_lzw (s : State) (e : ErrKind) (info : Nat) : (s.raise e info).lzw = s.lzw := rfl
@[simp] theorem State.raise_compFrame (s : State) (e : ErrKind) (info : Nat) :
    (s.raise e info).compFrame = s.compFrame := rfl
@[simp] theorem State.raise_bbox (s : State) (e : ErrKind) (info : Nat) : (s.raise e info).bbox = s.bbox := rfl
@[simp] theorem State.raise_blendSel (s : State) (e : ErrKind) (info : Nat) :
    (s.raise e info).blendSel = s.blendSel := rfl
@[simp] theorem State.raise_filtUsed (s : State) (e : ErrKind) (info : Nat) :
    (s.raise e info).filtUsed = s.filtUsed := rfl
@[simp] theorem State.raise_compReady (s : State) (e : ErrKind) (info : Nat) :
    (s.raise e info).compReady = s.compReady := rfl
@[simp] theorem State.raise_dict (s : State) (e : ErrKind) (info : Nat) : (s.raise e info).dict = s.dict := rfl
@[simp] theorem State.raise_pal (s : State) (e : ErrKind) (info : Nat) : (s.raise e info).pal = s.pal := rfl
@[simp] theorem State.raise_trnsa (s : State) (e : ErrKind) (info : Nat) : (s.raise e info).trnsa = s.trnsa := rfl
@[simp] theorem State.raise_mem (s : State) (e : ErrKind) (info : Nat) : (s.raise e info).mem = s.mem := rfl
@[simp] theorem State.raise_caps (s : State) (e : ErrKind) (info : Nat) : (s.raise e info).caps = s.caps := rfl
@[simp] theorem State.raise_host (s : State) (e : ErrKind) (info : Nat) : (s.raise e info).host = s.host := rfl
@[simp] theorem State.raise_epoch (s : State) (e : ErrKind) (info : Nat) : (s.raise e info).epoch = s.epoch := rfl
@[simp] theorem State.raise_free (s : State) (e : ErrKind) (info : Nat) : (s.raise e info).free = s.free := rfl

/-! `State.setEoi`. -/

@[simp] theorem State.setEoi_op (s : State) : s.setEoi.op = s.op := rfl
@[simp] theorem State.setEoi_status (s : State) : s.setEoi.status = { s.status with eoi := true } := rfl
@[simp] theorem State.setEoi_errinfo (s : State) : s.setEoi.errinfo = s.errinfo := rfl
@[simp] theorem State.setEoi_lzw (s : State) : s.setEoi.lzw = s.lzw := rfl
@[simp] theorem State.setEoi_compFrame (s : State) : s.setEoi.compFrame = s.compFrame := rfl
@[simp] theorem State.setEoi_bbox (s : State) : s.setEoi.bbox = s.bbox := rfl
@[simp] theorem State.setEoi_blendSel (s : State) : s.setEoi.blendSel = s.blendSel := rfl
@[simp] theorem State.setEoi_filtUsed (s : State) : s.setEoi.filtUsed = s.filtUsed := rfl
@[simp] theorem State.setEoi_compReady (s : State) : s.setEoi.compReady = s.compReady := rfl
@[simp] theorem State.setEoi_dict (s : State) : s.setEoi.dict = s.dict := rfl
@[simp] theorem State.setEoi_pal (s : State) : s.setEoi.pal = s.pal := rfl
@[simp] theorem State.setEoi_trnsa (s : State) : s.setEoi.trnsa = s.trnsa := rfl
@[simp] theorem State.setEoi_mem (s : State) : s.setEoi.mem = s.mem := rfl
@[simp] theorem State.setEoi_caps (s : State) : s.setEoi.caps = s.caps := rfl
@[simp] theorem State.setEoi_host (s : State) : s.setEoi.host = s.host := rfl
@[simp] theorem State.setEoi_epoch (s : State) : s.setEoi.epoch = s.epoch := rfl
@[simp] theorem State.setEoi_free (s : State) : s.setEoi.free = s.free := rfl

/-! `State.setExhausted`. -/

@[simp] theorem State.setExhausted_op (s : State) : s.setExhausted.op = s.op := rfl
@[simp] theorem State.setExhausted_status (s : State) :
    s.setExhausted.status = { s.status with exhausted := true } := rfl
@[simp] theorem State.setExhausted_errinfo (s : State) : s.setExhausted.errinfo = s.errinfo := rfl
@[simp] theorem State.setExhausted_lzw (s : State) : s.setExhausted.lzw = s.lzw := rfl
@[simp] theorem State.setExhausted_compFrame (s : State) : s.setExhausted.compFrame = s.compFrame := rfl
@[simp] theorem State.setExhausted_bbox (s : State) : s.setExhausted.bbox = s.bbox := rfl
@[simp] theorem State.setExhausted_blendSel (s : State) : s.setExhausted.blendSel = s.blendSel := rfl
@[simp] theorem State.setExhausted_filtUsed (s : State) : s.setExhausted.filtUsed = s.filtUsed := rfl
@[simp] theorem State.setExhausted_compReady (s : State) : s.setExhausted.compReady = s.compReady := rfl
@[simp] theorem State.setExhausted_dict (s : State) : s.setExhausted.dict = s.dict := rfl
@[simp] theorem State.setExhausted_pal (s : State) : s.setExhausted.pal = s.pal := rfl
@[simp] theorem State.setExhausted_trnsa (s : State) : s.setExhausted.trnsa = s.trnsa := rfl
@[simp] theorem State.setExhausted_mem (s : State) : s.setExhausted.mem = s.mem := rfl
@[simp] theorem State.setExhausted_caps (s : State) : s.setExhausted.caps = s.caps := rfl
@[simp] theorem State.setExhausted_host (s : State) : s.setExhausted.host = s.host := rfl
@[simp] theorem State.setExhausted_epoch (s : State) : s.setExhausted.epoch = s.epoch := rfl
@[simp] theorem State.setExhausted_free (s : State) : s.setExhausted.free = s.free := rfl

/-! `State.setOverrun`. -/

@[simp] theorem State.setOverrun_op (s : State) : s.setOverrun.op = s.op := rfl
@[simp] theorem State.setOverrun_status (s : State) : s.setOverrun.status = { s.status with overrun := true } := rfl
@[simp] theorem State.setOverrun_errinfo (s : State) : s.setOverrun.errinfo = s.errinfo := rfl
@[simp] theorem State.setOverrun_lzw (s : State) : s.setOverrun.lzw = s.lzw := rfl
@[simp] theorem State.setOverrun_compFrame (s : State) : s.setOverrun.compFrame = s.compFrame := rfl
@[simp] theorem State.setOverrun_bbox (s : State) : s.setOverrun.bbox = s.bbox := rfl
@[simp] theorem State.setOverrun_blendSel (s : State) : s.setOverrun.blendSel = s.blendSel := rfl
@[simp] theorem State.setOverrun_filtUsed (s : State) : s.setOverrun.filtUsed = s.filtUsed := rfl
@[simp] theorem State.setOverrun_compReady (s : State) : s.setOverrun.compReady = s.compReady := rfl
@[simp] theorem State.setOverrun_dict (s : State) : s.setOverrun.dict = s.dict := rfl
@[simp] theorem State.setOverrun_pal (s : State) : s.setOverrun.pal = s.pal := rfl
@[simp] theorem State.setOverrun_trnsa (s : State) : s.setOverrun.trnsa = s.trnsa := rfl
@[simp] theorem State.setOverrun_mem (s : State) : s.setOverrun.mem = s.mem := rfl
@[simp] theorem State.setOverrun_caps (s : State) : s.setOverrun.caps = s.caps := rfl
@[simp] theorem State.setOverrun_host (s : State) : s.setOverrun.host = s.host := rfl
@[simp] theorem State.setOverrun_epoch (s : State) : s.setOverrun.epoch = s.epoch := rfl
@[simp] theorem State.setOverrun_free (s : State) : s.setOverrun.free = s.free := rfl

/-! `State.forget`. -/

@[simp] theorem State.forget_op (s : State) (sp : Space) (i n : Nat) : (s.forget sp i n).op = s.op := rfl
@[simp] theorem State.forget_status (s : State) (sp : Space) (i n : Nat) : (s.forget sp i n).status = s.status := rfl
@[simp] theorem State.forget_errinfo (s : State) (sp : Space) (i n : Nat) :
    (s.forget sp i n).errinfo = s.errinfo := rfl
@[simp] theorem State.forget_lzw (s : State) (sp : Space) (i n : Nat) : (s.forget sp i n).lzw = s.lzw := rfl
@[simp] theorem State.forget_compFrame (s : State) (sp : Space) (i n : Nat) :
    (s.forget sp i n).compFrame = s.compFrame := rfl
@[simp] theorem State.forget_bbox (s : State) (sp : Space) (i n : Nat) : (s.forget sp i n).bbox = s.bbox := rfl
@[simp] theorem State.forget_blendSel (s : State) (sp : Space) (i n : Nat) :
    (s.forget sp i n).blendSel = s.blendSel := rfl
@[simp] theorem State.forget_filtUsed (s : State) (sp : Space) (i n : Nat) :
    (s.forget sp i n).filtUsed = s.filtUsed := rfl
@[simp] theorem State.forget_compReady (s : State) (sp : Space) (i n : Nat) :
    (s.forget sp i n).compReady = s.compReady := rfl
@[simp] theorem State.forget_dict (s : State) (sp : Space) (i n : Nat) : (s.forget sp i n).dict = s.dict := rfl
@[simp] theorem State.forget_pal (s : State) (sp : Space) (i n : Nat) : (s.forget sp i n).pal = s.pal := rfl
@[simp] theorem State.forget_trnsa (s : State) (sp : Space) (i n : Nat) : (s.forget sp i n).trnsa = s.trnsa := rfl
@[simp] theorem State.forget_mem (s : State) (sp : Space) (i n : Nat) :
    (s.forget sp i n).mem =
      s.mem.setBuf sp (tablePut (s.mem.buf sp) i ((List.range' i n).map (Config.afterFault s.free))) := rfl
@[simp] theorem State.forget_caps (s : State) (sp : Space) (i n : Nat) : (s.forget sp i n).caps = s.caps := rfl
@[simp] theorem State.forget_host (s : State) (sp : Space) (i n : Nat) : (s.forget sp i n).host = s.host := rfl
@[simp] theorem State.forget_epoch (s : State) (sp : Space) (i n : Nat) : (s.forget sp i n).epoch = s.epoch := rfl
@[simp] theorem State.forget_free (s : State) (sp : Space) (i n : Nat) : (s.forget sp i n).free = s.free + 1 := rfl

/-! `State.complete`: only `STATUS` can change. -/

@[simp] theorem State.complete_op (s : State) : s.complete.op = s.op := by
  unfold State.complete; split <;> rfl
theorem State.complete_status (s : State) :
    s.complete.status = if s.status.err then s.status else { s.status with done := true, busy := false } := by
  unfold State.complete; split <;> rfl
@[simp] theorem State.complete_errinfo (s : State) : s.complete.errinfo = s.errinfo := by
  unfold State.complete; split <;> rfl
@[simp] theorem State.complete_lzw (s : State) : s.complete.lzw = s.lzw := by
  unfold State.complete; split <;> rfl
@[simp] theorem State.complete_compFrame (s : State) : s.complete.compFrame = s.compFrame := by
  unfold State.complete; split <;> rfl
@[simp] theorem State.complete_bbox (s : State) : s.complete.bbox = s.bbox := by
  unfold State.complete; split <;> rfl
@[simp] theorem State.complete_blendSel (s : State) : s.complete.blendSel = s.blendSel := by
  unfold State.complete; split <;> rfl
@[simp] theorem State.complete_filtUsed (s : State) : s.complete.filtUsed = s.filtUsed := by
  unfold State.complete; split <;> rfl
@[simp] theorem State.complete_compReady (s : State) : s.complete.compReady = s.compReady := by
  unfold State.complete; split <;> rfl
@[simp] theorem State.complete_dict (s : State) : s.complete.dict = s.dict := by
  unfold State.complete; split <;> rfl
@[simp] theorem State.complete_pal (s : State) : s.complete.pal = s.pal := by
  unfold State.complete; split <;> rfl
@[simp] theorem State.complete_trnsa (s : State) : s.complete.trnsa = s.trnsa := by
  unfold State.complete; split <;> rfl
@[simp] theorem State.complete_mem (s : State) : s.complete.mem = s.mem := by
  unfold State.complete; split <;> rfl
@[simp] theorem State.complete_caps (s : State) : s.complete.caps = s.caps := by
  unfold State.complete; split <;> rfl
@[simp] theorem State.complete_host (s : State) : s.complete.host = s.host := by
  unfold State.complete; split <;> rfl
@[simp] theorem State.complete_epoch (s : State) : s.complete.epoch = s.epoch := by
  unfold State.complete; split <;> rfl
@[simp] theorem State.complete_free (s : State) : s.complete.free = s.free := by
  unfold State.complete; split <;> rfl

end Sys2Proof.Machine
end

