-- ==== Sys2Proof/Laws/Table.lean ====
section
/-! SUPPORT. Sparse tables: what a lookup gives after a write, and that a write keeps the canonical form. -/

namespace Sys2Proof.Machine

variable {α : Type}

theorem tableGet_append (t u : Table α) (k : Nat) :
    tableGet (t ++ u) k = (tableGet t k).or (tableGet u k) := by
  induction t with
  | nil => simp [tableGet]
  | cons e t ih =>
    obtain ⟨a, v⟩ := e
    by_cases h : a = k <;> simp [tableGet, h, ih]

theorem tableGet_filter (p : Nat → Bool) (t : Table α) (k : Nat) :
    tableGet (t.filter fun e => p e.1) k = if p k then tableGet t k else none := by
  induction t with
  | nil => simp [tableGet]
  | cons e t ih =>
    obtain ⟨a, v⟩ := e
    by_cases ha : a = k
    · subst ha
      by_cases hp : p a <;> simp [tableGet, hp, ih]
    · by_cases hp : p a <;> simp [tableGet, hp, ih, ha]

theorem tableGet_run (k : Nat) (vs : List α) (j : Nat) :
    tableGet ((List.range' k vs.length).zip vs) j = if k ≤ j then vs[j - k]? else none := by
  induction vs generalizing k with
  | nil => simp [tableGet]
  | cons v vs ih =>
    simp only [List.length_cons, List.range'_succ, List.zip_cons_cons, tableGet, ih]
    by_cases h : k = j
    · subst h; simp
    · by_cases hle : k ≤ j
      · have h1 : k + 1 ≤ j := by omega
        have h2 : j - k = j - (k + 1) + 1 := by omega
        simp [h, hle, h1, h2]
      · have h1 : ¬ k + 1 ≤ j := by omega
        simp [h, hle, h1]

/-- A lookup after a write: the written value inside the run, the old entry outside it. -/
theorem tableGet_tablePut (t : Table α) (k : Nat) (vs : List α) (j : Nat) :
    tableGet (tablePut t k vs) j =
      if k ≤ j ∧ j < k + vs.length then vs[j - k]? else tableGet t j := by
  unfold tablePut
  rw [tableGet_append, tableGet_append, tableGet_run,
    tableGet_filter (fun a => decide (a < k)), tableGet_filter (fun a => decide (k + vs.length ≤ a))]
  by_cases h1 : k ≤ j
  · by_cases h2 : j < k + vs.length
    · have h3 : ¬ j < k := by omega
      have h4 : ¬ k + vs.length ≤ j := by omega
      simp [h1, h2, h3, h4]
    · have h3 : ¬ j < k := by omega
      have h4 : k + vs.length ≤ j := by omega
      have h5 : vs[j - k]? = none := List.getElem?_eq_none (by omega)
      simp [h1, h2, h3, h4, h5]
  · have h3 : j < k := by omega
    have h4 : ¬ k + vs.length ≤ j := by omega
    simp [h1, h3, h4]

theorem tableGet_tablePut_inside (t : Table α) (k : Nat) (vs : List α) (i : Nat) (h : i < vs.length) :
    tableGet (tablePut t k vs) (k + i) = some vs[i] := by
  rw [tableGet_tablePut, if_pos (by omega), Nat.add_sub_cancel_left, List.getElem?_eq_getElem h]

theorem tableGet_tablePut_outside (t : Table α) (k : Nat) (vs : List α) (j : Nat)
    (h : j < k ∨ k + vs.length ≤ j) : tableGet (tablePut t k vs) j = tableGet t j := by
  rw [tableGet_tablePut, if_neg (by omega)]

theorem mem_run (k : Nat) (vs : List α) (e : Nat × α) (h : e ∈ (List.range' k vs.length).zip vs) :
    k ≤ e.1 ∧ e.1 < k + vs.length := by
  have := List.of_mem_zip h
  rw [List.mem_range'_1] at this
  omega

theorem mem_tablePut (t : Table α) (k : Nat) (vs : List α) (e : Nat × α) (h : e ∈ tablePut t k vs) :
    (k ≤ e.1 ∧ e.1 < k + vs.length) ∨ e ∈ t := by
  unfold tablePut at h
  simp only [List.mem_append, List.mem_filter] at h
  rcases h with (h | h) | h
  · exact .inr h.1
  · exact .inl (mem_run k vs e h)
  · exact .inr h.1

theorem map_fst_run (k : Nat) (vs : List α) :
    ((List.range' k vs.length).zip vs).map Prod.fst = List.range' k vs.length := by
  rw [List.map_fst_zip]; simp

/-- A write keeps the canonical form. -/
theorem tableWf_tablePut (t : Table α) (k : Nat) (vs : List α) (h : tableWf t) : tableWf (tablePut t k vs) := by
  have keep (p : Nat → Bool) : ((t.filter fun e => p e.1).map Prod.fst).Pairwise (· < ·) :=
    h.sublist ((List.filter_sublist).map Prod.fst)
  have below {a : Nat} (ha : a ∈ (t.filter fun e => decide (e.1 < k)).map Prod.fst) : a < k := by
    simp only [List.mem_map, List.mem_filter, decide_eq_true_eq] at ha
    obtain ⟨e, he, rfl⟩ := ha
    exact he.2
  have above {a : Nat} (ha : a ∈ (t.filter fun e => decide (k + vs.length ≤ e.1)).map Prod.fst) :
      k + vs.length ≤ a := by
    simp only [List.mem_map, List.mem_filter, decide_eq_true_eq] at ha
    obtain ⟨e, he, rfl⟩ := ha
    exact he.2
  have inside {a : Nat} (ha : a ∈ List.range' k vs.length) : k ≤ a ∧ a < k + vs.length := by
    rw [List.mem_range'_1] at ha; omega
  unfold tablePut tableWf
  rw [List.map_append, List.map_append, map_fst_run]
  refine List.pairwise_append.2 ⟨List.pairwise_append.2 ⟨keep fun a => decide (a < k), ?_, ?_⟩,
    keep fun a => decide (k + vs.length ≤ a), ?_⟩
  · exact List.pairwise_lt_range'
  · intro a ha b hb
    have := below ha; have := inside hb; omega
  · intro a ha b hb
    have hb := above hb
    rcases List.mem_append.1 ha with ha | ha
    · have := below ha; omega
    · have := inside ha; omega

/-- A write inside the first `n` indices keeps every listed index below `n`. -/
theorem tableBelow_tablePut (t : Table α) (k : Nat) (vs : List α) (n : Nat) (h : tableBelow t n)
    (hk : k + vs.length ≤ n) : tableBelow (tablePut t k vs) n := by
  intro e he
  rcases mem_tablePut t k vs e he with h1 | h1
  · omega
  · exact h e h1

/-- Writing nothing changes no lookup. -/
theorem tableGet_tablePut_nil (t : Table α) (k j : Nat) : tableGet (tablePut t k []) j = tableGet t j := by
  rw [tableGet_tablePut_outside]; simp; omega

/-! A run of writes, each made of what it finds: `f t i` writes only where `touch i` says. -/

/-- An index no write touches keeps its entry. -/
theorem tableGet_foldl_untouched {ι : Type} (f : Table α → ι → Table α) (touch : ι → Nat → Prop)
    (hf : ∀ t i a, ¬ touch i a → tableGet (f t i) a = tableGet t a) (l : List ι) (t : Table α) (a : Nat)
    (h : ∀ i ∈ l, ¬ touch i a) : tableGet (l.foldl f t) a = tableGet t a := by
  induction l generalizing t with
  | nil => rfl
  | cons i l ih =>
    rw [List.foldl_cons, ih _ fun j hj => h j (List.mem_cons_of_mem _ hj)]
    exact hf t i a (h i List.mem_cons_self)

/-- The write of `i` decides an index that no other write touches, and finds there what was there at the start. -/
theorem tableGet_foldl_visited {ι : Type} (f : Table α → ι → Table α) (touch : ι → Nat → Prop)
    (hf : ∀ t i a, ¬ touch i a → tableGet (f t i) a = tableGet t a) (l : List ι) (hl : l.Nodup) (t : Table α) (i : ι)
    (hi : i ∈ l) :
    ∃ t', ∀ a, (∀ j ∈ l, j ≠ i → ¬ touch j a) →
      tableGet t' a = tableGet t a ∧ tableGet (l.foldl f t) a = tableGet (f t' i) a := by
  obtain ⟨l1, l2, rfl⟩ := List.append_of_mem hi
  refine ⟨l1.foldl f t, fun a ha => ⟨?_, ?_⟩⟩
  · refine tableGet_foldl_untouched f touch hf l1 t a fun j hj => ha j (by simp [hj]) ?_
    rintro rfl
    exact (List.nodup_append.1 hl).2.2 _ hj _ List.mem_cons_self rfl
  · rw [List.foldl_append, List.foldl_cons]
    refine tableGet_foldl_untouched f touch hf l2 _ a fun j hj => ha j (by simp [hj]) ?_
    rintro rfl
    exact (List.nodup_cons.1 (List.nodup_append.1 hl).2.1).1 hj

/-- A run of writes keeps the canonical form. -/
theorem tableWf_foldl {ι : Type} (f : Table α → ι → Table α) (hf : ∀ t i, tableWf t → tableWf (f t i)) (l : List ι)
    (t : Table α) (h : tableWf t) : tableWf (l.foldl f t) := by
  induction l generalizing t with
  | nil => exact h
  | cons i l ih => exact ih _ (hf t i h)

/-- A run of writes below `n` keeps every listed index below `n`. -/
theorem tableBelow_foldl {ι : Type} (f : Table α → ι → Table α) (n : Nat) (l : List ι)
    (hf : ∀ t, ∀ i ∈ l, tableBelow t n → tableBelow (f t i) n) (t : Table α) (h : tableBelow t n) :
    tableBelow (l.foldl f t) n := by
  induction l generalizing t with
  | nil => exact h
  | cons i l ih =>
    exact ih (fun t j hj => hf t j (List.mem_cons_of_mem _ hj)) _ (hf t i List.mem_cons_self h)

end Sys2Proof.Machine
end

