-- ==== Sys2Proof/Laws/Ops.lean ====
section
/-! SUPPORT. The shared operations: what a read gives after a write, what a command can do, what a fault leaves. -/

namespace Sys2Proof.Machine

/-! Reads after writes. -/

@[simp] theorem State.byte_begin (s : State) (sp : Space) (i : Nat) : s.begin.byte sp i = s.byte sp i := rfl
@[simp] theorem State.byte_finish (s : State) (sp : Space) (i : Nat) : s.finish.byte sp i = s.byte sp i := rfl
@[simp] theorem State.byte_raise (s : State) (e : ErrKind) (n : Nat) (sp : Space) (i : Nat) :
    (s.raise e n).byte sp i = s.byte sp i := rfl
@[simp] theorem State.bytes_begin (s : State) (sp : Space) (i n : Nat) : s.begin.bytes sp i n = s.bytes sp i n := rfl
@[simp] theorem State.complete_byte (s : State) (sp : Space) (i : Nat) : s.complete.byte sp i = s.byte sp i := by
  unfold State.complete; split <;> rfl

@[simp] theorem State.bytes_length (s : State) (sp : Space) (i n : Nat) : (s.bytes sp i n).length = n := by
  simp [State.bytes]

theorem State.bytes_getElem (s : State) (sp : Space) (i n j : Nat) (h : j < (s.bytes sp i n).length) :
    (s.bytes sp i n)[j] = s.byte sp (i + j) := by
  simp [State.bytes]

theorem State.bytes_getD (s : State) (sp : Space) (i n j : Nat) (h : j < n) (d : Byte) :
    (s.bytes sp i n).getD j d = s.byte sp (i + j) := by
  have h' : j < (s.bytes sp i n).length := by simpa using h
  rw [List.getD_eq_getElem?_getD, List.getElem?_eq_getElem h', Option.getD_some, State.bytes_getElem]

/-- Two tables with the same entry at an index read the same there. -/
theorem byteOf_congr (epoch : Nat) (sp : Space) {t u : Table Byte} {i : Nat} (h : tableGet t i = tableGet u i) :
    byteOf epoch sp t i = byteOf epoch sp u i := by
  unfold byteOf; rw [h]

theorem byteOf_tablePut_inside (epoch : Nat) (sp : Space) (t : Table Byte) (k : Nat) (bs : List Byte) (i : Nat)
    (h : i < bs.length) : byteOf epoch sp (tablePut t k bs) (k + i) = bs[i] := by
  unfold byteOf; rw [tableGet_tablePut_inside t k bs i h]; rfl

theorem byteOf_tablePut_outside (epoch : Nat) (sp : Space) (t : Table Byte) (k : Nat) (bs : List Byte) (j : Nat)
    (h : j < k ∨ k + bs.length ≤ j) : byteOf epoch sp (tablePut t k bs) j = byteOf epoch sp t j :=
  byteOf_congr epoch sp (tableGet_tablePut_outside t k bs j h)

theorem State.byte_setBuf_same (s : State) (sp : Space) (t : Table Byte) (j : Nat) :
    (s.setBuf sp t).byte sp j = byteOf s.epoch sp t j := by
  unfold State.byte; simp

theorem State.byte_setBuf_other (s : State) {sp sq : Space} (t : Table Byte) (j : Nat) (h : sq ≠ sp) :
    (s.setBuf sp t).byte sq j = s.byte sq j := by
  unfold State.byte; simp [Memory.buf_setBuf_other _ _ h]

/-- A byte inside a written run. -/
theorem State.byte_write_inside (s : State) (sp : Space) (k : Nat) (bs : List Byte) (i : Nat) (h : i < bs.length) :
    (s.write sp k bs).byte sp (k + i) = bs[i] := by
  unfold State.write
  rw [State.byte_setBuf_same, byteOf_tablePut_inside _ _ _ _ _ _ h]

/-- A byte outside a written run, or of another space (R70, R80). -/
theorem State.byte_write_outside (s : State) (sp : Space) (k : Nat) (bs : List Byte) (sq : Space) (j : Nat)
    (h : sq ≠ sp ∨ j < k ∨ k + bs.length ≤ j) : (s.write sp k bs).byte sq j = s.byte sq j := by
  unfold State.write
  by_cases hs : sq = sp
  · subst hs
    rw [State.byte_setBuf_same, byteOf_tablePut_outside _ _ _ _ _ _ (by tauto)]
    rfl
  · exact State.byte_setBuf_other s _ j hs

/-- A byte outside a forgotten run, or of another space, is unchanged (R324). -/
theorem State.byte_forget_outside (s : State) (sp : Space) (k n : Nat) (sq : Space) (j : Nat)
    (h : sq ≠ sp ∨ j < k ∨ k + n ≤ j) : (s.forget sp k n).byte sq j = s.byte sq j :=
  State.byte_write_outside s sp k ((List.range' k n).map (Config.afterFault s.free)) sq j (by simpa using h)

/-! Canonical form. -/

theorem Memory.wf_iff (m : Memory) : m.wf ↔ ∀ sp, tableWf (m.buf sp) := by
  constructor
  · rintro ⟨h1, h2, h3, h4, h5, h6, h7, h8, h9, h10⟩ sp
    cases sp <;> assumption
  · intro h
    exact ⟨h .inb, h .idx, h .filt, h .raw, h .pix, h .canvas, h .vis, h .snap, h .da, h .db⟩

/-- Replacing a buffer by one in canonical form keeps the memory's canonical form. -/
theorem Memory.wf_setBuf (m : Memory) (sp : Space) (t : Table Byte) (h : m.wf) (ht : tableWf t) :
    (m.setBuf sp t).wf := by
  rw [Memory.wf_iff] at *
  intro sq
  by_cases hs : sq = sp
  · subst hs; simpa using ht
  · rw [Memory.buf_setBuf_other m t hs]; exact h sq

theorem State.wf_write (s : State) (sp : Space) (k : Nat) (bs : List Byte) (h : s.mem.wf) : (s.write sp k bs).mem.wf := by
  rw [State.write_mem]
  exact Memory.wf_setBuf _ _ _ h (tableWf_tablePut _ _ _ ((Memory.wf_iff _).1 h sp))

theorem State.wf_forget (s : State) (sp : Space) (k n : Nat) (h : s.mem.wf) : (s.forget sp k n).mem.wf := by
  rw [State.forget_mem]
  exact Memory.wf_setBuf _ _ _ h (tableWf_tablePut _ _ _ ((Memory.wf_iff _).1 h sp))

theorem State.reset_wf : State.reset.mem.wf := by decide

/-! Commands. -/

/-- All that a command can do: the first failing check is raised, or the body runs to its end. -/
theorem command_cases (checks : List Check) (body : State → State) (s : State) :
    (∃ reg, firstFailing checks = some reg ∧ command checks body s = s.begin.raise .param reg) ∨
    (firstFailing checks = none ∧ command checks body s = (body s.begin).complete) := by
  unfold command
  cases h : firstFailing checks with
  | some reg => exact .inl ⟨reg, rfl, rfl⟩
  | none => exact .inr ⟨rfl, rfl⟩

/-- Every check passes exactly when no check fails. -/
theorem firstFailing_eq_none (checks : List Check) : firstFailing checks = none ↔ ∀ c ∈ checks, c.1 = true := by
  induction checks with
  | nil => simp [firstFailing]
  | cons c checks ih =>
    obtain ⟨ok, reg⟩ := c
    cases ok <;> simp [firstFailing, ih]

theorem command_passed (checks : List Check) (body : State → State) (s : State) (h : ∀ c ∈ checks, c.1 = true) :
    command checks body s = (body s.begin).complete := by
  unfold command; rw [(firstFailing_eq_none checks).2 h]

/-- A body that raises no fault ends normally. -/
theorem State.complete_of_ok (s : State) (h : s.status.err = false) : s.complete = s.finish := by
  unfold State.complete; simp [h]

/-- A body that raised a fault has already ended. -/
theorem State.complete_of_err (s : State) (h : s.status.err = true) : s.complete = s := by
  unfold State.complete; simp [h]

end Sys2Proof.Machine
end

