-- ==== Sys2Proof/Laws/Canvas.lean ====
section
/-! SUPPORT. Pixels and rectangles: which pixels an area lists, that rectangle pixels lie apart, the interlaced row order, and
what the runs of writes over a rectangle leave where. -/

namespace Sys2Proof.Machine

/-! The pixels of an area. -/

@[simp] theorem mem_pixelsOf (w h : Nat) (p : Nat × Nat) : p ∈ pixelsOf w h ↔ p.1 < w ∧ p.2 < h := by
  obtain ⟨x, y⟩ := p
  simp only [pixelsOf, List.mem_flatMap, List.mem_range, List.mem_map, Prod.mk.injEq]
  constructor
  · rintro ⟨a, ha, b, hb, rfl, rfl⟩; exact ⟨hb, ha⟩
  · rintro ⟨hx, hy⟩; exact ⟨y, hy, x, hx, rfl, rfl⟩

theorem nodup_pixelsOf (w h : Nat) : (pixelsOf w h).Nodup := by
  unfold pixelsOf
  refine List.nodup_flatMap.2 ⟨fun y _ => ?_, ?_⟩
  · exact List.nodup_range.map fun a b hab => by simpa using hab
  · refine List.nodup_range.pairwise_of_forall_ne ?_
    intro a _ b _ hab
    simp only [Function.onFun, List.disjoint_left, List.mem_map, List.mem_range]
    rintro p ⟨x, _, rfl⟩ ⟨x', _, hx⟩
    exact hab (Prod.ext_iff.1 hx).2.symm

/-- Pixel `(x, y)` stands at position `y * w + x` of the row-major list. -/
theorem pixelsOf_getElem? (w h x y : Nat) (hx : x < w) (hy : y < h) : (pixelsOf w h)[y * w + x]? = some (x, y) := by
  unfold pixelsOf
  induction h with
  | zero => omega
  | succ h ih =>
    have len (n : Nat) : ((List.range n).flatMap fun y => (List.range w).map fun x => (x, y)).length = n * w := by
      simp [List.length_flatMap, Nat.mul_comm]
    rw [List.range_succ, List.flatMap_append]
    by_cases hlt : y < h
    · rw [List.getElem?_append_left, ih hlt]
      rw [len]
      calc y * w + x < y * w + w := by omega
        _ = (y + 1) * w := by ring
        _ ≤ h * w := Nat.mul_le_mul_right _ hlt
    · have : y = h := by omega
      subst this
      rw [List.getElem?_append_right (by rw [len]; omega), len]
      simp [hx]

@[simp] theorem length_pixelsOf (w h : Nat) : (pixelsOf w h).length = w * h := by
  simp [pixelsOf, List.length_flatMap, Nat.mul_comm]

/-! Rectangle pixels lie apart (R175). -/

theorem rectAddr_eq (s : State) (c r : Nat) :
    rectAddr s c r = 4 * ((rectY s + r) * canvasW s + (rectX s + c)) := rfl

theorem rectAddr_add (s : State) (c r : Nat) : rectAddr s c r = rectAddr s 0 r + 4 * c := by
  simp only [rectAddr, pixelAddr]; ring

/-- With the rectangle's columns inside the canvas, the bytes of two different rectangle pixels are apart. -/
theorem rectAddr_apart (s : State) (hfit : rectX s + rectW s ≤ canvasW s) {c r c' r' : Nat} (hc : c < rectW s)
    (hc' : c' < rectW s) (hne : (c, r) ≠ (c', r')) :
    rectAddr s c r + 4 ≤ rectAddr s c' r' ∨ rectAddr s c' r' + 4 ≤ rectAddr s c r := by
  simp only [rectAddr, pixelAddr]
  by_cases hr : r = r'
  · subst hr
    have : c ≠ c' := fun h => hne (by rw [h])
    omega
  · rcases Nat.lt_or_gt_of_ne hr with h | h
    · have h1 : (rectY s + r + 1) * canvasW s ≤ (rectY s + r') * canvasW s := Nat.mul_le_mul_right _ (by omega)
      have h2 : (rectY s + r + 1) * canvasW s = (rectY s + r) * canvasW s + canvasW s := by ring
      omega
    · have h1 : (rectY s + r' + 1) * canvasW s ≤ (rectY s + r) * canvasW s := Nat.mul_le_mul_right _ (by omega)
      have h2 : (rectY s + r' + 1) * canvasW s = (rectY s + r') * canvasW s + canvasW s := by ring
      omega

/-- A rectangle pixel of a rectangle inside the canvas lies inside the canvas (R175). -/
theorem rectAddr_inside (s : State) (hx : rectX s + rectW s ≤ canvasW s) (hy : rectY s + rectH s ≤ canvasH s) {c r : Nat}
    (hc : c < rectW s) (hr : r < rectH s) : rectAddr s c r + 4 ≤ canvasBytes s := by
  simp only [rectAddr, pixelAddr, canvasBytes]
  have h1 : (rectY s + r + 1) * canvasW s ≤ canvasH s * canvasW s := Nat.mul_le_mul_right _ (by omega)
  have h2 : (rectY s + r + 1) * canvasW s = (rectY s + r) * canvasW s + canvasW s := by ring
  have h3 : canvasH s * canvasW s = canvasW s * canvasH s := Nat.mul_comm _ _
  omega

/-! Interlaced rows (R115, R174). -/

theorem lt_ceilDiv (n d k : Nat) (hd : 0 < d) : k < ceilDiv n d ↔ k * d < n := by
  unfold ceilDiv
  rw [Nat.lt_div_iff_mul_lt hd]
  rw [Nat.mul_comm k d]
  omega

theorem mem_passRows (start stride h r : Nat) (hs : 0 < stride) :
    r ∈ passRows start stride h ↔ start ≤ r ∧ r < h ∧ (r - start) % stride = 0 := by
  simp only [passRows, List.mem_map, List.mem_range, lt_ceilDiv _ _ _ hs]
  constructor
  · rintro ⟨k, hk, rfl⟩
    have : start + k * stride - start = k * stride := by omega
    rw [this]
    exact ⟨by omega, by omega, Nat.mul_mod_left _ _⟩
  · rintro ⟨h1, h2, h3⟩
    refine ⟨(r - start) / stride, ?_, ?_⟩
    · rw [Nat.div_mul_cancel (Nat.dvd_of_mod_eq_zero h3)]; omega
    · rw [Nat.div_mul_cancel (Nat.dvd_of_mod_eq_zero h3)]; omega

theorem nodup_passRows (start stride h : Nat) (hs : 0 < stride) : (passRows start stride h).Nodup := by
  refine List.nodup_range.map fun a b hab => ?_
  have : a * stride = b * stride := by simpa using hab
  exact Nat.eq_of_mul_eq_mul_right hs this

/-- The four passes visit every row below `h` and no other. -/
theorem mem_interlacedRows (h r : Nat) : r ∈ interlacedRows h ↔ r < h := by
  simp only [interlacedRows, List.mem_append, mem_passRows _ _ _ _ (by decide : 0 < 8),
    mem_passRows _ _ _ _ (by decide : 0 < 4), mem_passRows _ _ _ _ (by decide : 0 < 2)]
  omega

/-- The four passes visit no row twice. -/
theorem nodup_interlacedRows (h : Nat) : (interlacedRows h).Nodup := by
  unfold interlacedRows
  refine List.Nodup.append (List.Nodup.append (List.Nodup.append (nodup_passRows _ _ _ (by decide))
    (nodup_passRows _ _ _ (by decide)) ?_) (nodup_passRows _ _ _ (by decide)) ?_) (nodup_passRows _ _ _ (by decide)) ?_
  all_goals
    intro a ha hb
    simp only [List.mem_append, mem_passRows _ _ _ _ (by decide : 0 < 8), mem_passRows _ _ _ _ (by decide : 0 < 4),
      mem_passRows _ _ _ _ (by decide : 0 < 2)] at ha hb
    omega

theorem length_interlacedRows (h : Nat) : (interlacedRows h).length = h := by
  have : (interlacedRows h).Perm (List.range h) :=
    (List.perm_ext_iff_of_nodup (nodup_interlacedRows h) List.nodup_range).2 fun r => by
      rw [mem_interlacedRows, List.mem_range]
  simpa using this.length_eq

/-- A transmitted row is a row of the frame. -/
theorem rowOf_lt (interlaced : Bool) (k h : Nat) (hk : k < h) : rowOf interlaced k h < h := by
  unfold rowOf
  cases interlaced
  · simpa using hk
  · have hk' : k < (interlacedRows h).length := by rwa [length_interlacedRows]
    simp only [if_true, List.getD_eq_getElem?_getD, List.getElem?_eq_getElem hk', Option.getD_some]
    exact (mem_interlacedRows h _).1 (List.getElem_mem hk')

/-- Different transmitted rows are different rows of the frame (R181). -/
theorem rowOf_injective (interlaced : Bool) (h : Nat) {k k' : Nat} (hk : k < h) (hk' : k' < h)
    (he : rowOf interlaced k h = rowOf interlaced k' h) : k = k' := by
  unfold rowOf at he
  cases interlaced
  · simpa using he
  · have h1 : k < (interlacedRows h).length := by rwa [length_interlacedRows]
    have h2 : k' < (interlacedRows h).length := by rwa [length_interlacedRows]
    simp only [if_true, List.getD_eq_getElem?_getD, List.getElem?_eq_getElem h1, List.getElem?_eq_getElem h2,
      Option.getD_some] at he
    exact (List.Nodup.getElem_inj_iff (nodup_interlacedRows h)).1 he

/-! Writes of one run, as tables. -/

/-- A run touches its own indices only. -/
theorem tableGet_tablePut_untouched (t : Table Byte) (k : Nat) (bs : List Byte) (a : Nat)
    (h : ¬ (k ≤ a ∧ a < k + bs.length)) : tableGet (tablePut t k bs) a = tableGet t a :=
  tableGet_tablePut_outside t k bs a (by omega)

/-- What `over` or `Source` makes of two pixels of four bytes is four bytes. -/
theorem blendPixel_length (op : BlendOp) (f d : List Byte) (hf : f.length = 4) : (blendPixel op f d).length = 4 := by
  cases op
  · exact hf
  · simp only [blendPixel, overPixel]; split <;> rfl

@[simp] theorem framePixel_length (s : State) (c r : Nat) : (framePixel s c r).length = 4 := by
  simp [framePixel]

/-- The blend step at a pixel touches that pixel's four bytes only. -/
theorem blendAt_untouched (op : BlendOp) (s : State) (t : Table Byte) (p : Nat × Nat) (a : Nat)
    (h : ¬ (rectAddr s p.1 p.2 ≤ a ∧ a < rectAddr s p.1 p.2 + 4)) : tableGet (blendAt op s t p) a = tableGet t a := by
  refine tableGet_tablePut_untouched t _ _ a ?_
  rwa [blendPixel_length op _ _ (framePixel_length s p.1 p.2)]

/-- A canvas pixel reads the same in two tables that agree on its bytes. -/
theorem canvasPixel_congr (s : State) {t u : Table Byte} {a : Nat} (h : ∀ k, k < 4 → tableGet t (a + k) = tableGet u (a + k)) :
    canvasPixel s t a = canvasPixel s u a := by
  unfold canvasPixel
  refine List.map_congr_left fun j hj => ?_
  rw [List.mem_range'_1] at hj
  obtain ⟨k, rfl⟩ : ∃ k, j = a + k := ⟨j - a, by omega⟩
  exact byteOf_congr _ _ (h k (by omega))

theorem canvasPixel_own (s : State) (a : Nat) : canvasPixel s (s.mem.buf .canvas) a = s.bytes .canvas a 4 := rfl

/-- The blend over a rectangle leaves at rectangle pixel `(c, r)` the blend of the frame pixel and the old canvas pixel. -/
theorem blendRect_inside (op : BlendOp) (s : State) (hfit : rectX s + rectW s ≤ canvasW s) {c r : Nat} (hc : c < rectW s)
    (hr : r < rectH s) :
    (blendRect op s).bytes .canvas (rectAddr s c r) 4 =
      blendPixel op (framePixel s c r) (s.bytes .canvas (rectAddr s c r) 4) := by
  obtain ⟨t', ht'⟩ := tableGet_foldl_visited (blendAt op s)
    (fun p a => rectAddr s p.1 p.2 ≤ a ∧ a < rectAddr s p.1 p.2 + 4) (blendAt_untouched op s)
    (pixelsOf (rectW s) (rectH s)) (nodup_pixelsOf _ _) (s.mem.buf .canvas) (c, r) (by simp [hc, hr])
  have key (k : Nat) (hk : k < 4) := ht' (rectAddr s c r + k) (by
    rintro ⟨c', r'⟩ hm hne
    rw [mem_pixelsOf] at hm
    have := rectAddr_apart s hfit hc hm.1 (r := r) (r' := r') (Ne.symm hne)
    simp only at this ⊢
    omega)
  have hcan : canvasPixel s t' (rectAddr s c r) = s.bytes .canvas (rectAddr s c r) 4 := by
    rw [← canvasPixel_own]; exact canvasPixel_congr s fun k hk => (key k hk).1
  have hlen := blendPixel_length op (framePixel s c r) (canvasPixel s t' (rectAddr s c r)) (framePixel_length s c r)
  refine List.ext_getElem (by rw [State.bytes_length, ← hcan, hlen]) fun k h1 h2 => ?_
  rw [State.bytes_length] at h1
  rw [State.bytes_getElem]
  unfold blendRect
  rw [State.byte_setBuf_same, byteOf_congr _ _ (key k h1).2]
  have h3 : k < (blendPixel op (framePixel s c r) (canvasPixel s t' (rectAddr s c r))).length := by rw [hlen]; exact h1
  show byteOf s.epoch .canvas (tablePut t' (rectAddr s c r) _) (rectAddr s c r + k) = _
  rw [byteOf_tablePut_inside _ _ _ _ _ k h3]
  simp only [hcan]

/-- The blend leaves every byte outside the rectangle as it was. -/
theorem blendRect_outside (op : BlendOp) (s : State) (sp : Space) (a : Nat)
    (h : ¬ (sp = .canvas ∧ ∃ c r, c < rectW s ∧ r < rectH s ∧ rectAddr s c r ≤ a ∧ a < rectAddr s c r + 4)) :
    (blendRect op s).byte sp a = s.byte sp a := by
  unfold blendRect
  by_cases hs : sp = .canvas
  · subst hs
    rw [State.byte_setBuf_same]
    refine byteOf_congr _ _ (tableGet_foldl_untouched _ _ (blendAt_untouched op s) _ _ _ ?_)
    rintro ⟨c, r⟩ hm hin
    rw [mem_pixelsOf] at hm
    exact h ⟨rfl, c, r, hm.1, hm.2, hin⟩
  · exact State.byte_setBuf_other s _ a hs

/-! Zeroing and forgetting a rectangle, row by row. -/

/-- A byte of the rectangle lies in one of its rows. -/
theorem mem_rect_row (s : State) (a : Nat) :
    (∃ c r, c < rectW s ∧ r < rectH s ∧ rectAddr s c r ≤ a ∧ a < rectAddr s c r + 4) ↔
      ∃ r, r < rectH s ∧ rectAddr s 0 r ≤ a ∧ a < rectAddr s 0 r + 4 * rectW s := by
  constructor
  · rintro ⟨c, r, hc, hr, h1, h2⟩
    have := rectAddr_add s c r
    exact ⟨r, hr, by omega, by omega⟩
  · rintro ⟨r, hr, h1, h2⟩
    refine ⟨(a - rectAddr s 0 r) / 4, r, by omega, hr, ?_, ?_⟩
    all_goals rw [rectAddr_add]; omega

theorem zeroRect_inside (s : State) (a : Nat)
    (h : ∃ c r, c < rectW s ∧ r < rectH s ∧ rectAddr s c r ≤ a ∧ a < rectAddr s c r + 4) :
    (zeroRect s).byte .canvas a = 0#8 := by
  obtain ⟨r, hr, h1, h2⟩ := (mem_rect_row s a).1 h
  unfold zeroRect
  rw [State.byte_setBuf_same]
  have step (l : List Nat) (t : Table Byte) (hz : r ∈ l ∨ byteOf s.epoch .canvas t a = 0#8) :
      byteOf s.epoch .canvas
        (l.foldl (fun t r => tablePut t (rectAddr s 0 r) (List.replicate (4 * rectW s) 0)) t) a = 0#8 := by
    induction l generalizing t with
    | nil => simpa using hz
    | cons q l ih =>
      rw [List.foldl_cons]
      refine ih _ ?_
      by_cases hin : rectAddr s 0 q ≤ a ∧ a < rectAddr s 0 q + 4 * rectW s
      · right
        obtain ⟨k, rfl⟩ : ∃ k, a = rectAddr s 0 q + k := ⟨a - rectAddr s 0 q, by omega⟩
        rw [byteOf_tablePut_inside _ _ _ _ _ k (by simp; omega)]
        simp
      · rcases hz with hz | hz
        · rcases List.mem_cons.1 hz with rfl | hz
          · exact absurd ⟨h1, h2⟩ hin
          · exact .inl hz
        · right
          rw [byteOf_tablePut_outside _ _ _ _ _ _ (by simp; omega)]
          exact hz
  exact step _ _ (.inl (List.mem_range.2 hr))

theorem zeroRect_outside (s : State) (sp : Space) (a : Nat)
    (h : ¬ (sp = .canvas ∧ ∃ c r, c < rectW s ∧ r < rectH s ∧ rectAddr s c r ≤ a ∧ a < rectAddr s c r + 4)) :
    (zeroRect s).byte sp a = s.byte sp a := by
  unfold zeroRect
  by_cases hs : sp = .canvas
  · subst hs
    rw [State.byte_setBuf_same]
    refine byteOf_congr _ _ (tableGet_foldl_untouched _
      (fun r a => rectAddr s 0 r ≤ a ∧ a < rectAddr s 0 r + 4 * rectW s) ?_ _ _ _ ?_)
    · intro t r a ha
      exact tableGet_tablePut_untouched t _ _ a (by simpa using ha)
    · intro r hr hin
      exact h ⟨rfl, (mem_rect_row s a).2 ⟨r, List.mem_range.1 hr, hin⟩⟩
  · exact State.byte_setBuf_other s _ a hs

/-- Forgetting the rectangle leaves every byte outside it as it was (R324). -/
theorem forgetRect_outside (s : State) (sp : Space) (a : Nat)
    (h : ¬ (sp = .canvas ∧ ∃ c r, c < rectW s ∧ r < rectH s ∧ rectAddr s c r ≤ a ∧ a < rectAddr s c r + 4)) :
    (forgetRect s).byte sp a = s.byte sp a := by
  unfold forgetRect
  have step (l : List Nat) (hl : ∀ r ∈ l, r < rectH s) (u : State) :
      (l.foldl (fun t r => t.forget .canvas (rectAddr s 0 r) (4 * rectW s)) u).byte sp a = u.byte sp a := by
    induction l generalizing u with
    | nil => rfl
    | cons r l ih =>
      rw [List.foldl_cons, ih (fun q hq => hl q (List.mem_cons_of_mem _ hq))]
      refine State.byte_forget_outside _ _ _ _ _ _ ?_
      by_contra hcon
      push Not at hcon
      refine h ⟨hcon.1, (mem_rect_row s a).2 ⟨r, hl r List.mem_cons_self, hcon.2.1, hcon.2.2⟩⟩
  exact step _ (fun r hr => List.mem_range.1 hr) s

/-- Forgetting the rectangle changes buffer contents and the counter of free values only. -/
theorem forgetRect_frame (s : State) : forgetRect s = { s with mem := (forgetRect s).mem, free := (forgetRect s).free } := by
  unfold forgetRect
  have step (l : List Nat) (u : State) :
      let v := l.foldl (fun t r => t.forget .canvas (rectAddr s 0 r) (4 * rectW s)) u
      v = { u with mem := v.mem, free := v.free } := by
    induction l generalizing u with
    | nil => rfl
    | cons r l ih =>
      simp only [List.foldl_cons]
      rw [ih]
      rfl
  exact step _ s

/-! Copies. -/

theorem copyCanvas_inside (src dst : Space) (s : State) (a : Nat) (h : a < canvasBytes s) :
    (copyCanvas src dst s).byte dst a = s.byte src a := by
  unfold copyCanvas
  have h1 : a < (s.bytes src 0 (canvasBytes s)).length := by simpa using h
  have := State.byte_write_inside s dst 0 _ a h1
  rw [Nat.zero_add] at this
  rw [this, State.bytes_getElem, Nat.zero_add]

theorem copyCanvas_outside (src dst : Space) (s : State) (sp : Space) (a : Nat)
    (h : ¬ (sp = dst ∧ a < canvasBytes s)) : (copyCanvas src dst s).byte sp a = s.byte sp a := by
  refine State.byte_write_outside s dst 0 _ sp a ?_
  by_cases hs : sp = dst
  · right; right; simp only [State.bytes_length]; have : ¬ a < canvasBytes s := fun h' => h ⟨hs, h'⟩; omega
  · exact .inl hs

end Sys2Proof.Machine
end

