-- ==== Sys2Proof/Laws/Blit.lean ====
section
/-! SUPPORT. U1: where stream positions are painted, and what a blit leaves where. -/

namespace Sys2Proof.Machine

@[simp] theorem blitColour_length (order : Bool) (c : Rgb) : (blitColour order c).length = 4 := by
  unfold blitColour; split <;> rfl

/-- A stream position below the count lies in a row and a column of the rectangle (R171, R172). -/
theorem blitCount_row_col (s : State) (i : Nat) (h : i < blitCount s) : i % rectW s < rectW s ∧ i / rectW s < rectH s := by
  have hlt : i < rectW s * rectH s := by unfold blitCount at h; omega
  have hw : 0 < rectW s := by
    rcases Nat.eq_zero_or_pos (rectW s) with h0 | h0
    · rw [h0] at hlt; simp at hlt
    · exact h0
  exact ⟨Nat.mod_lt _ hw, Nat.div_lt_of_lt_mul hlt⟩

/-- Different stream positions are painted at bytes that lie apart (R181). -/
theorem blitAddr_apart (mode : BlitMode) (s : State) (hfit : rectX s + rectW s ≤ canvasW s) {i j : Nat} (hi : i < blitCount s)
    (hj : j < blitCount s) (hne : i ≠ j) :
    blitAddr mode s i + 4 ≤ blitAddr mode s j ∨ blitAddr mode s j + 4 ≤ blitAddr mode s i := by
  obtain ⟨hic, hir⟩ := blitCount_row_col s i hi
  obtain ⟨hjc, hjr⟩ := blitCount_row_col s j hj
  refine rectAddr_apart s hfit hic hjc ?_
  intro he
  rw [Prod.mk.injEq] at he
  have hrow := rowOf_injective mode.interlaced (rectH s) hir hjr he.2
  have h1 := Nat.div_add_mod i (rectW s)
  have h2 := Nat.div_add_mod j (rectW s)
  rw [← hrow, ← he.1] at h2
  omega

/-- A painted byte lies in the rectangle (R64). -/
theorem blitAddr_in_rect (mode : BlitMode) (s : State) (i : Nat) (hi : i < blitCount s) :
    ∃ c r, c < rectW s ∧ r < rectH s ∧ blitAddr mode s i = rectAddr s c r := by
  obtain ⟨hic, hir⟩ := blitCount_row_col s i hi
  exact ⟨_, _, hic, rowOf_lt mode.interlaced _ _ hir, rfl⟩

/-- One index of the stream: only the bytes it paints change. -/
theorem blitPixel_untouched (mode : BlitMode) (s : State) (t : Table Byte) (i a : Nat)
    (h : ¬ (∃ bs, blitAct mode s (s.byte .idx i) = .paint bs ∧ blitAddr mode s i ≤ a ∧ a < blitAddr mode s i + 4)) :
    tableGet (blitPixel mode s t i) a = tableGet t a := by
  unfold blitPixel
  split
  · rename_i bs hact
    refine tableGet_tablePut_outside _ _ _ _ ?_
    have hlen : bs.length = 4 := by
      unfold blitAct at hact
      split at hact
      · cases hact
      · split at hact
        · cases hact
        · simp only [BlitAct.paint.injEq] at hact
          rw [← hact, blitColour_length]
    have : ¬ (blitAddr mode s i ≤ a ∧ a < blitAddr mode s i + 4) := fun h' => h ⟨bs, by assumption, h'⟩
    omega
  · rfl
  · rfl

/-- All a blit can do (R170, R177). -/
theorem blitRun_cases (mode : BlitMode) (s : State) :
    (∃ i, blitFirstBad mode s = some i ∧ blitRun mode s = forgetRect (s.raise .palIndex i)) ∨
    (blitFirstBad mode s = none ∧ blitRun mode s =
      s.setBuf .canvas ((List.range (blitCount s)).foldl (blitPixel mode s) (s.mem.buf .canvas))) := by
  unfold blitRun
  cases h : blitFirstBad mode s with
  | some i => exact .inl ⟨i, rfl, rfl⟩
  | none => exact .inr ⟨rfl, rfl⟩

theorem blitFirstBad_none (mode : BlitMode) (s : State) :
    blitFirstBad mode s = none ↔ ∀ i, i < blitCount s → blitAct mode s (s.byte .idx i) ≠ .bad := by
  unfold blitFirstBad
  rw [List.find?_eq_none]
  simp

/-- The position reported is the first that breaks the palette bound (R181). -/
theorem blitFirstBad_some (mode : BlitMode) (s : State) (n : Nat) (hn : n < blitCount s)
    (hbad : blitAct mode s (s.byte .idx n) = .bad) (hfirst : ∀ i, i < n → blitAct mode s (s.byte .idx i) ≠ .bad) :
    blitFirstBad mode s = some n := by
  unfold blitFirstBad
  rw [List.find?_range_eq_some]
  exact ⟨by simp [hbad], by simpa using hn, fun j hj => by simpa using hfirst j hj⟩

/-- A position that paints leaves its four bytes in the canvas. -/
theorem blit_painted (mode : BlitMode) (s : State) (hfit : rectX s + rectW s ≤ canvasW s) (i : Nat) (hi : i < blitCount s)
    (bs : List Byte) (hact : blitAct mode s (s.byte .idx i) = .paint bs) (k : Nat) (hk : k < bs.length) (hlen : bs.length = 4) :
    byteOf s.epoch .canvas ((List.range (blitCount s)).foldl (blitPixel mode s) (s.mem.buf .canvas))
      (blitAddr mode s i + k) = bs[k] := by
  obtain ⟨t', ht'⟩ := tableGet_foldl_visited (blitPixel mode s)
    (fun i a => ∃ bs, blitAct mode s (s.byte .idx i) = .paint bs ∧ blitAddr mode s i ≤ a ∧ a < blitAddr mode s i + 4)
    (blitPixel_untouched mode s) (List.range (blitCount s)) List.nodup_range (s.mem.buf .canvas) i (List.mem_range.2 hi)
  have key := (ht' (blitAddr mode s i + k) (by
    rintro j hj hne ⟨_, _, h1, h2⟩
    have := blitAddr_apart mode s hfit hi (List.mem_range.1 hj) (Ne.symm hne)
    omega)).2
  rw [byteOf_congr _ _ key]
  unfold blitPixel
  rw [hact]
  exact byteOf_tablePut_inside _ _ _ _ _ k hk

/-- A byte no position paints is as it was (R180). -/
theorem blit_untouched (mode : BlitMode) (s : State) (a : Nat)
    (h : ∀ i, i < blitCount s → ∀ bs, blitAct mode s (s.byte .idx i) = .paint bs →
      ¬ (blitAddr mode s i ≤ a ∧ a < blitAddr mode s i + 4)) :
    byteOf s.epoch .canvas ((List.range (blitCount s)).foldl (blitPixel mode s) (s.mem.buf .canvas)) a =
      s.byte .canvas a := by
  refine byteOf_congr _ _ (tableGet_foldl_untouched _ _ (blitPixel_untouched mode s) _ _ _ ?_)
  rintro i hi ⟨bs, h1, h2⟩
  exact h i (List.mem_range.1 hi) bs h1 h2

/-- A blit changes only bytes of the frame rectangle in `CANVAS` (R64). -/
theorem blitRun_outside (mode : BlitMode) (s : State) (sp : Space) (a : Nat)
    (h : ¬ (sp = .canvas ∧ ∃ c r, c < rectW s ∧ r < rectH s ∧ rectAddr s c r ≤ a ∧ a < rectAddr s c r + 4)) :
    (blitRun mode s).byte sp a = s.byte sp a := by
  rcases blitRun_cases mode s with ⟨i, _, hr⟩ | ⟨_, hr⟩
  · rw [hr]; exact forgetRect_outside (s.raise .palIndex i) sp a h
  · rw [hr]
    by_cases hs : sp = .canvas
    · subst hs
      rw [State.byte_setBuf_same]
      refine blit_untouched mode s a ?_
      intro i hi bs _ hin
      obtain ⟨c, r, hc, hr', he⟩ := blitAddr_in_rect mode s i hi
      rw [he] at hin
      exact h ⟨rfl, c, r, hc, hr', hin⟩
    · exact State.byte_setBuf_other s _ a hs

end Sys2Proof.Machine
end

