-- ==== Sys2Proof/Laws/Defilter.lean ====
section
/-! SUPPORT. U2: a reconstructed row byte by byte, the rows of an image, and when a tag is refused. -/

namespace Sys2Proof.Machine

/-! Rows (R191, R202). -/

theorem reconFrom_length (pred : Byte → Byte → Byte → Byte) (bpp : Nat) (prev cur fs : List Byte) :
    (reconFrom pred bpp prev cur fs).length = cur.length + fs.length := by
  induction fs generalizing cur with
  | nil => simp [reconFrom]
  | cons f fs ih => simp [reconFrom, ih]; omega

/-- The bytes already there stay. -/
theorem reconFrom_getD_old (pred : Byte → Byte → Byte → Byte) (bpp : Nat) (prev cur fs : List Byte) (j : Nat) (d : Byte)
    (h : j < cur.length) : (reconFrom pred bpp prev cur fs).getD j d = cur.getD j d := by
  induction fs generalizing cur with
  | nil => simp [reconFrom]
  | cons f fs ih =>
    simp only [reconFrom]
    rw [ih _ (by simp; omega)]
    simp [List.getD_eq_getElem?_getD, List.getElem?_append_left h]

/-- Each new byte is its filtered byte plus the prediction from the finished row and the row above. -/
theorem reconFrom_getD_new (pred : Byte → Byte → Byte → Byte) (bpp : Nat) (hb : 1 ≤ bpp) (prev cur fs : List Byte) (k : Nat)
    (h : k < fs.length) :
    let out := reconFrom pred bpp prev cur fs
    let x := cur.length + k
    out.getD x 0#8 =
      fs.getD k 0#8 +
        pred (if bpp ≤ x then out.getD (x - bpp) 0#8 else 0#8) (prev.getD x 0#8)
          (if bpp ≤ x then prev.getD (x - bpp) 0#8 else 0#8) := by
  induction fs generalizing cur k with
  | nil => simp at h
  | cons f fs ih =>
    cases k with
    | zero =>
      simp only [reconFrom, Nat.add_zero]
      rw [reconFrom_getD_old _ _ _ _ _ cur.length _ (by simp)]
      have hleft (hx : bpp ≤ cur.length) : ∀ e : Byte, (reconFrom pred bpp prev (cur ++ [e]) fs).getD (cur.length - bpp) 0#8 =
          cur.getD (cur.length - bpp) 0#8 := by
        intro e
        have : cur.length - bpp < cur.length := by omega
        rw [reconFrom_getD_old _ _ _ _ _ _ _ (by rw [List.length_append]; omega), List.getD_append _ _ _ _ this]
      by_cases hx : bpp ≤ cur.length
      · simp only [hx, if_true]
        rw [hleft hx]
        simp
      · simp [hx]
    | succ k =>
      simp only [reconFrom]
      have := ih (cur ++ [f + pred (if bpp ≤ cur.length then cur.getD (cur.length - bpp) 0 else 0)
        (prev.getD cur.length 0) (if bpp ≤ cur.length then prev.getD (cur.length - bpp) 0 else 0)]) k (by simpa using h)
      simp only [List.length_append, List.length_cons, List.length_nil, Nat.zero_add] at this
      have e : cur.length + (k + 1) = cur.length + 1 + k := by omega
      rw [e, this]
      simp

@[simp] theorem reconRow_length (pred : Byte → Byte → Byte → Byte) (bpp : Nat) (prev fs : List Byte) :
    (reconRow pred bpp prev fs).length = fs.length := by
  unfold reconRow; rw [reconFrom_length]; simp

/-- A reconstructed row, byte by byte (R191). -/
theorem reconRow_getD (pred : Byte → Byte → Byte → Byte) (bpp : Nat) (hb : 1 ≤ bpp) (prev fs : List Byte) (x : Nat)
    (h : x < fs.length) :
    (reconRow pred bpp prev fs).getD x 0#8 =
      fs.getD x 0#8 +
        pred (if bpp ≤ x then (reconRow pred bpp prev fs).getD (x - bpp) 0#8 else 0#8) (prev.getD x 0#8)
          (if bpp ≤ x then prev.getD (x - bpp) 0#8 else 0#8) := by
  have := reconFrom_getD_new pred bpp hb prev [] fs x h
  simpa [reconRow] using this

@[simp] theorem zeroRow_getD (rb x : Nat) : (zeroRow rb).getD x 0#8 = 0#8 := by
  simp only [zeroRow, List.getD_eq_getElem?_getD, List.getElem?_replicate]
  split <;> rfl

theorem one_le_filterDistance (bits : Nat) : 1 ≤ filterDistance bits := Nat.le_max_left _ _

/-! Images (R191, R199). -/

/-- All `recon` can do, tag by tag. -/
theorem recon_succ (s : State) (rb bpp h t : Nat) (prev : List Byte) :
    (predictor (filterTag (s.byte .filt t)) = none ∧ recon s rb bpp (h + 1) t prev = .error t) ∨
    (∃ pred, predictor (filterTag (s.byte .filt t)) = some pred ∧
      recon s rb bpp (h + 1) t prev =
        (recon s rb bpp h (t + 1 + rb) (reconRow pred bpp prev (s.bytes .filt (t + 1) rb))).map
          (reconRow pred bpp prev (s.bytes .filt (t + 1) rb) :: ·)) := by
  simp only [recon]
  cases hp : predictor (filterTag (s.byte .filt t)) with
  | none => exact .inl ⟨rfl, rfl⟩
  | some pred =>
    refine .inr ⟨pred, rfl, ?_⟩
    simp only
    cases recon s rb bpp h (t + 1 + rb) (reconRow pred bpp prev (s.bytes .filt (t + 1) rb)) <;> rfl

/-- The rows that come out: `h` of them, `rb` bytes each, every one the reconstruction of its filtered row under its tag's
predictor from the row before it. -/
theorem recon_rows (s : State) (rb bpp h t : Nat) (prev : List Byte) (rows : List (List Byte))
    (hr : recon s rb bpp h t prev = .ok rows) :
    rows.length = h ∧ (∀ row ∈ rows, row.length = rb) ∧
      ∀ y, y < h → ∃ pred, predictor (filterTag (s.byte .filt (t + y * (1 + rb)))) = some pred ∧
        rows.getD y [] =
          reconRow pred bpp (if y = 0 then prev else rows.getD (y - 1) []) (s.bytes .filt (t + y * (1 + rb) + 1) rb) := by
  induction h generalizing t prev rows with
  | zero =>
    simp only [recon, Except.ok.injEq] at hr
    subst hr
    simp
  | succ h ih =>
    rcases recon_succ s rb bpp h t prev with ⟨_, h2⟩ | ⟨pred, h1, h2⟩
    · rw [h2] at hr; cases hr
    · rw [h2] at hr
      cases hrec : recon s rb bpp h (t + 1 + rb) (reconRow pred bpp prev (s.bytes .filt (t + 1) rb)) with
      | error e => rw [hrec] at hr; cases hr
      | ok rest =>
        rw [hrec] at hr
        simp only [Except.map, Except.ok.injEq] at hr
        subst hr
        obtain ⟨a1, a2, a3⟩ := ih _ _ _ hrec
        refine ⟨by simp [a1], ?_, ?_⟩
        · intro row hrow
          rcases List.mem_cons.1 hrow with rfl | hrow
          · simp
          · exact a2 row hrow
        · intro y hy
          cases y with
          | zero => exact ⟨pred, by simpa using h1, by simp⟩
          | succ y =>
            obtain ⟨pred', b1, b2⟩ := a3 y (by omega)
            have e : t + (y + 1) * (1 + rb) = t + 1 + rb + y * (1 + rb) := by ring
            refine ⟨pred', by rw [e]; exact b1, ?_⟩
            rw [e]
            simp only [List.getD_cons_succ, Nat.add_sub_cancel, Nat.add_one_ne_zero, if_false]
            rw [b2]
            cases y <;> simp

/-- With every tag legal, all rows come out. -/
theorem recon_ok (s : State) (rb bpp h t : Nat) (prev : List Byte)
    (htags : ∀ y, y < h → (predictor (filterTag (s.byte .filt (t + y * (1 + rb))))).isSome) :
    ∃ rows, recon s rb bpp h t prev = .ok rows := by
  induction h generalizing t prev with
  | zero => exact ⟨[], rfl⟩
  | succ h ih =>
    rcases recon_succ s rb bpp h t prev with ⟨h1, _⟩ | ⟨pred, _, h2⟩
    · have := htags 0 (by omega); simp [h1] at this
    · obtain ⟨rows, hrows⟩ := ih (t + 1 + rb) (reconRow pred bpp prev (s.bytes .filt (t + 1) rb)) (by
        intro y hy
        have := htags (y + 1) (by omega)
        have e : t + (y + 1) * (1 + rb) = t + 1 + rb + y * (1 + rb) := by ring
        rwa [e] at this)
      exact ⟨reconRow pred bpp prev (s.bytes .filt (t + 1) rb) :: rows, by rw [h2, hrows]; rfl⟩

/-- The first row with a reserved tag is the one reported (R325). -/
theorem recon_error (s : State) (rb bpp h t : Nat) (prev : List Byte) (y : Nat) (hy : y < h)
    (hbefore : ∀ j, j < y → (predictor (filterTag (s.byte .filt (t + j * (1 + rb))))).isSome)
    (hbad : predictor (filterTag (s.byte .filt (t + y * (1 + rb)))) = none) :
    recon s rb bpp h t prev = .error (t + y * (1 + rb)) := by
  induction h generalizing t prev y with
  | zero => omega
  | succ h ih =>
    cases y with
    | zero =>
      rcases recon_succ s rb bpp h t prev with ⟨_, h2⟩ | ⟨pred, h1, _⟩
      · simpa using h2
      · simp at hbad; rw [hbad] at h1; cases h1
    | succ y =>
      rcases recon_succ s rb bpp h t prev with ⟨h1, _⟩ | ⟨pred, _, h2⟩
      · have := hbefore 0 (by omega); simp [h1] at this
      · have e (j : Nat) : t + (j + 1) * (1 + rb) = t + 1 + rb + j * (1 + rb) := by ring
        rw [h2, ih (t + 1 + rb) _ y (by omega) (fun j hj => by rw [← e]; exact hbefore (j + 1) (by omega))
          (by rw [← e]; exact hbad), e]
        rfl

/-- The tags 0 to 4 have a predictor, the others none (R102, R103). -/
theorem predictor_isSome_iff (tag : Byte) : (predictor (filterTag tag)).isSome ↔ tag.toNat ≤ 4 := by
  revert tag; decide +kernel

theorem predictor_none_iff (tag : Byte) : predictor (filterTag tag) = none ↔ 5 ≤ tag.toNat := by
  have := predictor_isSome_iff tag
  cases h : predictor (filterTag tag) with
  | none => simp [h] at this; simp; omega
  | some p => simp [h] at this; simp; omega

/-! Rows laid one after another. -/

theorem flatten_length (rows : List (List Byte)) (rb : Nat) (h : ∀ row ∈ rows, row.length = rb) :
    rows.flatten.length = rows.length * rb := by
  induction rows with
  | nil => simp
  | cons row rows ih =>
    rw [List.flatten_cons, List.length_append, ih fun r hr => h r (List.mem_cons_of_mem _ hr), h row List.mem_cons_self]
    simp; ring

/-- Byte `x` of row `y` stands at `y * rb + x`. -/
theorem flatten_getD (rows : List (List Byte)) (rb : Nat) (h : ∀ row ∈ rows, row.length = rb) (y x : Nat) (hy : y < rows.length)
    (hx : x < rb) : rows.flatten.getD (y * rb + x) 0#8 = (rows.getD y []).getD x 0#8 := by
  induction rows generalizing y with
  | nil => simp at hy
  | cons row rows ih =>
    have hrow := h row List.mem_cons_self
    rw [List.flatten_cons]
    cases y with
    | zero =>
      simp only [Nat.zero_mul, Nat.zero_add, List.getD_cons_zero]
      rw [List.getD_append _ _ _ _ (by omega)]
    | succ y =>
      have e : (y + 1) * rb + x = row.length + (y * rb + x) := by rw [hrow]; ring
      rw [e, List.getD_append_right _ _ _ _ (by omega), Nat.add_sub_cancel_left, List.getD_cons_succ]
      exact ih (fun r hr => h r (List.mem_cons_of_mem _ hr)) y (by simpa using hy)

/-! One row as an instruction. -/

theorem defilterRow_outside_image (pred : Byte → Byte → Byte → Byte) (y : Nat) (s : State) (h : imgH s ≤ y) :
    defilterRow pred y s = s := by
  unfold defilterRow; rw [if_neg (by omega)]

/-- A filter tag writes the bytes of its own raw row only. -/
theorem defilterRow_byte_outside (pred : Byte → Byte → Byte → Byte) (y : Nat) (s : State) (sp : Space) (a : Nat)
    (h : ¬ (sp = .raw ∧ y < imgH s ∧ rawRowAddr s y ≤ a ∧ a < rawRowAddr s y + imageRowBytes s)) :
    (defilterRow pred y s).byte sp a = s.byte sp a := by
  unfold defilterRow
  split
  · rename_i hy
    refine State.byte_write_outside _ _ _ _ _ _ ?_
    rw [reconRow_length, State.bytes_length]
    by_cases hs : sp = .raw
    · right
      have : ¬ (rawRowAddr s y ≤ a ∧ a < rawRowAddr s y + imageRowBytes s) := fun h' => h ⟨hs, hy, h'⟩
      omega
    · exact .inl hs
  · rfl

/-- A filter tag on a row of the image, byte by byte. -/
theorem defilterRow_byte (pred : Byte → Byte → Byte → Byte) (y : Nat) (s : State) (hy : y < imgH s) (x : Nat)
    (hx : x < imageRowBytes s) :
    (defilterRow pred y s).byte .raw (rawRowAddr s y + x) =
      (reconRow pred (imageDistance s) (rowAbove s y) (s.bytes .filt (tagAddr s y + 1) (imageRowBytes s))).getD x 0#8 := by
  unfold defilterRow
  rw [if_pos hy]
  have hlen : x < (reconRow pred (imageDistance s) (rowAbove s y)
      (s.bytes .filt (tagAddr s y + 1) (imageRowBytes s))).length := by simpa using hx
  rw [State.byte_write_inside _ _ _ _ _ hlen, List.getD_eq_getElem?_getD, List.getElem?_eq_getElem hlen]
  rfl

/-- The row above, byte by byte: zero above the first row (R202). -/
theorem rowAbove_getD (s : State) (y x : Nat) (hx : x < imageRowBytes s) :
    (rowAbove s y).getD x 0#8 = if y = 0 then 0#8 else s.byte .raw (rawRowAddr s (y - 1) + x) := by
  unfold rowAbove
  split
  · exact zeroRow_getD _ _
  · exact State.bytes_getD _ _ _ _ _ hx _

/-! The whole image. -/

/-- All DEFILTER.RUN can do after its operand checks (R190, R199, R203). -/
theorem defilterRun_cases (s : State) :
    (s.op.filtLen.toNat < defilterNeed s ∧ defilterRun s = s.raise .underrun (defilterNeed s)) ∨
    (defilterNeed s ≤ s.op.filtLen.toNat ∧ ∃ t,
      recon s (imageRowBytes s) (imageDistance s) (imgH s) 0 (zeroRow (imageRowBytes s)) = .error t ∧
      defilterRun s = raiseFilterTag t s) ∨
    (defilterNeed s ≤ s.op.filtLen.toNat ∧ ∃ rows,
      recon s (imageRowBytes s) (imageDistance s) (imgH s) 0 (zeroRow (imageRowBytes s)) = .ok rows ∧
      defilterRun s = { s.write .raw 0 rows.flatten with filtUsed := BitVec.ofNat 32 (defilterNeed s) }) := by
  unfold defilterRun
  split
  · rename_i h; exact .inl ⟨h, rfl⟩
  · rename_i h
    cases hr : recon s (imageRowBytes s) (imageDistance s) (imgH s) 0 (zeroRow (imageRowBytes s)) with
    | error t => exact .inr (.inl ⟨by omega, t, rfl, rfl⟩)
    | ok rows => exact .inr (.inr ⟨by omega, rows, rfl, rfl⟩)

/-! Adam7 (R211 to R221). -/

/-- A pass counts its lattice points inside the image (R211). -/
theorem lt_latticeCount (n start step i : Nat) (hs : 0 < step) : i < latticeCount n start step ↔ start + i * step < n := by
  unfold latticeCount
  split
  · rename_i h
    rw [Nat.lt_div_iff_mul_lt hs, Nat.mul_comm]
    omega
  · rename_i h
    constructor
    · intro h'; omega
    · intro h'; have := Nat.zero_le (i * step); omega

theorem putPixel_length (bits rb : Nat) (row : List Byte) (i x y : Nat) (raw : List Byte) :
    (putPixel bits rb row i x y raw).length = raw.length := by
  unfold putPixel
  split
  · simp only
    generalize List.range (bits / 8) = ks
    induction ks generalizing raw with
    | nil => rfl
    | cons k ks ih => rw [List.foldl_cons, ih]; simp
  · simp

theorem scatterRows_length (bits rb pw : Nat) (p : Pass) (j : Nat) (rows : List (List Byte)) (raw : List Byte) :
    (scatterRows bits rb pw p j rows raw).length = raw.length := by
  induction rows generalizing j raw with
  | nil => rfl
  | cons row rows ih =>
    rw [scatterRows, ih]
    generalize List.range pw = is
    induction is generalizing raw with
    | nil => rfl
    | cons i is ih2 => rw [List.foldl_cons, ih2, putPixel_length]

/-- The raster keeps its size. -/
theorem adam7Go_length (s : State) (ps : List Pass) (off : Nat) (raw out : List Byte) (h : adam7Go s ps off raw = .ok out) :
    out.length = raw.length := by
  induction ps generalizing off raw with
  | nil => simp only [adam7Go, Except.ok.injEq] at h; rw [← h]
  | cons p ps ih =>
    simp only [adam7Go] at h
    split at h
    · exact ih _ _ h
    · split at h
      · cases h
      · rw [ih _ _ h, scatterRows_length]

/-- All ADAM7.RUN can do after its operand checks (R210, R219). -/
theorem adam7Run_cases (s : State) :
    (s.op.filtLen.toNat < adam7Need s ∧ adam7Run s = s.raise .underrun (adam7Need s)) ∨
    (adam7Need s ≤ s.op.filtLen.toNat ∧ ∃ t,
      adam7Go s adam7Passes 0 (List.replicate (imgH s * imageRowBytes s) 0) = .error t ∧
      adam7Run s = raiseFilterTag t s) ∨
    (adam7Need s ≤ s.op.filtLen.toNat ∧ ∃ raw,
      adam7Go s adam7Passes 0 (List.replicate (imgH s * imageRowBytes s) 0) = .ok raw ∧
      adam7Run s = { s.write .raw 0 raw with filtUsed := BitVec.ofNat 32 (adam7Need s) }) := by
  unfold adam7Run
  split
  · rename_i h; exact .inl ⟨h, rfl⟩
  · rename_i h
    cases hr : adam7Go s adam7Passes 0 (List.replicate (imgH s * imageRowBytes s) 0) with
    | error t => exact .inr (.inl ⟨by omega, t, rfl, rfl⟩)
    | ok raw => exact .inr (.inr ⟨by omega, raw, rfl, rfl⟩)

end Sys2Proof.Machine
end

