-- ==== Sys2Proof/Laws/Lzw.lean ====
section
/-! SUPPORT. U0: the payload and its bits, the strings of codes, what a data code does, the states LZW.DECODE runs codes in. -/

namespace Sys2Proof.Machine

/-! The payload (R133). -/

theorem payloadOf_zero (fuel : Nat) (rest : List Byte) : payloadOf fuel (0#8 :: rest) = [] := by
  cases fuel <;> simp [payloadOf]

theorem payloadOf_cut (fuel : Nat) (n : Byte) (rest : List Byte) (h : rest.length < n.toNat) :
    payloadOf (fuel + 1) (n :: rest) = rest := by
  have hn : n ≠ 0#8 := by rintro rfl; simp at h
  simp [payloadOf, hn, h, List.take_of_length_le (Nat.le_of_lt h)]

theorem payloadOf_block (fuel : Nat) (n : Byte) (body rest : List Byte) (hn : n ≠ 0#8) (h : body.length = n.toNat) :
    payloadOf (fuel + 1) (n :: (body ++ rest)) = body ++ payloadOf fuel rest := by
  simp [payloadOf, hn, ← h]

/-- More fuel than bytes changes nothing. -/
theorem payloadOf_fuel (bs : List Byte) (f g : Nat) (hf : bs.length ≤ f) (hg : bs.length ≤ g) :
    payloadOf f bs = payloadOf g bs := by
  induction f generalizing bs g with
  | zero =>
    have : bs = [] := List.length_eq_zero_iff.1 (by omega)
    subst this
    cases g <;> rfl
  | succ f ih =>
    cases bs with
    | nil => cases g <;> rfl
    | cons n rest =>
      cases g with
      | zero => simp at hg
      | succ g =>
        simp only [payloadOf]
        split
        · rfl
        · split
          · rfl
          · rw [ih (rest.drop n.toNat) g (by simp at hf ⊢; omega) (by simp at hg ⊢; omega)]

/-- A payload is not longer than the bytes it is taken from. -/
theorem payloadOf_length (fuel : Nat) (bs : List Byte) : (payloadOf fuel bs).length ≤ bs.length := by
  induction fuel generalizing bs with
  | zero => simp [payloadOf]
  | succ fuel ih =>
    cases bs with
    | nil => simp [payloadOf]
    | cons n rest =>
      simp only [payloadOf]
      split
      · simp
      · split
        · simp
        · have := ih (rest.drop n.toNat)
          simp at this ⊢
          omega

theorem payload_length (s : State) : (payload s).length ≤ s.op.inLen.toNat := by
  have := payloadOf_length (s.bytes .inb 0 s.op.inLen.toNat).length (s.bytes .inb 0 s.op.inLen.toNat)
  simpa [payload] using this

/-! Bits (R66, R134). -/

theorem testBit_bitStream (p : List Byte) (k : Nat) :
    (bitStream p).testBit k = (p.getD (k / 8) 0#8).toNat.testBit (k % 8) := by
  induction p generalizing k with
  | nil => simp [bitStream]
  | cons b rest ih =>
    simp only [bitStream]
    rw [Nat.add_comm, Nat.testBit_two_pow_mul_add _ b.isLt]
    split
    · rename_i h
      have h1 : k / 8 = 0 := by omega
      have h2 : k % 8 = k := by omega
      simp [h1, h2]
    · rename_i h
      have h1 : k / 8 = (k - 8) / 8 + 1 := by omega
      have h2 : k % 8 = (k - 8) % 8 := by omega
      rw [ih, h1, h2]
      simp

theorem testBit_codeAt (stream pos w j : Nat) : (codeAt stream pos w).testBit j = (decide (j < w) && stream.testBit (pos + j)) := by
  unfold codeAt
  rw [Nat.testBit_mod_two_pow, Nat.testBit_div_two_pow, Nat.add_comm]

theorem codeAt_lt (stream pos w : Nat) : codeAt stream pos w < 2 ^ w := Nat.mod_lt _ (Nat.two_pow_pos w)

/-! Strings (R138). -/

theorem codeString_succ (s : State) (fuel : Nat) (code : BitVec 12) (acc : List Byte) :
    codeString s (fuel + 1) code acc =
      if code.toNat < clearCode (minCode s) then code.setWidth 8 :: acc
      else codeString s fuel (s.dictAt code.toNat).prefixCode ((s.dictAt code.toNat).suffix :: acc) := rfl

theorem codeString_acc (s : State) (fuel : Nat) (code : BitVec 12) (acc : List Byte) :
    codeString s fuel code acc = codeString s fuel code [] ++ acc := by
  induction fuel generalizing code acc with
  | zero => rfl
  | succ fuel ih =>
    simp only [codeString]
    split
    · rfl
    · rw [ih _ (_ :: acc), ih _ [_]]; simp

theorem codeString_ne_nil (s : State) (fuel : Nat) (code : BitVec 12) (acc : List Byte) : codeString s fuel code acc ≠ [] := by
  induction fuel generalizing code acc with
  | zero => simp [codeString]
  | succ fuel ih =>
    simp only [codeString]
    split
    · simp
    · exact ih _ _

theorem strOf_ne_nil (s : State) (code : BitVec 12) : strOf s code ≠ [] := codeString_ne_nil s _ code []

/-- A literal's string is the literal. -/
theorem strOf_lit (s : State) (code : BitVec 12) (h : code.toNat < clearCode (minCode s)) : strOf s code = [code.setWidth 8] := by
  simp [strOf, codeString, h]

/-- In a legal state more fuel than the code's number changes nothing: prefixes only get smaller. -/
theorem codeString_fuel (s : State) (hs : LzwInv s) (code : BitVec 12) (f g : Nat) (hc : spelled s code)
    (hf : code.toNat < f) (hg : code.toNat < g) (acc : List Byte) : codeString s f code acc = codeString s g code acc := by
  induction f generalizing code g acc with
  | zero => omega
  | succ f ih =>
    cases g with
    | zero => omega
    | succ g =>
      simp only [codeString]
      split
      · rfl
      · rename_i hlit
        have hgt : eoiCode (minCode s) < code.toNat := by
          have h1 := hc.2.1
          have h2 := hc.2.2
          unfold eoiCode at *
          omega
        obtain ⟨h1, h2⟩ := hs.entries code.toNat hgt hc.1
        exact ih _ g h1 (by omega) (by omega) _

/-- The string of an entry is its prefix's string and its suffix. -/
theorem strOf_entry (s : State) (hs : LzwInv s) (code : BitVec 12) (h : eoiCode (minCode s) < code.toNat)
    (hn : code.toNat < s.lzw.nextCode.toNat) :
    strOf s code = strOf s (s.dictAt code.toNat).prefixCode ++ [(s.dictAt code.toNat).suffix] := by
  obtain ⟨h1, h2⟩ := hs.entries code.toNat h hn
  have hlit : ¬ code.toNat < clearCode (minCode s) := by unfold eoiCode at h; omega
  have hlt := code.isLt
  unfold strOf
  show codeString s (4095 + 1) code [] = _
  rw [codeString_succ, if_neg hlit, codeString_acc, codeString_fuel s hs _ 4095 4096 h1 (by omega) (by omega)]

/-! Adding an entry and data codes (R143 to R148). -/

theorem lzwAddEntry_of_full (first : Byte) (s : State) (h : ¬ (s.lzw.prevValid = true ∧ s.lzw.nextCode.toNat < 4096)) :
    lzwAddEntry first s = s := by
  unfold lzwAddEntry; rw [if_neg h]

theorem lzwAddEntry_of_room (first : Byte) (s : State) (h : s.lzw.prevValid = true ∧ s.lzw.nextCode.toNat < 4096) :
    lzwAddEntry first s =
      { s with
        dict := tablePut s.dict s.lzw.nextCode.toNat [{ prefixCode := s.lzw.prevCode, suffix := first }]
        lzw := lzwGrow { s.lzw with nextCode := s.lzw.nextCode + 1 } } := by
  unfold lzwAddEntry; rw [if_pos h]

/-- Adding an entry changes working registers and the dictionary only. -/
theorem lzwAddEntry_frame (first : Byte) (s : State) :
    lzwAddEntry first s = { s with dict := (lzwAddEntry first s).dict, lzw := (lzwAddEntry first s).lzw } := by
  unfold lzwAddEntry; split <;> rfl

@[simp] theorem lzwGrow_outPos (r : LzwRegs) : (lzwGrow r).outPos = r.outPos := by unfold lzwGrow; split <;> rfl
@[simp] theorem lzwGrow_bitPos (r : LzwRegs) : (lzwGrow r).bitPos = r.bitPos := by unfold lzwGrow; split <;> rfl
@[simp] theorem lzwGrow_nextCode (r : LzwRegs) : (lzwGrow r).nextCode = r.nextCode := by unfold lzwGrow; split <;> rfl
@[simp] theorem lzwGrow_prevCode (r : LzwRegs) : (lzwGrow r).prevCode = r.prevCode := by unfold lzwGrow; split <;> rfl
@[simp] theorem lzwGrow_prevValid (r : LzwRegs) : (lzwGrow r).prevValid = r.prevValid := by unfold lzwGrow; split <;> rfl

theorem lzwGrow_curSize (r : LzwRegs) :
    (lzwGrow r).curSize.toNat =
      if 2 ^ r.curSize.toNat ≤ r.nextCode.toNat ∧ r.curSize.toNat < 12 then r.curSize.toNat + 1 else r.curSize.toNat := by
  unfold lzwGrow
  split
  · rename_i h
    simp only [BitVec.toNat_add]
    have : r.curSize.toNat < 12 := h.2
    simp; omega
  · rfl

theorem nextCode_succ (n : BitVec 13) (h : n.toNat < 4096) : (n + 1).toNat = n.toNat + 1 := by
  simp [BitVec.toNat_add]; omega

/-- The width after an entry was added at `NEXTCODE` (R146). -/
theorem lzwGrow_succ (r : LzwRegs) (h : r.nextCode.toNat < 4096) :
    (lzwGrow { r with nextCode := r.nextCode + 1 }).curSize.toNat =
      if 2 ^ r.curSize.toNat ≤ r.nextCode.toNat + 1 ∧ r.curSize.toNat < 12 then r.curSize.toNat + 1 else r.curSize.toNat := by
  rw [lzwGrow_curSize]
  simp only [nextCode_succ r.nextCode h]

/-- A data code that would overrun sets the flag and does nothing else (R143). -/
theorem lzwData_overrun (str : List Byte) (code : BitVec 12) (s : State)
    (h : s.op.outLen.toNat < s.lzw.outPos.toNat + str.length) : lzwData str code s = s.setOverrun := by
  unfold lzwData; rw [if_pos h]

/-- A data code that fits: its state before the previous code is replaced. -/
theorem lzwData_fits (str : List Byte) (code : BitVec 12) (s : State)
    (h : ¬ s.op.outLen.toNat < s.lzw.outPos.toNat + str.length) :
    lzwData str code s =
      (let s1 := s.write .idx s.lzw.outPos.toNat str
       let s2 := { s1 with lzw := { s1.lzw with outPos := s1.lzw.outPos + BitVec.ofNat 32 str.length } }
       let s3 := lzwAddEntry (str.headD 0) s2
       { s3 with lzw := { s3.lzw with prevCode := code, prevValid := true } }) := by
  unfold lzwData; rw [if_neg h]

/-- What a data code can change (R143 to R148). -/
theorem lzwData_frame (str : List Byte) (code : BitVec 12) (s : State) :
    lzwData str code s =
      { s with
        lzw := (lzwData str code s).lzw, dict := (lzwData str code s).dict, mem := (lzwData str code s).mem,
        status := { s.status with overrun := (lzwData str code s).status.overrun } } := by
  by_cases h : s.op.outLen.toNat < s.lzw.outPos.toNat + str.length
  · rw [lzwData_overrun str code s h]; rfl
  · rw [lzwData_fits str code s h]
    simp only
    rw [lzwAddEntry_frame]
    rfl

theorem lzwData_outPos (str : List Byte) (code : BitVec 12) (s : State)
    (h : ¬ s.op.outLen.toNat < s.lzw.outPos.toNat + str.length) :
    (lzwData str code s).lzw.outPos.toNat = s.lzw.outPos.toNat + str.length := by
  have hlt := s.op.outLen.isLt
  rw [lzwData_fits str code s h]
  simp only [lzwAddEntry]
  split <;> simp [BitVec.toNat_add] <;> omega

theorem lzwData_byte (str : List Byte) (code : BitVec 12) (s : State)
    (h : ¬ s.op.outLen.toNat < s.lzw.outPos.toNat + str.length) (sp : Space) (a : Nat) :
    (lzwData str code s).byte sp a = (s.write .idx s.lzw.outPos.toNat str).byte sp a := by
  rw [lzwData_fits str code s h]
  simp only
  rw [lzwAddEntry_frame]
  rfl

/-- Every byte outside `IDX[OUT_POS .. OUT_LEN)` is unchanged by a data code (R64). -/
theorem lzwData_byte_outside (str : List Byte) (code : BitVec 12) (s : State) (sp : Space) (a : Nat)
    (ha : ¬ (sp = .idx ∧ s.lzw.outPos.toNat ≤ a ∧ a < s.op.outLen.toNat)) :
    (lzwData str code s).byte sp a = s.byte sp a := by
  by_cases h : s.op.outLen.toNat < s.lzw.outPos.toNat + str.length
  · rw [lzwData_overrun str code s h]; rfl
  · rw [lzwData_byte str code s h]
    refine State.byte_write_outside _ _ _ _ _ _ ?_
    by_cases hs : sp = .idx
    · right
      have : ¬ (s.lzw.outPos.toNat ≤ a ∧ a < s.op.outLen.toNat) := fun h' => ha ⟨hs, h'⟩
      omega
    · exact .inl hs

theorem lzwData_regs (str : List Byte) (code : BitVec 12) (s : State)
    (h : ¬ s.op.outLen.toNat < s.lzw.outPos.toNat + str.length) :
    (lzwData str code s).lzw.bitPos = s.lzw.bitPos ∧ (lzwData str code s).lzw.prevCode = code ∧
      (lzwData str code s).lzw.prevValid = true := by
  rw [lzwData_fits str code s h]
  simp only [lzwAddEntry]
  split <;> simp

/-- A data code that adds no entry leaves dictionary, `NEXTCODE` and `CURSIZE` (R145, R147). -/
theorem lzwData_noEntry (str : List Byte) (code : BitVec 12) (s : State)
    (h : ¬ s.op.outLen.toNat < s.lzw.outPos.toNat + str.length)
    (hn : ¬ (s.lzw.prevValid = true ∧ s.lzw.nextCode.toNat < 4096)) :
    (lzwData str code s).dict = s.dict ∧ (lzwData str code s).lzw.nextCode = s.lzw.nextCode ∧
      (lzwData str code s).lzw.curSize = s.lzw.curSize := by
  rw [lzwData_fits str code s h]
  simp only
  rw [lzwAddEntry_of_full _ _ (by exact hn)]
  exact ⟨rfl, rfl, rfl⟩

/-- A data code that adds an entry (R145, R146). -/
theorem lzwData_entry (str : List Byte) (code : BitVec 12) (s : State)
    (h : ¬ s.op.outLen.toNat < s.lzw.outPos.toNat + str.length)
    (hn : s.lzw.prevValid = true ∧ s.lzw.nextCode.toNat < 4096) :
    (lzwData str code s).dict =
        tablePut s.dict s.lzw.nextCode.toNat [{ prefixCode := s.lzw.prevCode, suffix := str.headD 0#8 }] ∧
      (lzwData str code s).lzw.nextCode.toNat = s.lzw.nextCode.toNat + 1 ∧
      (lzwData str code s).lzw.curSize.toNat =
        (if 2 ^ s.lzw.curSize.toNat ≤ s.lzw.nextCode.toNat + 1 ∧ s.lzw.curSize.toNat < 12
          then s.lzw.curSize.toNat + 1 else s.lzw.curSize.toNat) := by
  rw [lzwData_fits str code s h]
  simp only
  rw [lzwAddEntry_of_room _ _ (by exact hn)]
  refine ⟨rfl, ?_, ?_⟩
  · simp only [lzwGrow_nextCode]
    exact nextCode_succ _ hn.2
  · exact lzwGrow_succ _ hn.2

theorem dictAt_put_same (s : State) (k : Nat) (e : DictEntry) : ({ s with dict := tablePut s.dict k [e] } : State).dictAt k = e := by
  have := tableGet_tablePut_inside s.dict k [e] 0 (by simp)
  unfold State.dictAt
  simp only [Nat.add_zero] at this
  simp [this]

theorem dictAt_put_other (s : State) (k j : Nat) (e : DictEntry) (h : j ≠ k) :
    ({ s with dict := tablePut s.dict k [e] } : State).dictAt j = s.dictAt j := by
  unfold State.dictAt
  simp only
  rw [tableGet_tablePut_outside s.dict k [e] j (by simp; omega)]

/-! The states codes are run in. -/

theorem LzwInv.data {s : State} (hs : LzwInv s) (str : List Byte) (code : BitVec 12)
    (hc : (code.toNat < s.lzw.nextCode.toNat ∨
        (code.toNat = s.lzw.nextCode.toNat ∧ s.lzw.prevValid = true ∧ s.lzw.nextCode.toNat < 4096)) ∧
      code.toNat ≠ clearCode (minCode s) ∧ code.toNat ≠ eoiCode (minCode s)) : LzwInv (lzwData str code s) := by
  by_cases h : s.op.outLen.toNat < s.lzw.outPos.toNat + str.length
  · rw [lzwData_overrun str code s h]
    exact ⟨hs.1, hs.2, hs.3, hs.4, hs.5, hs.6, hs.7, hs.8⟩
  · obtain ⟨_, hprev, hvalid⟩ := lzwData_regs str code s h
    have hout := lzwData_outPos str code s h
    have hframe := lzwData_frame str code s
    have hop : (lzwData str code s).op = s.op := by rw [hframe]
    have hmin : minCode (lzwData str code s) = minCode s := by unfold minCode; rw [hop]
    have hepoch : (lzwData str code s).epoch = s.epoch := by rw [hframe]
    by_cases hn : s.lzw.prevValid = true ∧ s.lzw.nextCode.toNat < 4096
    · obtain ⟨hdict, hnext, hcur⟩ := lzwData_entry str code s h hn
      have hsame (k : Nat) (hk : k ≠ s.lzw.nextCode.toNat) : (lzwData str code s).dictAt k = s.dictAt k := by
        unfold State.dictAt
        rw [hdict, hepoch, tableGet_tablePut_outside _ _ _ _ (by simp; omega)]
      have hnew : (lzwData str code s).dictAt s.lzw.nextCode.toNat =
          { prefixCode := s.lzw.prevCode, suffix := str.headD 0#8 } := by
        unfold State.dictAt
        have := tableGet_tablePut_inside s.dict s.lzw.nextCode.toNat
          [({ prefixCode := s.lzw.prevCode, suffix := str.headD 0#8 } : DictEntry)] 0 (by simp)
        rw [Nat.add_zero] at this
        rw [hdict, this]
        rfl
      have hw := hs.width
      have hp := hs.prev hn.1
      refine ⟨by rw [hmin]; exact hs.minLegal, ?_, ?_, ?_, ?_, ?_, ?_, ?_⟩
      · rw [hmin, hcur]; split <;> omega
      · rw [hmin, hnext]; have := hs.next; omega
      · rw [hcur, hnext]
        have hf := hs.fits
        split
        · rw [pow_succ]; have := Nat.one_le_two_pow (n := s.lzw.curSize.toNat); omega
        · rename_i hg
          by_cases h12 : s.lzw.curSize.toNat < 12
          · have : ¬ 2 ^ s.lzw.curSize.toNat ≤ s.lzw.nextCode.toNat + 1 := fun h' => hg ⟨h', h12⟩
            omega
          · have : s.lzw.curSize.toNat = 12 := by omega
            rw [this]; omega
      · rw [hop, hout]; omega
      · intro k hk1 hk2
        rw [hmin] at hk1
        rw [hnext] at hk2
        unfold spelled
        rw [hmin, hnext]
        by_cases hk : k = s.lzw.nextCode.toNat
        · subst hk
          rw [hnew]
          exact ⟨⟨by have := hp.1; simp only; omega, hp.2⟩, hp.1⟩
        · rw [hsame k hk]
          obtain ⟨⟨a1, a2⟩, a3⟩ := hs.entries k hk1 (by omega)
          exact ⟨⟨by omega, a2⟩, a3⟩
      · intro _
        unfold spelled
        rw [hmin, hnext, hprev]
        exact ⟨by omega, hc.2⟩
      · intro hv; rw [hvalid] at hv; exact absurd hv (by decide)
    · obtain ⟨hdict, hnext, hcur⟩ := lzwData_noEntry str code s h hn
      have hsame (k : Nat) : (lzwData str code s).dictAt k = s.dictAt k := by
        unfold State.dictAt; rw [hdict, hepoch]
      refine ⟨by rw [hmin]; exact hs.minLegal, by rw [hmin, hcur]; exact hs.width, by rw [hmin, hnext]; exact hs.next,
        by rw [hcur, hnext]; exact hs.fits, by rw [hop, hout]; omega, ?_, ?_, ?_⟩
      · intro k hk1 hk2
        rw [hmin] at hk1
        rw [hnext] at hk2
        unfold spelled
        rw [hmin, hnext, hsame k]
        exact hs.entries k hk1 hk2
      · intro _
        unfold spelled
        rw [hmin, hnext, hprev]
        exact ⟨by rcases hc.1 with h' | h' <;> [exact h'; exact absurd ⟨h'.2.1, h'.2.2⟩ hn], hc.2⟩
      · intro hv; rw [hvalid] at hv; exact absurd hv (by decide)

theorem LzwInv.clear {s : State} (hs : LzwInv s) : LzwInv (lzwClear s) := by
  have hm := hs.minLegal
  have h8 : 2 ^ minCode s ≤ 2 ^ 8 := Nat.pow_le_pow_right (by decide) hm.2
  have hnext : (lzwClear s).lzw.nextCode.toNat = eoiCode (minCode s) + 1 := by
    simp only [lzwClear, lzwClearRegs, eoiCode, clearCode, BitVec.toNat_ofNat]
    exact Nat.mod_eq_of_lt (by omega)
  have hcur : (lzwClear s).lzw.curSize.toNat = minCode s + 1 := by
    simp only [lzwClear, lzwClearRegs, BitVec.toNat_ofNat]; omega
  have hmin : minCode (lzwClear s) = minCode s := rfl
  have h2 : 2 ≤ 2 ^ minCode s := by
    calc 2 = 2 ^ 1 := rfl
      _ ≤ 2 ^ minCode s := Nat.pow_le_pow_right (by decide) hm.1
  refine ⟨hm, ?_, ?_, ?_, hs.room, ?_, ?_, ?_⟩
  · rw [hmin, hcur]; omega
  · rw [hmin, hnext]; unfold eoiCode clearCode; omega
  · rw [hcur, hnext, pow_succ]; unfold eoiCode clearCode; omega
  · intro k h1 h2; rw [hmin] at h1; rw [hnext] at h2; omega
  · intro hv; simp [lzwClear, lzwClearRegs] at hv
  · intro _; rw [hmin, hnext]

theorem LzwInv.of_lzw {s t : State} (hs : LzwInv s) (h : t = { s with status := t.status, errinfo := t.errinfo, mem := t.mem, free := t.free }) :
    LzwInv t := by
  rw [h]
  exact ⟨hs.1, hs.2, hs.3, hs.4, hs.5, hs.6, hs.7, hs.8⟩

theorem lzwInvalid_frame (code : BitVec 12) (s : State) :
    lzwInvalid code s =
      { s.raise .lzwCode code.toNat with mem := (lzwInvalid code s).mem, free := (lzwInvalid code s).free } := rfl

/-- Moving `BITPOS` keeps the invariant. -/
theorem LzwInv.advance {s : State} (hs : LzwInv s) : LzwInv (lzwAdvance s) :=
  ⟨hs.1, hs.2, hs.3, hs.4, hs.5, hs.6, hs.7, hs.8⟩

/-! Codes as instructions (R97). -/

/-- The class of a code decides the instruction and the meaning alike. -/
theorem exec_decode_code (s : State) (v : Nat) (hw : s.lzw.curSize.toNat ≤ 12) (hv : v < 2 ^ s.lzw.curSize.toNat) :
    exec (decode (.code (codeCtx s)) v) s = .next (lzwCode (BitVec.ofNat 12 v) s) := by
  have h12 : 2 ^ s.lzw.curSize.toNat ≤ 2 ^ 12 := Nat.pow_le_pow_right (by decide) hw
  have hv' : (BitVec.ofNat 12 v).toNat = v := by simp only [BitVec.toNat_ofNat]; omega
  have hmod : v % 2 ^ (codeCtx s).width = v := Nat.mod_eq_of_lt hv
  simp only [decode, hmod, decodeCode, lzwCode, hv']
  cases classify (codeCtx s) v <;> rfl

/-- Every code keeps the states codes are run in. -/
theorem LzwInv.code {s : State} (hs : LzwInv s) (code : BitVec 12) :
    LzwInv (lzwCode code s) := by
  unfold lzwCode
  have hw := hs.width
  have hnext := hs.next
  have h12 : 2 ^ s.lzw.curSize.toNat ≤ 2 ^ 12 := Nat.pow_le_pow_right (by decide) hw.2
  unfold classify
  have hctx : (codeCtx s).m = minCode s ∧ (codeCtx s).next = s.lzw.nextCode.toNat ∧ (codeCtx s).valid = s.lzw.prevValid :=
    ⟨rfl, rfl, rfl⟩
  rw [hctx.1, hctx.2.1, hctx.2.2]
  split_ifs with h1 h2 h3 h4 h5
  · exact hs.clear
  · exact hs.of_lzw rfl
  · exact hs.data _ code ⟨.inl (by unfold eoiCode at hnext; omega), h1, h2⟩
  · exact hs.data _ code ⟨.inl h4, h1, h2⟩
  · have hlt : s.lzw.nextCode.toNat < 4096 := by omega
    refine hs.data _ _ ?_
    have : (s.lzw.nextCode.setWidth 12).toNat = s.lzw.nextCode.toNat := by
      simp only [BitVec.toNat_setWidth]; omega
    rw [this]
    exact ⟨.inr ⟨rfl, h5.2, hlt⟩, by rw [← h5.1]; exact h1, by rw [← h5.1]; exact h2⟩
  · exact hs.of_lzw rfl

/-! The loop (R130, R134). -/

/-- All a turn can do. -/
theorem lzwTurn_cases (stream nbits : Nat) (s : State) :
    (nbits < s.lzw.bitPos.toNat + s.lzw.curSize.toNat ∧ lzwTurn stream nbits s = s.setExhausted) ∨
    (s.lzw.bitPos.toNat + s.lzw.curSize.toNat ≤ nbits ∧
      lzwTurn stream nbits s = lzwCode (lzwFetch stream s) (lzwAdvance s)) := by
  unfold lzwTurn
  split
  · rename_i h; exact .inl ⟨h, rfl⟩
  · rename_i h; exact .inr ⟨by omega, rfl⟩

/-- What every turn keeps, the loop keeps. -/
theorem lzwLoop_keeps (P : State → Prop) (stream nbits : Nat) (hstep : ∀ s, P s → P (lzwTurn stream nbits s)) (turns : Nat)
    (s : State) (h : P s) : P (lzwLoop stream nbits turns s) := by
  induction turns generalizing s with
  | zero => exact h
  | succ turns ih =>
    simp only [lzwLoop]
    split
    · exact hstep s h
    · exact ih _ (hstep s h)

/-- The code a legal state fetches is of the current width. -/
theorem lzwFetch_lt {s : State} (hs : LzwInv s) (stream : Nat) :
    (lzwFetch stream s).toNat = codeAt stream s.lzw.bitPos.toNat s.lzw.curSize.toNat ∧
      (lzwFetch stream s).toNat < 2 ^ s.lzw.curSize.toNat := by
  have h1 := codeAt_lt stream s.lzw.bitPos.toNat s.lzw.curSize.toNat
  have h2 : 2 ^ s.lzw.curSize.toNat ≤ 2 ^ 12 := Nat.pow_le_pow_right (by decide) hs.width.2
  have h3 : (lzwFetch stream s).toNat = codeAt stream s.lzw.bitPos.toNat s.lzw.curSize.toNat := by
    unfold lzwFetch; rw [BitVec.toNat_ofNat]; exact Nat.mod_eq_of_lt (by omega)
  exact ⟨h3, by omega⟩

theorem LzwInv.turn {s : State} (hs : LzwInv s) (stream nbits : Nat) : LzwInv (lzwTurn stream nbits s) := by
  rcases lzwTurn_cases stream nbits s with ⟨_, h⟩ | ⟨_, h⟩
  · rw [h]; exact hs.of_lzw rfl
  · rw [h]
    exact hs.advance.code _

/-- A code leaves `BITPOS` as the fetch has put it. -/
theorem lzwCode_bitPos (code : BitVec 12) (s : State) : (lzwCode code s).lzw.bitPos = s.lzw.bitPos := by
  have data (str : List Byte) (c : BitVec 12) : (lzwData str c s).lzw.bitPos = s.lzw.bitPos := by
    by_cases h : s.op.outLen.toNat < s.lzw.outPos.toNat + str.length
    · rw [lzwData_overrun _ _ _ h]; rfl
    · exact (lzwData_regs _ _ _ h).1
  unfold lzwCode
  split
  · rfl
  · rfl
  · exact data _ _
  · exact data _ _
  · exact data _ _
  · rfl

/-- A turn that does not halt moves `BITPOS` on by the width, within the payload. -/
theorem lzwTurn_bitPos (stream nbits : Nat) (s : State) (hb : nbits < 2 ^ 32)
    (h : (lzwTurn stream nbits s).status.exhausted = false) :
    (lzwTurn stream nbits s).lzw.bitPos.toNat = s.lzw.bitPos.toNat + s.lzw.curSize.toNat ∧
      s.lzw.bitPos.toNat + s.lzw.curSize.toNat ≤ nbits := by
  rcases lzwTurn_cases stream nbits s with ⟨_, h'⟩ | ⟨h1, h'⟩
  · rw [h'] at h; simp at h
  · rw [h', lzwCode_bitPos]
    refine ⟨?_, h1⟩
    have := s.lzw.curSize.isLt
    simp only [lzwAdvance, BitVec.toNat_add, BitVec.toNat_setWidth]
    omega

end Sys2Proof.Machine
end

