-- ==== Sys2Proof/Laws/PerInstr.lean ====
section
/-! SUPPORT. Per instruction: the encoding of every well-formed instruction fits the place it stands at (32 bits of a register,
`CURSIZE` bits of a code, 8 bits of a tag). -/

namespace Sys2Proof.Laws.Encoding

/-- The encoding fits its site. -/
def Statement (i : Instr) : Prop := ∀ c : CodeCtx, i.wf c = true → encode c i < 2 ^ (i.site c).bits

/-- In a legal state the two control codes fit the width (R96). -/
theorem control_codes_fit (c : CodeCtx) (h : c.legal = true) : 2 ^ c.m + 1 < 2 ^ c.width := by
  simp only [CodeCtx.legal, Bool.and_eq_true, decide_eq_true_eq] at h
  have h1 : 2 ^ (c.m + 1) ≤ 2 ^ c.width := Nat.pow_le_pow_right (by decide) (by omega)
  have h2 : 2 ^ 1 ≤ 2 ^ c.m := Nat.pow_le_pow_right (by decide) (by omega)
  rw [pow_succ] at h1
  omega

theorem nop : Statement .nop := fun c _ => by simp only [encode, Instr.site, Site.bits]; decide
theorem lzwDecode : Statement .lzwDecode := fun c _ => by simp only [encode, Instr.site, Site.bits]; decide
theorem blitGif : Statement .blitGif := fun c _ => by simp only [encode, Instr.site, Site.bits]; decide
theorem defilterRun : Statement .defilterRun := fun c _ => by simp only [encode, Instr.site, Site.bits]; decide
theorem adam7Run : Statement .adam7Run := fun c _ => by simp only [encode, Instr.site, Site.bits]; decide
theorem unpackIdx : Statement .unpackIdx := fun c _ => by simp only [encode, Instr.site, Site.bits]; decide
theorem unpackRgba : Statement .unpackRgba := fun c _ => by simp only [encode, Instr.site, Site.bits]; decide
theorem compReset : Statement .compReset := fun c _ => by simp only [encode, Instr.site, Site.bits]; decide
theorem compFrame : Statement .compFrame := fun c _ => by simp only [encode, Instr.site, Site.bits]; decide
theorem deltaBbox : Statement .deltaBbox := fun c _ => by simp only [encode, Instr.site, Site.bits]; decide
theorem deltaBlend : Statement .deltaBlend := fun c _ => by simp only [encode, Instr.site, Site.bits]; decide
theorem cmdReserved (op : Byte) : Statement (.cmdReserved op) := fun _ _ => Nat.lt_trans op.isLt (by decide : 2 ^ 8 < 2 ^ 32)
theorem lzwClear : Statement .lzwClear := fun c h => Nat.lt_trans (Nat.lt_succ_self _) (control_codes_fit c h)
theorem lzwEoi : Statement .lzwEoi := fun c h => control_codes_fit c h
theorem lzwLit (code : BitVec 12) : Statement (.lzwLit code) := by
  intro c h
  simp only [Instr.wf, Bool.and_eq_true, decide_eq_true_eq] at h
  have := control_codes_fit c h.1
  simp only [encode, Instr.site, Site.bits]
  omega
theorem lzwRef (code : BitVec 12) : Statement (.lzwRef code) := by
  intro c h
  simp only [Instr.wf, Bool.and_eq_true, decide_eq_true_eq] at h
  exact h.1.1.2
theorem lzwKwkwk : Statement .lzwKwkwk := by
  intro c h
  simp only [Instr.wf, Bool.and_eq_true, decide_eq_true_eq] at h
  exact h.2
theorem lzwInvalid (code : BitVec 12) : Statement (.lzwInvalid code) := by
  intro c h
  simp only [Instr.wf, Bool.and_eq_true, decide_eq_true_eq] at h
  exact h.1.2
theorem filtNone (row : Nat) : Statement (.filtNone row) := fun c _ => by simp only [encode, Instr.site, Site.bits]; decide
theorem filtSub (row : Nat) : Statement (.filtSub row) := fun c _ => by simp only [encode, Instr.site, Site.bits]; decide
theorem filtUp (row : Nat) : Statement (.filtUp row) := fun c _ => by simp only [encode, Instr.site, Site.bits]; decide
theorem filtAvg (row : Nat) : Statement (.filtAvg row) := fun c _ => by simp only [encode, Instr.site, Site.bits]; decide
theorem filtPaeth (row : Nat) : Statement (.filtPaeth row) := fun c _ => by simp only [encode, Instr.site, Site.bits]; decide
theorem filtReserved (tag : Byte) (row : Nat) : Statement (.filtReserved tag row) := fun _ _ => tag.isLt
theorem disposeNone (phase : DisposePhase) : Statement (.disposeNone phase) := fun c _ => by simp only [encode, Instr.site, Site.bits]; decide
theorem disposeClearToBackground (phase : DisposePhase) : Statement (.disposeClearToBackground phase) := fun c _ => by simp only [encode, Instr.site, Site.bits]; decide
theorem disposeRestoreToPrevious (phase : DisposePhase) : Statement (.disposeRestoreToPrevious phase) := fun c _ => by simp only [encode, Instr.site, Site.bits]; decide
theorem disposeReserved (phase : DisposePhase) : Statement (.disposeReserved phase) := fun c _ => by simp only [encode, Instr.site, Site.bits]; decide
theorem blendSource : Statement .blendSource := fun c _ => by simp only [encode, Instr.site, Site.bits]; decide
theorem blendOver : Statement .blendOver := fun c _ => by simp only [encode, Instr.site, Site.bits]; decide
theorem rowOrderSequential : Statement .rowOrderSequential := fun c _ => by simp only [encode, Instr.site, Site.bits]; decide
theorem rowOrderInterlaced : Statement .rowOrderInterlaced := fun c _ => by simp only [encode, Instr.site, Site.bits]; decide
theorem transpOff : Statement .transpOff := fun c _ => by simp only [encode, Instr.site, Site.bits]; decide
theorem transpOn : Statement .transpOn := fun c _ => by simp only [encode, Instr.site, Site.bits]; decide
theorem orderRgba : Statement .orderRgba := fun c _ => by simp only [encode, Instr.site, Site.bits]; decide
theorem orderBgra : Statement .orderBgra := fun c _ => by simp only [encode, Instr.site, Site.bits]; decide
theorem ctypeGray : Statement .ctypeGray := fun c _ => by simp only [encode, Instr.site, Site.bits]; decide
theorem ctypeRgb : Statement .ctypeRgb := fun c _ => by simp only [encode, Instr.site, Site.bits]; decide
theorem ctypePalette : Statement .ctypePalette := fun c _ => by simp only [encode, Instr.site, Site.bits]; decide
theorem ctypeGrayAlpha : Statement .ctypeGrayAlpha := fun c _ => by simp only [encode, Instr.site, Site.bits]; decide
theorem ctypeRgba : Statement .ctypeRgba := fun c _ => by simp only [encode, Instr.site, Site.bits]; decide
theorem ctypeReserved (value : BitVec 3) : Statement (.ctypeReserved value) := fun _ _ => Nat.lt_trans value.isLt (by decide : 2 ^ 3 < 2 ^ 32)

end Sys2Proof.Laws.Encoding
end

