-- ==== Sys2Proof/Laws/Unpack.lean ====
section
/-! SUPPORT. U4 and the frame delta: what expanding an image leaves where, and what the bounding box holds. -/

namespace Sys2Proof.Machine

/-! Lists of equal pieces. -/

/-- Piece `i` of a list of four-byte pieces stands at `4 * i`. -/
theorem flatMap_getElem?_piece {β : Type} (f : β → List Byte) (l : List β) (hf : ∀ b ∈ l, (f b).length = 4) (i : Nat) (b : β)
    (hb : l[i]? = some b) (k : Nat) (hk : k < 4) : (l.flatMap f)[4 * i + k]? = (f b)[k]? := by
  induction l generalizing i with
  | nil => simp at hb
  | cons c l ih =>
    have hc := hf c List.mem_cons_self
    rw [List.flatMap_cons]
    cases i with
    | zero =>
      simp only [List.getElem?_cons_zero, Option.some.injEq] at hb
      subst hb
      rw [Nat.mul_zero, Nat.zero_add, List.getElem?_append_left (by omega)]
    | succ i =>
      rw [List.getElem?_append_right (by omega), hc]
      have e : 4 * (i + 1) + k - 4 = 4 * i + k := by omega
      rw [e]
      exact ih (fun b hb => hf b (List.mem_cons_of_mem _ hb)) i (by simpa using hb)

theorem flatMap_length_pieces {β : Type} (f : β → List Byte) (l : List β) (hf : ∀ b ∈ l, (f b).length = 4) :
    (l.flatMap f).length = 4 * l.length := by
  induction l with
  | nil => simp
  | cons c l ih =>
    rw [List.flatMap_cons, List.length_append, ih fun b hb => hf b (List.mem_cons_of_mem _ hb), hf c List.mem_cons_self,
      List.length_cons]
    ring

/-! Expanding an image (R235, R247). -/

/-- All an expansion can do: the first pixel without a colour is reported, or every pixel is written. -/
theorem expandImage_cases (pixel : State → Nat → Nat → Option (List Byte)) (s : State) :
    (∃ p, (pixelsOf (imgW s) (imgH s)).find? (fun p => (pixel s p.1 p.2).isNone) = some p ∧
      expandImage pixel s = (s.raise .palIndex (p.2 * imgW s + p.1)).forget .pix 0 (imgW s * imgH s * 4)) ∨
    ((∀ x y, x < imgW s → y < imgH s → (pixel s x y).isSome) ∧
      expandImage pixel s =
        s.write .pix 0 ((pixelsOf (imgW s) (imgH s)).flatMap fun p => (pixel s p.1 p.2).getD [])) := by
  unfold expandImage
  simp only
  cases h : (pixelsOf (imgW s) (imgH s)).find? fun p => (pixel s p.1 p.2).isNone with
  | some p => exact .inl ⟨p, rfl, rfl⟩
  | none =>
    refine .inr ⟨fun x y hx hy => ?_, rfl⟩
    have := List.find?_eq_none.1 h (x, y) (by simp [hx, hy])
    simpa [← Option.isSome_iff_ne_none, Option.isNone_iff_eq_none] using this

/-- Every pixel has a colour: the image is written, pixel by pixel. -/
theorem expandImage_ok (pixel : State → Nat → Nat → Option (List Byte)) (colour : Nat → Nat → List Byte) (s : State)
    (hc : ∀ x y, x < imgW s → y < imgH s → pixel s x y = some (colour x y)) :
    expandImage pixel s = s.write .pix 0 ((pixelsOf (imgW s) (imgH s)).flatMap fun p => colour p.1 p.2) := by
  rcases expandImage_cases pixel s with ⟨p, hp, _⟩ | ⟨_, h⟩
  · have hm := (mem_pixelsOf _ _ p).1 (List.mem_of_find?_eq_some hp)
    have := List.find?_some hp
    rw [hc p.1 p.2 hm.1 hm.2] at this
    cases this
  · rw [h]
    congr 1
    refine List.flatMap_congr fun p hp => ?_
    rw [mem_pixelsOf] at hp
    rw [hc p.1 p.2 hp.1 hp.2]
    rfl

/-- The four bytes of a written pixel. -/
theorem pixels_bytes (colour : Nat → Nat → List Byte) (s : State) (w h : Nat) (h4 : ∀ x y, (colour x y).length = 4) (x y : Nat)
    (hx : x < w) (hy : y < h) :
    (s.write .pix 0 ((pixelsOf w h).flatMap fun p => colour p.1 p.2)).bytes .pix (4 * (y * w + x)) 4 = colour x y := by
  have hlen : ((pixelsOf w h).flatMap fun p => colour p.1 p.2).length = 4 * (w * h) := by
    rw [flatMap_length_pieces _ _ fun b _ => h4 b.1 b.2, length_pixelsOf]
  have hlt : y * w + x < w * h := by
    calc y * w + x < y * w + w := by omega
      _ = (y + 1) * w := by ring
      _ ≤ h * w := Nat.mul_le_mul_right _ hy
      _ = w * h := Nat.mul_comm _ _
  refine List.ext_getElem (by rw [State.bytes_length, h4]) fun k h1 h2 => ?_
  rw [State.bytes_length] at h1
  rw [State.bytes_getElem]
  have hk : 4 * (y * w + x) + k < ((pixelsOf w h).flatMap fun p => colour p.1 p.2).length := by rw [hlen]; omega
  have := State.byte_write_inside s .pix 0 _ _ hk
  rw [Nat.zero_add] at this
  rw [this]
  have hp := flatMap_getElem?_piece (fun p : Nat × Nat => colour p.1 p.2) (pixelsOf w h) (fun b _ => h4 b.1 b.2)
    (y * w + x) (x, y) (pixelsOf_getElem? w h x y hx hy) k h1
  rw [List.getElem?_eq_getElem hk, List.getElem?_eq_getElem h2] at hp
  exact Option.some.inj hp

/-- An expansion writes only bytes of the image in `PIX` (R64). -/
theorem expandImage_byte_outside (pixel : State → Nat → Nat → Option (List Byte)) (s : State)
    (h4 : ∀ x y bs, pixel s x y = some bs → bs.length = 4) (sp : Space) (a : Nat)
    (h : ¬ (sp = .pix ∧ a < imgW s * imgH s * 4)) : (expandImage pixel s).byte sp a = s.byte sp a := by
  rcases expandImage_cases pixel s with ⟨p, _, hp⟩ | ⟨hall, hp⟩
  · rw [hp, State.byte_forget_outside]
    · rfl
    · by_cases hs : sp = .pix
      · right; right
        have : ¬ a < imgW s * imgH s * 4 := fun h' => h ⟨hs, h'⟩
        omega
      · exact .inl hs
  · rw [hp]
    refine State.byte_write_outside _ _ _ _ _ _ ?_
    by_cases hs : sp = .pix
    · right; right
      have hlen : ((pixelsOf (imgW s) (imgH s)).flatMap fun p => (pixel s p.1 p.2).getD []).length = 4 * (imgW s * imgH s) := by
        rw [flatMap_length_pieces, length_pixelsOf]
        intro b hb
        rw [mem_pixelsOf] at hb
        obtain ⟨bs, hbs⟩ := Option.isSome_iff_exists.1 (hall b.1 b.2 hb.1 hb.2)
        rw [hbs]
        exact h4 _ _ _ hbs
      have : ¬ a < imgW s * imgH s * 4 := fun h' => h ⟨hs, h'⟩
      omega
    · exact .inl hs

/-- Every pixel form has four bytes. -/
theorem pixel_length (s : State) (x y : Nat) (bs : List Byte) :
    (pixelGray s x y = some bs → bs.length = 4) ∧ (pixelRgb s x y = some bs → bs.length = 4) ∧
      (pixelPalette s x y = some bs → bs.length = 4) ∧ (pixelGrayAlpha s x y = some bs → bs.length = 4) ∧
      (pixelRgba s x y = some bs → bs.length = 4) := by
  refine ⟨?_, ?_, ?_, ?_, ?_⟩
  · simp only [pixelGray, Option.some.injEq]; rintro rfl; rfl
  · simp only [pixelRgb, Option.some.injEq]; rintro rfl; rfl
  · simp only [pixelPalette]
    split
    · intro h; cases h
    · simp only [Option.some.injEq]; rintro rfl; rfl
  · simp only [pixelGrayAlpha, Option.some.injEq]; rintro rfl; rfl
  · simp only [pixelRgba, Option.some.injEq]; rintro rfl; rfl

/-! Least and greatest (R290). -/

theorem foldl_min_le (l : List Nat) (a : Nat) : l.foldl min a ≤ a ∧ ∀ n ∈ l, l.foldl min a ≤ n := by
  induction l generalizing a with
  | nil => simp
  | cons b l ih =>
    rw [List.foldl_cons]
    obtain ⟨h1, h2⟩ := ih (min a b)
    refine ⟨by omega, ?_⟩
    intro n hn
    rcases List.mem_cons.1 hn with rfl | hn
    · omega
    · exact h2 n hn

theorem foldl_min_mem (l : List Nat) (a : Nat) : l.foldl min a = a ∨ l.foldl min a ∈ l := by
  induction l generalizing a with
  | nil => simp
  | cons b l ih =>
    rw [List.foldl_cons]
    rcases ih (min a b) with h | h
    · rw [h]
      rcases Nat.le_total a b with hab | hab
      · left; omega
      · right; rw [Nat.min_eq_right hab]; exact List.mem_cons_self
    · right; exact List.mem_cons_of_mem _ h

/-- `leastOf` is a member no larger than any other. -/
theorem leastOf_spec (l : List Nat) (h : l ≠ []) : leastOf l ∈ l ∧ ∀ n ∈ l, leastOf l ≤ n := by
  cases l with
  | nil => exact absurd rfl h
  | cons a l =>
    simp only [leastOf]
    refine ⟨?_, ?_⟩
    · rcases foldl_min_mem l a with h | h
      · rw [h]; exact List.mem_cons_self
      · exact List.mem_cons_of_mem _ h
    · intro n hn
      rcases List.mem_cons.1 hn with rfl | hn
      · exact (foldl_min_le l _).1
      · exact (foldl_min_le l a).2 n hn

theorem foldl_max_ge (l : List Nat) (a : Nat) : a ≤ l.foldl max a ∧ ∀ n ∈ l, n ≤ l.foldl max a := by
  induction l generalizing a with
  | nil => simp
  | cons b l ih =>
    rw [List.foldl_cons]
    obtain ⟨h1, h2⟩ := ih (max a b)
    refine ⟨by omega, ?_⟩
    intro n hn
    rcases List.mem_cons.1 hn with rfl | hn
    · omega
    · exact h2 n hn

theorem foldl_max_mem (l : List Nat) (a : Nat) : l.foldl max a = a ∨ l.foldl max a ∈ l := by
  induction l generalizing a with
  | nil => simp
  | cons b l ih =>
    rw [List.foldl_cons]
    rcases ih (max a b) with h | h
    · rw [h]
      rcases Nat.le_total a b with hab | hab
      · right; rw [Nat.max_eq_right hab]; exact List.mem_cons_self
      · left; omega
    · right; exact List.mem_cons_of_mem _ h

/-- `greatestOf` is a member no smaller than any other. -/
theorem greatestOf_spec (l : List Nat) (h : l ≠ []) : greatestOf l ∈ l ∧ ∀ n ∈ l, n ≤ greatestOf l := by
  unfold greatestOf
  refine ⟨?_, (foldl_max_ge l 0).2⟩
  rcases foldl_max_mem l 0 with h0 | h0
  · cases l with
    | nil => exact absurd rfl h
    | cons a l =>
      have := (foldl_max_ge (a :: l) 0).2 a List.mem_cons_self
      have ha : a = (a :: l).foldl max 0 := by omega
      rw [← ha]; exact List.mem_cons_self
  · exact h0

theorem mem_differing (s : State) (p : Nat × Nat) :
    p ∈ differing s ↔ p.1 < canvasW s ∧ p.2 < canvasH s ∧ differs s p.1 p.2 = true := by
  simp only [differing, List.mem_filter, mem_pixelsOf]
  tauto

end Sys2Proof.Machine
end

