-- ==== Sys2Proof/Tests/Slice0.lean ====
section
/-! SUPPORT. The model's own tests: ill-formed terms the checks refuse, words written out from the encodings of
spec/30_encoding.md, one or two steps of every instruction with results from the rules' examples and from
spec/95_test_vectors.md, and a witness for every statement that has hypotheses. -/

namespace Sys2Proof.Tests

open Sys2Proof Sys2Proof.Machine Sys2Proof.Claim

-- one theorem after another: each thread of a parallel check reserves a large stack
set_option Elab.async false

/-! Small states. -/

/-- The state after reset with other operand registers. -/
def withOp (o : Operands) : State := { State.reset with op := o }

/-- Put bytes at the start of a buffer. -/
def load (sp : Space) (bs : List Byte) (s : State) : State := s.write sp 0 bs

/-- Put entries at the start of `PAL`. -/
def loadPal (cs : List Rgb) (s : State) : State := { s with pal := tablePut s.pal 0 cs }

/-- The state an instruction goes on to, if it does. -/
def after (i : Instr) (s : State) : Option State :=
  match exec i s with
  | .next t => some t
  | .fault _ => none
  | .refused _ => none

/-- The state a step goes on to, if it does. -/
def stepped (s : State) : Option State :=
  match step s with
  | .next t => some t
  | .fault _ => none
  | .refused _ => none

/-- `STATUS` and `ERRINFO` as the host reads them. -/
def report (s : State) : Word × Word := (s.readReg .status, s.readReg .errinfo)

/-! Ill-formed terms, one for each check (R93, R97, R101, R103, R107). -/

/-- The state the first code of a run with `LZW_MINCS = 2` is read in, with a previous code. -/
def ctx : CodeCtx := { m := 2, width := 3, next := 7, valid := true }

theorem test_illformed_opcode : Instr.wf ctx (.cmdReserved 0x0A#8) = false := by decide

theorem test_illformed_contexts :
    Instr.wf { ctx with m := 0 } .lzwClear = false ∧ Instr.wf { ctx with m := 9, width := 10, next := 514 } .lzwClear = false ∧
    Instr.wf { ctx with width := 2 } .lzwEoi = false ∧ Instr.wf { ctx with width := 13 } .lzwEoi = false ∧
    Instr.wf { ctx with next := 5 } .lzwEoi = false ∧ Instr.wf { ctx with next := 4097 } .lzwEoi = false := by decide

theorem test_illformed_literal : Instr.wf ctx (.lzwLit 4#12) = false := by decide

theorem test_illformed_references :
    Instr.wf ctx (.lzwRef 5#12) = false ∧ Instr.wf ctx (.lzwRef 7#12) = false ∧
    Instr.wf { ctx with next := 10 } (.lzwRef 8#12) = false := by decide

theorem test_illformed_kwkwk :
    Instr.wf { ctx with valid := false } .lzwKwkwk = false ∧ Instr.wf { ctx with next := 8 } .lzwKwkwk = false := by decide

theorem test_illformed_invalid :
    Instr.wf ctx (.lzwInvalid 6#12) = false ∧ Instr.wf ctx (.lzwInvalid 7#12) = false ∧
    Instr.wf ctx (.lzwInvalid 8#12) = false := by decide

theorem test_illformed_tag : Instr.wf ctx (.filtReserved 4#8 0) = false := by decide

theorem test_illformed_ctype :
    Instr.wf ctx (.ctypeReserved 0#3) = false ∧ Instr.wf ctx (.ctypeReserved 2#3) = false ∧
    Instr.wf ctx (.ctypeReserved 3#3) = false ∧ Instr.wf ctx (.ctypeReserved 4#3) = false ∧
    Instr.wf ctx (.ctypeReserved 6#3) = false := by decide

/-! Words, bit by bit from spec/30_encoding.md. -/

/-- R91, R92, R93: `CMD[7:0]`, with the ignored bits [31:8] set in half of the words. -/
theorem test_decode_commands :
    decode .cmd 0b00000000000000000000000000000000 = .nop ∧
    decode .cmd 0b11111111111111111111111100000001 = .lzwDecode ∧
    decode .cmd 0b00000000000000000000000000000010 = .blitGif ∧
    decode .cmd 0b10000000000000000000000100000011 = .defilterRun ∧
    decode .cmd 0b00000000000000000000000000000100 = .adam7Run ∧
    decode .cmd 0b01010101010101010101010100000101 = .unpackIdx ∧
    decode .cmd 0b00000000000000000000000000000110 = .unpackRgba ∧
    decode .cmd 0b00000000000000000000000100000111 = .compReset ∧
    decode .cmd 0b00000000000000000000000000001000 = .compFrame ∧
    decode .cmd 0b10101010101010101010101000001001 = .deltaBbox ∧
    decode .cmd 0b00000000000000000000000000001010 = .deltaBlend ∧
    decode .cmd 0b00000000000000000000000000001011 = .cmdReserved 0x0B#8 ∧
    decode .cmd 0b00000000000000000000000111111111 = .cmdReserved 0xFF#8 := by decide

/-- R96, R97 with `m = 2`: codes of 3 bits; `NEXTCODE = 7`. -/
theorem test_decode_codes :
    decode (.code ctx) 0b100 = .lzwClear ∧ decode (.code ctx) 0b101 = .lzwEoi ∧
    decode (.code ctx) 0b011 = .lzwLit 3#12 ∧ decode (.code ctx) 0b110 = .lzwRef 6#12 ∧
    decode (.code ctx) 0b111 = .lzwKwkwk ∧ decode (.code { ctx with valid := false }) 0b111 = .lzwInvalid 7#12 ∧
    decode (.code { ctx with next := 6 }) 0b111 = .lzwInvalid 7#12 := by decide

/-- R102, R103: all eight bits of the tag. -/
theorem test_decode_tags :
    decode (.tag 3) 0b00000000 = .filtNone 3 ∧ decode (.tag 3) 0b00000001 = .filtSub 3 ∧
    decode (.tag 3) 0b00000010 = .filtUp 3 ∧ decode (.tag 3) 0b00000011 = .filtAvg 3 ∧
    decode (.tag 3) 0b00000100 = .filtPaeth 3 ∧ decode (.tag 3) 0b00000101 = .filtReserved 5#8 3 ∧
    decode (.tag 3) 0b10000001 = .filtReserved 0x81#8 3 := by decide

/-- R111, R112: `COMP_CTL`, `DISPOSE` [1:0] and `BLEND` [4], each with the other field and unassigned bits set. -/
theorem test_decode_compositor_fields :
    decode (.dispose .beforeBlend) 0b11100 = .disposeNone .beforeBlend ∧
    decode (.dispose .afterVisible) 0b10001 = .disposeClearToBackground .afterVisible ∧
    decode (.dispose .beforeBlend) 0b10010 = .disposeRestoreToPrevious .beforeBlend ∧
    decode (.dispose .beforeBlend) 0b10011 = .disposeReserved .beforeBlend ∧
    decode .blend 0b101111 = .blendSource ∧ decode .blend 0b010000 = .blendOver := by decide

/-- R116: `BLIT_CTL`, `INTERLACED` [0], `TRANSP_EN` [1], `ORDER` [2]. -/
theorem test_decode_blitter_fields :
    decode .rowOrder 0b110 = .rowOrderSequential ∧ decode .rowOrder 0b001 = .rowOrderInterlaced ∧
    decode .transp 0b101 = .transpOff ∧ decode .transp 0b010 = .transpOn ∧
    decode .order 0b011 = .orderRgba ∧ decode .order 0b100 = .orderBgra := by decide

/-- R107: `CTYPE` [2:0]. -/
theorem test_decode_colour_types :
    decode .ctype 0b000 = .ctypeGray ∧ decode .ctype 0b010 = .ctypeRgb ∧ decode .ctype 0b011 = .ctypePalette ∧
    decode .ctype 0b100 = .ctypeGrayAlpha ∧ decode .ctype 0b110 = .ctypeRgba ∧
    decode .ctype 0b001 = .ctypeReserved 1#3 ∧ decode .ctype 0b101 = .ctypeReserved 5#3 ∧
    decode .ctype 0b111 = .ctypeReserved 7#3 := by decide

/-- R91, R95, R102: the words of the opcode table by their widths (log entry 11). -/
theorem test_decode_table_words :
    decodeTableWord 32 0x08 = some .compFrame ∧ decodeTableWord 8 0x02 = some (.filtUp 0) ∧
    decodeTableWord 8 0x0A = some .deltaBlend ∧ decodeTableWord 8 0x0B = some (.filtReserved 0x0B#8 0) ∧
    decodeTableWord 16 0x100 = some .lzwClear ∧ decodeTableWord 16 0x101 = some .lzwEoi ∧
    decodeTableWord 16 0x0FF = some (.lzwLit 0xFF#12) ∧ decodeTableWord 16 0x102 = some (.lzwInvalid 0x102#12) ∧
    decodeTableWord 24 0 = none := by decide

/-- R21, R22, R24: places of register fields. -/
theorem test_register_fields :
    let s := withOp { Operands.zero with interlaced := true, transpIdx := 0xAB#8, dispose := 2#2, blend := true }
    s.readReg .blitCtl = 0xAB01#32 ∧ s.readReg .compCtl = 0x12#32 ∧
    (s.raise .lzwCode 6).readReg .status = 0x0506#32 ∧
    { s with lzw := { s.lzw with prevCode := 7#12, prevValid := true } }.readReg .prevCode = 0x1007#32 := by
  decide +kernel

/-! The step, with the host's accesses and placed instructions. -/

/-- R23, R304: `CMD <- 0x000001FF` is opcode 0xFF. -/
theorem test_step_command :
    (stepped { State.reset with host := [.writeReg .cmd 0x1FF#32] }).map report = some (0x0106#32, 0xFF#32) := by
  decide +kernel

/-- R22: `DEPTH` holds five bits; `OUT_POS` ignores a host write. -/
theorem test_step_register_writes :
    (stepped { State.reset with host := [.writeReg .depth 0xFFFFFFFF#32] }).map (·.readReg .depth) = some 0x1F#32 ∧
    (stepped { State.reset with host := [.writeReg .outPos 5#32] }).map (·.readReg .outPos) = some 0#32 := by
  decide +kernel

/-- R44: a buffer byte. -/
theorem test_step_byte_write :
    (stepped { State.reset with host := [.writeByte .pix 7 0x5A#8] }).map (·.hostByte .pix 7) = some (some 0x5A#8) := by
  decide +kernel

/-- R42, R350: a reset zeroes the registers and `COMP_READY`. -/
theorem test_step_reset :
    (stepped { State.reset with host := [.reset], compReady := true, filtUsed := 9, lzw := { LzwRegs.zero with outPos := 4 } }).map
      (fun t => (t.readReg .filtUsed, t.readReg .outPos, t.compReady)) = some (0#32, 0#32, false) := by
  decide +kernel

/-- A placed command runs (log entry 12): LZW.DECODE with `LZW_MINCS = 0` is `E_PARAM(3)` (R130). -/
theorem test_placed_command : (stepped (State.reset.withFetchWord 32 0x01)).map report = some (0x0206#32, 3#32) := by
  decide +kernel

/-- A placed literal 7 of 9 bits is written to `IDX[0]` (R139). -/
theorem test_placed_code :
    (stepped (State.reset.withFetchWord 16 7)).map (fun t => (t.readReg .outPos, t.byte .idx 0)) = some (1#32, 7#8) := by
  decide +kernel

/-- A placed reserved tag is reported at index 0 of `FILT` (R199); a placed Paeth tag reconstructs its row (R197). -/
theorem test_placed_tags :
    (stepped (State.reset.withFetchWord 8 0x85)).map report = some (0x0606#32, 0#32) ∧
    (stepped (State.reset.withFetchWord 8 4)).map (fun t => (report t, t.byte .raw 0, t.filtUsed)) =
      some ((0x0002#32, 0#32), 0#8, 2#32) := by
  decide +kernel

/-! Commands in general. -/

/-- R303: after a fault, NOP leaves `STATUS = 0x0002`, `ERRINFO = 0`. -/
theorem test_nop : (after .nop (State.reset.raise .lzwCode 6)).map report = some (0x0002#32, 0#32) := by decide +kernel

/-- R304. -/
theorem test_cmdReserved : (after (.cmdReserved 0x0B#8) State.reset).map report = some (0x0106#32, 0x0B#32) := by
  decide +kernel

/-! U0. -/

/-- `IN` and `OUT_LEN` for a run with `m = 2`. -/
def lzwState (bytes : List Byte) (outLen : Word) : State :=
  load .inb bytes
    (withOp { Operands.zero with lzwMincs := 2, inLen := BitVec.ofNat 32 bytes.length, outLen := outLen })

/-- Program P1 (R130): `1 1 0 0`, full success. -/
def p1 : State := lzwState [3, 0x4C, 0, 5, 0] 4

/-- What the host sees of a run. -/
def lzwReport (s : State) (n : Nat) : Word × Word × List Word × List Byte :=
  (s.readReg .status, s.errinfo, [s.readReg .outPos, s.readReg .bitPos, s.readReg .curSize, s.readReg .nextCode,
    s.readReg .prevCode], s.bytes .idx 0 n)

/-- Vector L1: codes CLEAR, LIT 1, LIT 1, LIT 0, LIT 0, EOI. -/
theorem test_lzwDecode_p1 :
    (after .lzwDecode p1).map (lzwReport · 4) = some (0x000A#32, 0#32, [4, 20, 4, 9, 0x1000], [1, 1, 0, 0]) := by
  decide +kernel

/-- Vector L2: a KWKWK chain, `1 1 1 1 1 1`. -/
theorem test_lzwDecode_kwkwk :
    (after .lzwDecode (lzwState [2, 0x8C, 0x5F, 0] 6)).map (lzwReport · 6) =
      some (0x000A#32, 0#32, [6, 16, 4, 8, 0x1007], [1, 1, 1, 1, 1, 1]) := by
  decide +kernel

/-- The state of R136's example: `NEXTCODE = 9`, `CURSIZE = 4`, `PREVCODE = 7`. -/
theorem test_lzwClear :
    (after .lzwClear
        { p1 with lzw := { LzwRegs.zero with nextCode := 9, curSize := 4, prevCode := 7, prevValid := true } }).map
      (fun t => (t.lzw.nextCode, t.lzw.curSize, t.lzw.prevValid)) = some (6#13, 3#4, false) := by
  decide +kernel

/-- R137. -/
theorem test_lzwEoi : (after .lzwEoi p1).map (fun t => (t.status.eoi, t.lzw == p1.lzw)) = some (true, true) := by
  decide +kernel

/-- `m = 2`, previous code `prev`, `NEXTCODE = next`, `CURSIZE = 3`, with `DICT[6] = (1, 1)`. -/
def midRun (prev : BitVec 12) (next : BitVec 13) : State :=
  { p1 with
    dict := [(6, { prefixCode := 1, suffix := 1 })]
    lzw := { outPos := 0, bitPos := 6, curSize := 3, nextCode := next, prevCode := prev, prevValid := true } }

/-- R145's example: `PREVCODE = 1`, `LIT 0`, `NEXTCODE = 7`: `DICT[7] <- (1, 0)`, `NEXTCODE = 8`; R146: `CURSIZE = 4`. -/
theorem test_lzwLit :
    (after (.lzwLit 0#12) (midRun 1 7)).map
      (fun t => (t.bytes .idx 0 1, t.dictAt 7, t.lzw.nextCode, t.lzw.curSize, t.lzw.prevCode)) =
      some ([0], { prefixCode := 1, suffix := 0 }, 8#13, 4#4, 0#12) := by
  decide +kernel

/-- R140's example: `6/3 → 1 1 ; DICT[7] = (6, 1) ; 8, 4`. -/
theorem test_lzwRef :
    (after (.lzwRef 6#12) (midRun 6 7)).map
      (fun t => (t.bytes .idx 0 2, t.dictAt 7, t.lzw.nextCode, t.lzw.curSize)) =
      some ([1, 1], { prefixCode := 6, suffix := 1 }, 8#13, 4#4) := by
  decide +kernel

/-- R143's example: `OUT_LEN = 3`, `OUT_POS = 2`, `S = 1 1`: only `OVERRUN`. -/
theorem test_lzwRef_overrun :
    let s := { midRun 6 7 with op := { p1.op with outLen := 3 }, lzw := { (midRun 6 7).lzw with outPos := 2 } }
    after (.lzwRef 6#12) s = some { s with status := { s.status with overrun := true } } := by
  decide +kernel

/-- R141's example: `6/3 → 1 1 ; DICT[6] = (1, 1) ; 7, 3`. -/
theorem test_lzwKwkwk :
    (after .lzwKwkwk { midRun 1 6 with dict := [] }).map
      (fun t => (t.bytes .idx 0 2, t.dictAt 6, t.lzw.nextCode, t.lzw.curSize, t.lzw.prevCode)) =
      some ([1, 1], { prefixCode := 1, suffix := 1 }, 7#13, 3#4, 6#12) := by
  decide +kernel

/-- R142: `E_LZW_CODE(6)`; the working registers stay. -/
theorem test_lzwInvalid :
    (after (.lzwInvalid 6#12) p1).map (fun t => (report t, t.lzw == p1.lzw)) = some ((0x0506#32, 6#32), true) := by
  decide +kernel

/-! U1. -/

/-- The example of R170 with `BLIT_CTL` given: canvas 4 by 4, rectangle (1, 1, 2, 2). -/
def blitState (mode : BlitMode) (idx : List Byte) : State :=
  load .canvas (List.replicate 64 0xEE#8) (load .idx idx
    (loadPal [{ r := 10, g := 20, b := 30 }, { r := 40, g := 50, b := 60 }]
      (withOp { Operands.zero with
        canvasW := 4, canvasH := 4, rectX := 1, rectY := 1, rectW := 2, rectH := 2, palLen := 2,
        idxLen := BitVec.ofNat 32 idx.length, interlaced := mode.interlaced, transpEn := mode.transpEn,
        order := mode.order, transpIdx := 2 })))

/-- Sequential, transparent index on, RGBA. -/
def plainMode : BlitMode := { interlaced := false, transpEn := true, order := false }

/-- R170's example. -/
theorem test_blitGif :
    (after .blitGif (blitState plainMode [0, 1, 2, 1])).map (fun t => (report t, t.bytes .canvas 16 32)) =
      some ((0x0002#32, 0#32),
        [0xEE, 0xEE, 0xEE, 0xEE, 10, 20, 30, 255, 40, 50, 60, 255, 0xEE, 0xEE, 0xEE, 0xEE,
          0xEE, 0xEE, 0xEE, 0xEE, 0xEE, 0xEE, 0xEE, 0xEE, 40, 50, 60, 255, 0xEE, 0xEE, 0xEE, 0xEE]) := by
  decide +kernel

/-- R177: stream `0 1 2 3`, `PAL_LEN = 2`, index 2 transparent: `E_PAL_INDEX(3)`; outside the rectangle nothing changes. -/
theorem test_blitGif_fault :
    (after .blitGif (blitState plainMode [0, 1, 2, 3])).map
      (fun t => (report t, t.bytes .canvas 0 20, t.bytes .canvas 28 8, t.bytes .canvas 44 20)) =
      some ((0x0706#32, 3#32), List.replicate 20 0xEE#8, List.replicate 8 0xEE#8, List.replicate 20 0xEE#8) := by
  decide +kernel

/-- A canvas and rectangle of 1 by 5 with grey palette entries 0 to 4 (R174's `rows(5) = 0 4 2 1 3`). -/
def columnState : State :=
  load .canvas (List.replicate 20 0xEE#8) (load .idx [0, 1, 2, 3, 4]
    (loadPal ((List.range 5).map fun i => { r := BitVec.ofNat 8 i, g := BitVec.ofNat 8 i, b := BitVec.ofNat 8 i })
      (withOp { Operands.zero with canvasW := 1, canvasH := 5, rectW := 1, rectH := 5, palLen := 5, idxLen := 5 })))

/-- The red bytes of the column. -/
def reds (t : State) : List Byte := [0, 4, 8, 12, 16].map (t.byte .canvas)

theorem test_rowOrderInterlaced : (after .rowOrderInterlaced columnState).map reds = some [0, 3, 2, 4, 1] := by
  decide +kernel

theorem test_rowOrderSequential :
    (after .rowOrderSequential { columnState with op := { columnState.op with interlaced := true } }).map reds =
      some [0, 1, 2, 3, 4] := by
  decide +kernel

/-- R176: with no transparent index, index 2 breaks the palette bound at stream position 2. -/
theorem test_transpOff :
    (after .transpOff (blitState plainMode [0, 1, 2, 1])).map report = some (0x0706#32, 2#32) := by
  decide +kernel

/-- R176: skipped, the canvas keeps its bytes. -/
theorem test_transpOn :
    (after .transpOn (blitState { plainMode with transpEn := false } [0, 1, 2, 1])).map
      (fun t => t.bytes .canvas 36 8) = some [0xEE, 0xEE, 0xEE, 0xEE, 40, 50, 60, 255] := by
  decide +kernel

/-- R178. -/
theorem test_orderRgba :
    (after .orderRgba (blitState { plainMode with order := true } [1])).map (fun t => t.bytes .canvas 20 4) =
      some [40, 50, 60, 255] := by
  decide +kernel

/-- R179's example. -/
theorem test_orderBgra :
    (after .orderBgra (blitState plainMode [1])).map (fun t => t.bytes .canvas 20 4) = some [60, 50, 40, 255] := by
  decide +kernel

/-! U2. -/

/-- An image of `w` by `h` pixels of colour type `ct` and depth `d` with `FILT` loaded. -/
def imageState (ct : BitVec 3) (d : BitVec 5) (w h : Word) (filt : List Byte) : State :=
  load .filt filt
    (withOp { Operands.zero with
      imgW := w, imgH := h, ctype := ct, depth := d, filtLen := BitVec.ofNat 32 filt.length })

/-- The example of R190: Gray 8, 3 by 2, Sub then Up. -/
def subUp : State := imageState 0 8 3 2 [1, 0x0A, 5, 5, 2, 1, 1, 1]

theorem test_defilterRun :
    (after .defilterRun subUp).map (fun t => (report t, t.filtUsed, t.bytes .raw 0 6)) =
      some ((0x0002#32, 0#32), 8#32, [0x0A, 0x0F, 0x14, 0x0B, 0x10, 0x15]) := by
  decide +kernel

/-- R199's example: 1 by 2, second tag 5: `E_FILTER_TAG(2)`. -/
theorem test_defilterRun_tag :
    (after .defilterRun (imageState 0 8 1 2 [0, 1, 5, 2])).map report = some (0x0606#32, 2#32) := by
  decide +kernel

/-- A Gray 8 image of 3 by 2 whose first raw row stands in `RAW`, and the filtered second row. -/
def secondRow (prev row : List Byte) : State := load .raw prev (imageState 0 8 3 2 ([0, 0, 0, 0, 0] ++ row))

/-- R193's example: `07 FF 00`. -/
theorem test_filtNone :
    (after (.filtNone 1) (secondRow [1, 2, 3] [7, 0xFF, 0])).map (fun t => t.bytes .raw 0 6) =
      some [1, 2, 3, 7, 0xFF, 0] := by
  decide +kernel

/-- R190's first row, as a row of its own: Sub does not read the row above. -/
theorem test_filtSub :
    (after (.filtSub 1) (secondRow [1, 2, 3] [0x0A, 5, 5])).map (fun t => t.bytes .raw 3 3) = some [0x0A, 0x0F, 0x14] := by
  decide +kernel

/-- R190's second row. -/
theorem test_filtUp :
    (after (.filtUp 1) (secondRow [0x0A, 0x0F, 0x14] [1, 1, 1])).map (fun t => t.bytes .raw 3 3) =
      some [0x0B, 0x10, 0x15] := by
  decide +kernel

/-- R196's example: previous row `0A 14`, row `64 00` gives `69 3E`; and `a = b = 255` gives 255. -/
theorem test_filtAvg :
    (after (.filtAvg 1) (secondRow [0x0A, 0x14, 0xFF] [0x64, 0, 0])).map (fun t => t.bytes .raw 3 2) = some [0x69, 0x3E] ∧
    (after (.filtAvg 1) (secondRow [0xFF, 0xFF, 0] [0x80, 0, 0])).map (fun t => t.bytes .raw 3 2) = some [0xFF, 0xFF] := by
  decide +kernel

/-- R197's example: previous row `32 3C 46`, row `01 02 03` gives `33 3E 49`. -/
theorem test_filtPaeth :
    (after (.filtPaeth 1) (secondRow [0x32, 0x3C, 0x46] [1, 2, 3])).map (fun t => t.bytes .raw 3 3) =
      some [0x33, 0x3E, 0x49] := by
  decide +kernel

/-- R199: the tag of row 1 of a 3-byte-wide image stands at `FILT[4]`. -/
theorem test_filtReserved : (after (.filtReserved 5#8 1) subUp).map report = some (0x0606#32, 4#32) := by decide +kernel

/-- R198's examples. -/
theorem test_paeth :
    paeth 10 20 5 = 20#8 ∧ paeth 10 20 15 = 15#8 ∧ paeth 2 14 10 = 2#8 ∧ paeth 14 2 10 = 2#8 ∧ paeth 255 0 0 = 255#8 ∧
    paeth 0 255 255 = 0#8 := by
  decide +kernel

/-! U3. -/

/-- The example of R210: Gray 8, 3 by 3. -/
def adam3 : State := imageState 0 8 3 3 [0, 1, 0, 3, 0, 0x15, 0x17, 0, 2, 0, 0x16, 0, 0x0B, 0x0C, 0x0D]

theorem test_adam7Run :
    (after .adam7Run adam3).map (fun t => (report t, t.filtUsed, t.bytes .raw 0 9)) =
      some ((0x0002#32, 0#32), 15#32, [1, 2, 3, 0x0B, 0x0C, 0x0D, 0x15, 0x16, 0x17]) := by
  decide +kernel

/-- The example of R217: Gray 1, 5 by 2. -/
theorem test_adam7Run_bits :
    (after .adam7Run (imageState 0 1 5 2 [0, 0x80, 0, 0, 0, 0x80, 0, 0x40, 0, 0x68])).map
      (fun t => (t.filtUsed, t.bytes .raw 0 2)) = some (10#32, [0xB0, 0x68]) := by
  decide +kernel

/-! U4. -/

/-- An image of `w` by `h` pixels with `RAW` loaded. -/
def rawState (ct : BitVec 3) (d : BitVec 5) (w h : Word) (raw : List Byte) : State :=
  load .raw raw (withOp { Operands.zero with imgW := w, imgH := h, ctype := ct, depth := d })

/-- R230's example: depth 2, `6C` is `1 2 3`. -/
def idxState : State := rawState 3 2 3 1 [0x6C]

theorem test_unpackIdx :
    (after .unpackIdx idxState).map (fun t => (report t, t.bytes .idx 0 3)) =
      some ((0x0002#32, 0#32), [1, 2, 3]) := by
  decide +kernel

/-- R237's example. -/
def palState : State :=
  let s := loadPal [{ r := 0, g := 0, b := 0 }, { r := 1, g := 2, b := 3 }, { r := 4, g := 5, b := 6 },
    { r := 7, g := 8, b := 9 }] idxState
  { s with op := { s.op with palLen := 4, trnsLen := 2 }, trnsa := [(0, 0#8), (1, 0x80#8)] }

theorem test_unpackRgba :
    (after .unpackRgba palState).map (fun t => (report t, t.bytes .pix 0 12)) =
      some ((0x0002#32, 0#32), [1, 2, 3, 0x80, 4, 5, 6, 0xFF, 7, 8, 9, 0xFF]) := by
  decide +kernel

/-- R247: with `PAL_LEN = 3` the third pixel faults. -/
theorem test_unpackRgba_fault :
    (after .unpackRgba { palState with op := { palState.op with palLen := 3 } }).map report = some (0x0706#32, 2#32) := by
  decide +kernel

theorem test_ctypePalette :
    (after .ctypePalette palState).map (fun t => t.bytes .pix 4 4) = some [4, 5, 6, 0xFF] := by
  decide +kernel

/-- R241's examples: depth 4, key 3; depth 16, key 0xABCD. -/
theorem test_ctypeGray :
    let key (s : State) (k : BitVec 16) : State := { s with op := { s.op with keyEn := true, trnsK0 := k } }
    (after .ctypeGray (key (rawState 0 4 2 1 [0x3F]) 3)).map (fun t => t.bytes .pix 0 8) =
      some [0x33, 0x33, 0x33, 0, 0xFF, 0xFF, 0xFF, 0xFF] ∧
    (after .ctypeGray (key (rawState 0 16 1 1 [0xAB, 0xCD]) 0xABCD)).map (fun t => t.bytes .pix 0 4) =
      some [0xAB, 0xAB, 0xAB, 0] := by
  decide +kernel

/-- R239's examples: the comparison is on the full 16-bit samples. -/
theorem test_ctypeRgb :
    let s (a b c : BitVec 16) : State :=
      let r := rawState 2 16 1 1 [0x12, 0x34, 0x56, 0x78, 0x9A, 0xBC]
      { r with op := { r.op with keyEn := true, trnsK0 := a, trnsK1 := b, trnsK2 := c } }
    (after .ctypeRgb (s 0x1234 0x5678 0x9ABC)).map (fun t => t.bytes .pix 0 4) = some [0x12, 0x56, 0x9A, 0] ∧
    (after .ctypeRgb (s 0x1200 0x5600 0x9A00)).map (fun t => t.bytes .pix 0 4) = some [0x12, 0x56, 0x9A, 0xFF] := by
  decide +kernel

/-- R242's examples. -/
theorem test_ctypeGrayAlpha :
    (after .ctypeGrayAlpha (rawState 4 8 1 1 [0x80, 0x40])).map (fun t => t.bytes .pix 0 4) =
      some [0x80, 0x80, 0x80, 0x40] ∧
    (after .ctypeGrayAlpha (rawState 4 16 1 1 [0x80, 1, 0x40, 2])).map (fun t => t.bytes .pix 0 4) =
      some [0x80, 0x80, 0x80, 0x40] := by
  decide +kernel

/-- R240's examples. -/
theorem test_ctypeRgba :
    (after .ctypeRgba (rawState 6 8 1 1 [1, 2, 3, 4])).map (fun t => t.bytes .pix 0 4) = some [1, 2, 3, 4] ∧
    (after .ctypeRgba (rawState 6 16 1 1 [0x11, 0xAA, 0x22, 0xBB, 0x33, 0xCC, 0x44, 0xDD])).map
      (fun t => t.bytes .pix 0 4) = some [0x11, 0x22, 0x33, 0x44] := by
  decide +kernel

/-- R107. -/
theorem test_ctypeReserved : (after (.ctypeReserved 5#3) State.reset).map report = some (0x0206#32, 13#32) := by
  decide +kernel

/-! U5. -/

/-- The canvas of R261's example, 2 by 1, after frame 0: `FF 00 00 FF | 00 FF 00 80`; frame 1 in `PIX`, rectangle
(1, 0, 1, 1), with `COMP_CTL` given. -/
def frame1 (dispose : BitVec 2) (blend : Bool) : State :=
  { load .pix [0, 0, 0xFF, 0x80] (load .canvas [0xFF, 0, 0, 0xFF, 0, 0xFF, 0, 0x80]
      (withOp { Operands.zero with
        canvasW := 2, canvasH := 1, rectX := 1, rectW := 1, rectH := 1, dispose := dispose, blend := blend })) with
    compReady := true, compFrame := 1 }

/-- R260's example. -/
theorem test_compReset :
    (after .compReset (withOp { Operands.zero with canvasW := 2, canvasH := 1 })).map
      (fun t => (report t, t.bytes .canvas 0 8, t.compFrame, t.compReady)) =
      some ((0x0002#32, 0#32), List.replicate 8 0#8, 0#32, true) := by
  decide +kernel

/-- R261's example, frame 1: `Over`, `ClearToBackground`. -/
theorem test_compFrame :
    (after .compFrame (frame1 1 true)).map (fun t => (report t, t.bytes .vis 0 8, t.bytes .canvas 0 8, t.compFrame)) =
      some ((0x0002#32, 0#32), [0xFF, 0, 0, 0xFF, 0, 0x54, 0xAA, 0xBF], [0xFF, 0, 0, 0xFF, 0, 0, 0, 0], 2#32) := by
  decide +kernel

/-- R262. -/
theorem test_compFrame_sequence : (after .compFrame State.reset).map report = some (0x0306#32, 0#32) := by decide +kernel

/-- R264: the frame pixel, alpha included. -/
theorem test_blendSource :
    (after .blendSource (frame1 0 true)).map (fun t => t.bytes .canvas 0 8) =
      some [0xFF, 0, 0, 0xFF, 0, 0, 0xFF, 0x80] := by
  decide +kernel

/-- R266; R281: on frame 0 the frame pixel. -/
theorem test_blendOver :
    (after .blendOver (frame1 0 false)).map (fun t => t.bytes .canvas 4 4) = some [0, 0x54, 0xAA, 0xBF] ∧
    (after .blendOver { frame1 0 false with compFrame := 0 }).map (fun t => t.bytes .canvas 4 4) =
      some [0, 0, 0xFF, 0x80] := by
  decide +kernel

/-- R267's examples. -/
theorem test_over_corners :
    overPixel [10, 20, 30, 0] [1, 2, 3, 77] = [1, 2, 3, 77#8] ∧ overPixel [10, 20, 30, 0] [1, 2, 3, 0] = [0, 0, 0, 0#8] ∧
    overPixel [200, 100, 50, 128] [0, 0, 0, 0] = [200, 100, 50, 128#8] ∧
    overPixel [255, 255, 255, 1] [0, 0, 0, 255] = [1, 1, 1, 255#8] := by
  decide +kernel

/-- R270. -/
theorem test_disposeNone :
    after (.disposeNone .beforeBlend) (frame1 0 true) = some (frame1 0 true) ∧
    after (.disposeNone .afterVisible) (frame1 0 true) = some (frame1 0 true) := by
  decide +kernel

/-- R271. -/
theorem test_disposeClearToBackground :
    (after (.disposeClearToBackground .afterVisible) (frame1 1 true)).map (fun t => t.bytes .canvas 0 8) =
      some [0xFF, 0, 0, 0xFF, 0, 0, 0, 0] ∧
    after (.disposeClearToBackground .beforeBlend) (frame1 1 true) = some (frame1 1 true) := by
  decide +kernel

/-- R272: the snapshot, and the canvas copied back from it. -/
theorem test_disposeRestoreToPrevious :
    (after (.disposeRestoreToPrevious .beforeBlend) (frame1 2 true)).map (fun t => t.bytes .snap 0 8) =
      some [0xFF, 0, 0, 0xFF, 0, 0xFF, 0, 0x80] ∧
    (after (.disposeRestoreToPrevious .afterVisible) (load .snap [1, 2, 3, 4, 5, 6, 7, 8] (frame1 2 true))).map
      (fun t => t.bytes .canvas 0 8) = some [1, 2, 3, 4, 5, 6, 7, 8] := by
  decide +kernel

/-- R273. -/
theorem test_disposeReserved :
    (after (.disposeReserved .beforeBlend) State.reset).map report = some (0x0206#32, 30#32) := by
  decide +kernel

/-- Canvas 2 by 2 whose frames differ in the pixels the list gives new bytes for. -/
def deltaState (da db : List Byte) (w h t : Nat) : State :=
  load .db db (load .da da (withOp { Operands.zero with
    canvasW := BitVec.ofNat 32 w, canvasH := BitVec.ofNat 32 h, rectW := BitVec.ofNat 32 w, rectH := BitVec.ofNat 32 h,
    tAlpha := BitVec.ofNat 9 t }))

/-- A canvas of 4 by 3 all 7 (R290's example). -/
def sevens : List Byte := List.replicate 48 7#8

/-- R290's example: pixels (1, 0) and (2, 2). -/
def twoPixels : State := deltaState ((sevens.set 7 8#8).set 40 0#8) sevens 4 3 0

theorem test_deltaBbox : (after .deltaBbox twoPixels).map (·.bbox) = some { x := 1, y := 0, w := 2, h := 3 } := by
  decide +kernel

/-- R292. -/
theorem test_deltaBbox_equal :
    (after .deltaBbox (deltaState sevens sevens 4 3 0)).map (·.bbox) = some { x := 0, y := 0, w := 1, h := 1 } := by
  decide +kernel

/-- R293's examples, `T_ALPHA = 128`. -/
theorem test_deltaBlend :
    (after .deltaBlend (deltaState [0, 0, 0, 0] [0xFF, 0, 0, 0xFF] 1 1 128)).map (·.blendSel) = some false ∧
    (after .deltaBlend (deltaState [0, 0xFF, 0, 0xFF] [0xFF, 0, 0, 0xFF] 1 1 128)).map (·.blendSel) = some true ∧
    (after .deltaBlend (deltaState [0, 0, 0, 0x40] [0, 0, 0, 0x80] 1 1 128)).map (·.blendSel) = some true := by
  decide +kernel

/-! Witnesses: for every statement that has hypotheses, states and operands that meet all of them together. -/

theorem witness_DecodeOfEncode :
    Instr.wf ctx (.lzwRef 6#12) = true ∧ Instr.wf ctx .lzwKwkwk = true ∧ Instr.wf ctx (.cmdReserved 0x0B#8) = true ∧
    Instr.wf ctx (.lzwLit 3#12) = true ∧ Instr.wf ctx (.filtReserved 5#8 2) = true ∧
    Instr.wf { ctx with valid := false } (.lzwInvalid 7#12) = true := by decide

theorem witness_EncodeOfDecode : ctx.legal = true ∧ (7 : Nat) < 2 ^ ctx.width := by decide

theorem witness_ReservedOpcode : 0x0B ≤ 0x10B % 256 ∧ 0x0B ≤ 0xFFFFFFFF % 256 := by decide

theorem witness_CodeClasses :
    (ctx.legal = true ∧ (7 : Nat) < 2 ^ ctx.width) ∧
    let full : CodeCtx := { m := 8, width := 12, next := 4096, valid := true }
    full.legal = true ∧ full.next = 4096 ∧ (4095 : Nat) < 2 ^ full.width := by decide

theorem witness_StepRunsDecoded :
    let s : State := { State.reset with host := [.writeReg .cmd 1#32, .reset] }
    (s.host = .writeReg .cmd 1#32 :: [.reset] ∧ s.status.busy = false) ∧ State.reset.host = [] ∧
    { s with status := { s.status with busy := true } }.host = .writeReg .cmd 1#32 :: [.reset] ∧
    { s with status := { s.status with busy := true } }.status.busy = true := by decide +kernel

theorem witness_RegisterWrite :
    let s : State := { State.reset with host := [.writeReg .tAlpha 0xFFFF#32] }
    s.host = .writeReg .tAlpha 0xFFFF#32 :: [] ∧ s.status.busy = false ∧ RegName.tAlpha ≠ .cmd := by decide +kernel

/-- The last byte of a space, and the first index at which there is none. -/
theorem witness_ByteWrite :
    let last := 2 ^ 29 - 2
    let s (i : Nat) : State := { State.reset with host := [.writeByte .da i 1#8] }
    (s last).host = .writeByte .da last 1#8 :: [] ∧ (s last).status.busy = false ∧ last < (s last).caps.of .da ∧
    (s (last + 1)).host = .writeByte .da (last + 1) 1#8 :: [] ∧ (s (last + 1)).caps.of .da ≤ last + 1 := by decide +kernel

theorem witness_TableWrite :
    let c : Rgb := { r := 1, g := 2, b := 3 }
    let s (a : HostAccess) : State := { State.reset with host := [a] }
    (s (.writePal 255#8 c)).host = .writePal 255#8 c :: [] ∧ (s (.writePal 255#8 c)).status.busy = false ∧
    (s (.writeTrnsa 0#8 9#8)).host = .writeTrnsa 0#8 9#8 :: [] := by decide +kernel

theorem witness_ResetEvent :
    let s : State := { palState with host := [.reset] }
    s.host = .reset :: [] ∧ s.status.busy = false := by decide +kernel

theorem witness_InvariantKept :
    let s : State := { p1 with host := [.writeReg .cmd 1#32] }
    Inv s ∧ ∃ t, step s = .next t ∧ t.status.eoi = true :=
  ⟨{ memWf := by decide +kernel, memInside := by decide +kernel, dictWf := by decide +kernel, dictInside := by decide +kernel,
     palWf := by decide +kernel, palInside := by decide +kernel, trnsaWf := by decide +kernel,
     trnsaInside := by decide +kernel, status := by decide +kernel },
   _, rfl, by decide +kernel⟩

theorem witness_InputsKept : ∃ t, exec .lzwDecode p1 = .next t ∧ t ≠ p1 := ⟨_, rfl, by decide +kernel⟩

/-- Each kind of result does change somewhere. -/
theorem witness_ResultsKept :
    (∃ t, exec (.lzwLit 0#12) (midRun 1 7) = .next t ∧ t.lzw ≠ (midRun 1 7).lzw ∧ t.dict ≠ (midRun 1 7).dict) ∧
    (∃ t, exec .compFrame (frame1 1 true) = .next t ∧ t.compFrame ≠ (frame1 1 true).compFrame) ∧
    (∃ t, exec .compReset { frame1 0 true with compReady := false } = .next t ∧ t.compReady ≠ false) ∧
    (∃ t, exec .deltaBbox twoPixels = .next t ∧ t.bbox ≠ twoPixels.bbox) ∧
    (∃ t, exec .deltaBlend twoPixels = .next t ∧ t.blendSel ≠ twoPixels.blendSel) ∧
    (∃ t, exec .defilterRun subUp = .next t ∧ t.filtUsed ≠ subUp.filtUsed) :=
  ⟨⟨_, rfl, by decide +kernel, by decide +kernel⟩, ⟨_, rfl, by decide +kernel⟩, ⟨_, rfl, by decide +kernel⟩,
    ⟨_, rfl, by decide +kernel⟩, ⟨_, rfl, by decide +kernel⟩, ⟨_, rfl, by decide +kernel⟩⟩

theorem witness_WriteFootprint :
    ∃ t, exec .blitGif (blitState plainMode [0, 1, 2, 1]) = .next t ∧ t.mem ≠ (blitState plainMode [0, 1, 2, 1]).mem :=
  ⟨_, rfl, by decide +kernel⟩

/-- The last code raised at the start and the first data-dependent one. -/
theorem witness_StateAfterFault :
    (∃ t, exec (decode .cmd 3) { subUp with op := { subUp.op with filtLen := 7 } } = .next t ∧ t.status.err = true ∧
      t.status.errcode.toNat = 4) ∧
    (∃ t, exec (decode .cmd 1) (lzwState [1, 0x2E, 0] 7) = .next t ∧ t.status.err = true ∧ t.status.errcode.toNat = 5) :=
  ⟨⟨_, rfl, by decide +kernel, by decide +kernel⟩, ⟨_, rfl, by decide +kernel, by decide +kernel⟩⟩

theorem witness_CompReadyHistory :
    let s : State := { frame1 0 true with compReady := false, host := [.writeReg .cmd 7#32] }
    (s.host = .writeReg .cmd 7#32 :: [] ∧ ∃ t, step s = .next t ∧ t.compReady = true) ∧
    (∃ t, step { s with compReady := true, host := [.reset] } = .next t ∧ t.compReady = false) :=
  ⟨⟨by decide +kernel, _, rfl, by decide +kernel⟩, ⟨_, rfl, by decide +kernel⟩⟩

theorem witness_StartChecksInOrder :
    Instr.compFrame ∈ [Instr.lzwDecode, .blitGif, .defilterRun, .adam7Run, .unpackIdx, .unpackRgba, .compReset, .compFrame,
      .deltaBbox, .deltaBlend] ∧ (frame1 1 true).compReady = true := by decide +kernel

/-- A Gray 8 image of 2 by 1, interlaced: passes 1 and 6 have one row of one pixel each; tags as given. -/
def adam2 (tag1 tag6 : Byte) : State := imageState 0 8 2 1 [tag1, 1, tag6, 2]

theorem witness_SequenceAndLengthFaults :
    State.reset.compReady = false ∧
    (let s : State := { subUp with op := { subUp.op with filtLen := 7 } };
      passes .defilterRun s ∧ s.op.filtLen.toNat < plainNeed s) ∧
    (let s : State := { adam2 0 0 with op := { (adam2 0 0).op with filtLen := 3 } };
      passes .adam7Run s ∧ s.op.filtLen.toNat < interlacedNeed s) := by decide +kernel

theorem witness_LzwControlCodes : ctx.legal = true ∧ p1.op.lzwMincs.toNat ≤ 8 := by decide +kernel

/-- A state in the middle of a run, with one entry in the dictionary. -/
theorem midRun_inv : LzwInv (midRun 6 7) where
  minLegal := by decide +kernel
  width := by decide +kernel
  next := by decide +kernel
  fits := by decide +kernel
  room := by decide +kernel
  entries := by
    intro code h1 h2
    have h1 : 5 < code := h1
    have h2 : code < 7 := h2
    obtain rfl : code = 6 := by omega
    decide +kernel
  prev := by decide +kernel
  fresh := by decide +kernel

theorem witness_LzwRefEffect :
    LzwInv (midRun 6 7) ∧ 2 ^ (midRun 6 7).op.lzwMincs.toNat + 1 < (6#12).toNat ∧
    (6#12).toNat < (midRun 6 7).lzw.nextCode.toNat :=
  ⟨midRun_inv, by decide +kernel, by decide +kernel⟩

theorem witness_LzwKwkwkEffect :
    LzwInv (midRun 6 7) ∧ (midRun 6 7).lzw.prevValid = true ∧ (midRun 6 7).lzw.nextCode.toNat < 4096 ∧
    ∃ t, exec .lzwKwkwk (midRun 6 7) = .next t ∧ t.status.overrun = false :=
  ⟨midRun_inv, by decide +kernel, by decide +kernel, _, rfl, by decide +kernel⟩

theorem witness_LzwInvariantKept :
    passes .lzwDecode p1 ∧ LzwInv (midRun 6 7) ∧ (7 : Nat) < 2 ^ (midRun 6 7).lzw.curSize.toNat ∧
    ∃ t, exec (decode (.code (codeCtx (midRun 6 7))) 7) (midRun 6 7) = .next t :=
  ⟨by decide +kernel, midRun_inv, by decide +kernel, _, rfl⟩

theorem witness_LzwDecodeRunsCodes : p1.caps.legal ∧ passes .lzwDecode p1 := by decide +kernel

theorem witness_LzwRunEnds :
    let empty := lzwState [] 0
    (p1.caps.legal ∧ passes .lzwDecode p1) ∧ empty.caps.legal ∧ passes .lzwDecode empty := by decide +kernel

/-- Two states that differ in `DICT`, in old bytes of `IDX` and in other registers. -/
theorem witness_LzwRepeatable :
    let s : State := load .idx [9, 9, 9, 9] { p1 with dict := [(6, { prefixCode := 3, suffix := 2 })], compFrame := 5 }
    p1.caps.legal ∧ s.caps.legal ∧ passes .lzwDecode p1 ∧ passes .lzwDecode s ∧ p1.op.lzwMincs = s.op.lzwMincs ∧
    p1.op.inLen = s.op.inLen ∧ p1.op.outLen = s.op.outLen ∧
    (∀ i, i < p1.op.inLen.toNat → p1.byte .inb i = s.byte .inb i) ∧
    (∃ t, exec .lzwDecode p1 = .next t ∧ t.status.err = false) ∧ ∃ t, exec .lzwDecode s = .next t :=
  ⟨by decide +kernel, by decide +kernel, by decide +kernel, by decide +kernel, by decide +kernel, by decide +kernel,
    by decide +kernel, by decide +kernel, ⟨_, rfl, by decide +kernel⟩, _, rfl⟩

/-- Rows 1 and 4, the first and last of an interlaced height of 5. -/
theorem witness_InterlacedRows : (0 : Nat) < 5 ∧ (4 : Nat) < 5 := by decide

theorem witness_BlitGifPaints :
    (let s := blitState plainMode [0, 1, 2, 1];
      passes .blitGif s ∧ ∀ i, i < indexCount s → ¬ indexBad (blitMode s) s i) ∧
    (let s := blitState plainMode [0, 1, 2, 3];
      passes .blitGif s ∧ 3 < indexCount s ∧ indexBad (blitMode s) s 3 ∧ ∀ i, i < 3 → ¬ indexBad (blitMode s) s i) := by
  decide +kernel

theorem witness_ControlValuesBlit :
    let s := blitState { plainMode with transpEn := false } [0, 1, 2, 1]
    let m : BlitMode := { interlaced := s.op.interlaced, transpEn := true, order := s.op.order }
    passes .blitGif s ∧ (Instr.transpOn, m) ∈ controlBlits s ∧ ∀ i, i < indexCount s → ¬ indexBad m s i := by
  decide +kernel

theorem witness_ControlValuesFault :
    let s := blitState plainMode [0, 1, 2, 1]
    let m : BlitMode := { interlaced := s.op.interlaced, transpEn := false, order := s.op.order }
    (Instr.transpOff, m) ∈ controlBlits s ∧ 2 < indexCount s ∧ indexBad m s 2 ∧ ∀ i, i < 2 → ¬ indexBad m s i := by
  decide +kernel

theorem witness_BlitGifRunsControls :
    passes .blitGif (blitState plainMode [0, 1, 2, 1]) ∧ Site.order ∈ [Site.rowOrder, Site.transp, Site.order] := by
  decide +kernel

/-- The three ties of R198's examples. -/
theorem witness_PaethClosest :
    let d (a b c x : Byte) : Nat := ((a.toNat : Int) + b.toNat - c.toNat - x.toNat).natAbs
    (d 2 14 10 2 ≤ d 2 14 10 14 ∧ d 2 14 10 2 ≤ d 2 14 10 10) ∧ (d 14 2 10 10 < d 14 2 10 14 ∧ d 14 2 10 2 ≤ d 14 2 10 10) ∧
    (d 10 20 15 15 < d 10 20 15 10 ∧ d 10 20 15 15 < d 10 20 15 20) := by decide +kernel

/-- The last row of the image, and the first it does not have. -/
theorem witness_FilterTagsReconstruct : 1 < imageH subUp ∧ imageH subUp ≤ 2 := by decide +kernel

theorem witness_DefilterReconstructs :
    passes .defilterRun subUp ∧ plainNeed subUp ≤ subUp.op.filtLen.toNat ∧
    ∀ y, y < imageH subUp → (subUp.byte .filt (y * (1 + imageRow subUp))).toNat ≤ 4 := by decide +kernel

theorem witness_DefilterRunsTags :
    ∃ t, exec .defilterRun subUp = .next t ∧ t.status.err = false ∧ 1 < imageH subUp :=
  ⟨_, rfl, by decide +kernel, by decide +kernel⟩

/-- Pass number 6 is the second and last pass of `adam2` with a row. -/
theorem adam2_rows (tag1 tag6 : Byte) (k : Nat) (p : Pass) (j : Nat) (hp : adam7Passes[k]? = some p)
    (hr : passHasRow (adam2 tag1 tag6) p j) : (k = 0 ∨ k = 5) ∧ j = 0 := by
  have hk : k < 7 := (List.getElem?_eq_some_iff.mp hp).1
  have hw : imageW (adam2 tag1 tag6) = 2 := rfl
  have hh : imageH (adam2 tag1 tag6) = 1 := rfl
  unfold passHasRow at hr
  rw [hw, hh] at hr
  interval_cases k <;> simp only [adam7Passes, List.getElem?_cons_zero, List.getElem?_cons_succ, Option.some.injEq] at hp <;>
    subst hp <;> simp [passW, passH, latticeCount] at hr ⊢ <;> exact hr

theorem witness_FirstReservedTag :
    (let s := imageState 0 8 1 2 [0, 1, 5, 2];
      passes .defilterRun s ∧ plainNeed s ≤ s.op.filtLen.toNat ∧ 1 < imageH s ∧
      (∀ j, j < 1 → (s.byte .filt (j * (1 + imageRow s))).toNat ≤ 4) ∧
      5 ≤ (s.byte .filt (1 * (1 + imageRow s))).toNat) ∧
    (let s := adam2 4 5;
      let p : Pass := { startRow := 0, startCol := 1, rowStep := 2, colStep := 2 };
      passes .adam7Run s ∧ interlacedNeed s ≤ s.op.filtLen.toNat ∧ adam7Passes[5]? = some p ∧ passHasRow s p 0 ∧
      (∀ k' p' j', adam7Passes[k']? = some p' → passHasRow s p' j' → k' < 5 ∨ (k' = 5 ∧ j' < 0) →
        (s.byte .filt (passTag s k' p' j')).toNat ≤ 4) ∧
      5 ≤ (s.byte .filt (passTag s 5 p 0)).toNat) := by
  refine ⟨by decide +kernel, by decide +kernel, by decide +kernel, by decide +kernel, by decide +kernel, ?_, by decide +kernel⟩
  intro k' p' j' hp hr hlt
  obtain ⟨hk, rfl⟩ := adam2_rows 4 5 k' p' j' hp hr
  obtain rfl : k' = 0 := by omega
  simp only [adam7Passes, List.getElem?_cons_zero, Option.some.injEq] at hp
  subst hp
  decide +kernel

theorem witness_AdamPartition :
    let p : Pass := { startRow := 1, startCol := 0, rowStep := 2, colStep := 1 }
    p ∈ adam7Passes ∧ adam7Passes[6]? = some p ∧ 3 = p.startCol + 3 * p.colStep ∧ 5 = p.startRow + 2 * p.rowStep := by
  decide +kernel

theorem witness_AdamScatters :
    passes .adam7Run (adam2 4 1) ∧ interlacedNeed (adam2 4 1) ≤ (adam2 4 1).op.filtLen.toNat ∧
    ∀ k p j, adam7Passes[k]? = some p → passHasRow (adam2 4 1) p j →
      ((adam2 4 1).byte .filt (passTag (adam2 4 1) k p j)).toNat ≤ 4 := by
  refine ⟨by decide +kernel, by decide +kernel, ?_⟩
  intro k p j hp hr
  obtain ⟨rfl | rfl, rfl⟩ := adam2_rows 4 1 k p j hp hr <;>
    simp only [adam7Passes, List.getElem?_cons_zero, List.getElem?_cons_succ, Option.some.injEq] at hp <;> subst hp <;>
    decide +kernel

theorem witness_UnpackIndices : passes .unpackIdx idxState := by decide +kernel

theorem witness_GrayPixels :
    (rawState 0 1 8 1 [0xA5]).op.depth.toNat ∈ [1, 2, 4, 8, 16] ∧
    (rawState 0 16 1 1 [0xAB, 0xCD]).op.depth.toNat ∈ [1, 2, 4, 8, 16] := by decide +kernel

theorem witness_DirectColourPixels :
    (rawState 2 8 1 1 [1, 2, 3]).op.depth.toNat ∈ [8, 16] ∧ (rawState 6 16 1 1 [1, 2, 3, 4, 5, 6, 7, 8]).op.depth.toNat ∈ [8, 16] := by
  decide +kernel

theorem witness_PalettePixels :
    (∀ x y, x < imageW palState → y < imageH palState → rawIndex palState x y < palState.op.palLen.toNat) ∧
    (let s : State := { palState with op := { palState.op with palLen := 3 } };
      2 < imageW s ∧ 0 < imageH s ∧ s.op.palLen.toNat ≤ rawIndex s 2 0 ∧
      ∀ x' y', x' < imageW s → y' < imageH s → y' * imageW s + x' < 0 * imageW s + 2 →
        rawIndex s x' y' < s.op.palLen.toNat) := by
  refine ⟨fun x y hx hy => ?_, by decide +kernel, by decide +kernel, by decide +kernel, fun x y hx hy => ?_⟩
  · exact (show ∀ x, x < imageW palState → ∀ y, y < imageH palState →
      rawIndex palState x y < palState.op.palLen.toNat by decide +kernel) x hx y hy
  · exact (show ∀ x, x < 3 → ∀ y, y < 1 → y * 3 + x < 0 * 3 + 2 →
      rawIndex { palState with op := { palState.op with palLen := 3 } } x y < 3 by decide +kernel) x hx y hy

theorem witness_UnpackRgbaRunsCtype : passes .unpackRgba palState := by decide +kernel

theorem witness_CompResetEffect : passes .compReset (frame1 0 true) := by decide +kernel

/-- Both cases of `N`. -/
theorem witness_OverFormula :
    255 * (0#8).toNat + (0#8).toNat * (255 - (0#8).toNat) = 0 ∧
    255 * (128#8).toNat + (128#8).toNat * (255 - (128#8).toNat) ≠ 0 ∧ (77#8) ≠ 0#8 := by decide

theorem witness_BlendValues : rectFits (frame1 0 true) := by decide +kernel

theorem witness_DisposeValues : inRect (frame1 1 true) 4 := ⟨0, 0, by decide +kernel⟩

/-- The three dispose operations. -/
theorem witness_CompFrameEffect :
    ((frame1 0 true).compReady = true ∧ passes .compFrame (frame1 0 true) ∧ (frame1 0 true).op.dispose ≠ 2#2) ∧
    (passes .compFrame (frame1 1 true) ∧ (frame1 1 true).op.dispose = 1#2) ∧
    (passes .compFrame (frame1 2 true) ∧ (frame1 2 true).op.dispose = 2#2) := by decide +kernel

theorem witness_BoundingBox :
    (passes .deltaBbox twoPixels ∧ changedPixel twoPixels 1 0) ∧
    passes .deltaBbox (deltaState sevens sevens 4 3 0) ∧ ∀ x y, ¬ changedPixel (deltaState sevens sevens 4 3 0) x y := by
  refine ⟨⟨by decide +kernel, by decide +kernel, by decide +kernel, ?_⟩, by decide +kernel, ?_⟩
  · unfold pixelDiffers; decide +kernel
  · rintro x y ⟨hx, hy, h⟩
    exact h ((show ∀ x, x < 4 → ∀ y, y < 3 →
      (deltaState sevens sevens 4 3 0).bytes .da (4 * (y * 4 + x)) 4 =
        (deltaState sevens sevens 4 3 0).bytes .db (4 * (y * 4 + x)) 4 by decide +kernel) x hx y hy)

theorem witness_BlendSelection : passes .deltaBlend (deltaState [0, 0, 0, 0] [0xFF, 0, 0, 0xFF] 1 1 128) := by
  decide +kernel

end Sys2Proof.Tests
end

section
/-! What an instruction may write: one frame for every operation of the model and, through it, for every instruction. -/

namespace Sys2Proof.Machine

/-- The spaces commands write (R79): every buffer but `IN`, `FILT`, `DA` and `DB`. -/
def isOutput : Space → Bool
  | .inb => false
  | .filt => false
  | .da => false
  | .db => false
  | _ => true

/-- The instructions that move the working registers of U0 and `DICT` (R28, R29). -/
def runsCodes : Instr → Bool
  | .lzwDecode => true
  | .lzwClear => true
  | .lzwLit _ => true
  | .lzwRef _ => true
  | .lzwKwkwk => true
  | _ => false

theorem runsCodes_iff (i : Instr) : runsCodes i = true ↔
    i = .lzwDecode ∨ i = .lzwClear ∨ i = .lzwKwkwk ∨ ∃ code, i = .lzwLit code ∨ i = .lzwRef code := by
  cases i <;> simp [runsCodes]

/-- Going from `s` to `t`, only what instruction `i` may write has changed: `STATUS`, `ERRINFO`, the output buffers, the
counter of free values, and the results that R22 and R43 let `i` change. A field of this structure that is not given holds
by computation. -/
structure WritesOnly (i : Instr) (s t : State) : Prop where
  op : t.op = s.op := by rfl
  pal : t.pal = s.pal := by rfl
  trnsa : t.trnsa = s.trnsa := by rfl
  caps : t.caps = s.caps := by rfl
  host : t.host = s.host := by rfl
  epoch : t.epoch = s.epoch := by rfl
  buffers : ∀ sp : Space, isOutput sp = false → t.mem.buf sp = s.mem.buf sp := by intros; rfl
  lzw : runsCodes i = false → t.lzw = s.lzw := by intros; rfl
  dict : runsCodes i = false → t.dict = s.dict := by intros; rfl
  compFrame : ¬ (i = .compReset ∨ i = .compFrame) → t.compFrame = s.compFrame := by intros; rfl
  compReady : i ≠ .compReset → t.compReady = s.compReady := by intros; rfl
  bbox : i ≠ .deltaBbox → t.bbox = s.bbox := by intros; rfl
  blendSel : i ≠ .deltaBlend → t.blendSel = s.blendSel := by intros; rfl
  filtUsed : ¬ (i = .defilterRun ∨ i = .adam7Run) → t.filtUsed = s.filtUsed := by intros; rfl

variable {i : Instr} {s t u : State}

theorem WritesOnly.refl : WritesOnly i s s := {}

theorem WritesOnly.trans (h : WritesOnly i s t) (h' : WritesOnly i t u) : WritesOnly i s u where
  op := h'.op.trans h.op
  pal := h'.pal.trans h.pal
  trnsa := h'.trnsa.trans h.trnsa
  caps := h'.caps.trans h.caps
  host := h'.host.trans h.host
  epoch := h'.epoch.trans h.epoch
  buffers sp hsp := (h'.buffers sp hsp).trans (h.buffers sp hsp)
  lzw hi := (h'.lzw hi).trans (h.lzw hi)
  dict hi := (h'.dict hi).trans (h.dict hi)
  compFrame hi := (h'.compFrame hi).trans (h.compFrame hi)
  compReady hi := (h'.compReady hi).trans (h.compReady hi)
  bbox hi := (h'.bbox hi).trans (h.bbox hi)
  blendSel hi := (h'.blendSel hi).trans (h.blendSel hi)
  filtUsed hi := (h'.filtUsed hi).trans (h.filtUsed hi)

/-- What every operation of a run keeps, the run keeps. -/
theorem WritesOnly.foldl {ι : Type} (f : State → ι → State) (hf : ∀ u x, WritesOnly i u (f u x)) (l : List ι) (s : State) :
    WritesOnly i s (l.foldl f s) := by
  induction l generalizing s with
  | nil => exact .refl
  | cons x l ih => exact (hf s x).trans (ih _)

/-! The shared operations (R9, R300, R323, R324). -/

theorem begin_writesOnly : WritesOnly i s s.begin := {}

theorem finish_writesOnly : WritesOnly i s s.finish := {}

theorem raise_writesOnly (e : ErrKind) (info : Nat) : WritesOnly i s (s.raise e info) := {}

theorem complete_writesOnly : WritesOnly i s s.complete := by
  unfold State.complete
  split
  · exact .refl
  · exact finish_writesOnly

theorem setBuf_writesOnly {sp : Space} (hsp : isOutput sp = true) (b : Table Byte) :
    WritesOnly i s (s.setBuf sp b) where
  buffers sq hsq := Memory.buf_setBuf_other _ _ (by rintro rfl; simp [hsp] at hsq)

theorem write_writesOnly {sp : Space} (hsp : isOutput sp = true) (k : Nat) (bs : List Byte) :
    WritesOnly i s (s.write sp k bs) := setBuf_writesOnly hsp _

theorem forget_writesOnly {sp : Space} (hsp : isOutput sp = true) (k n : Nat) :
    WritesOnly i s (s.forget sp k n) := (write_writesOnly hsp k _).trans {}

theorem command_writesOnly {checks : List Check} {body : State → State} (h : ∀ u, WritesOnly i u (body u)) :
    WritesOnly i s (command checks body s) := by
  rcases command_cases checks body s with ⟨reg, _, hc⟩ | ⟨_, hc⟩
  · rw [hc]; exact begin_writesOnly.trans (raise_writesOnly _ _)
  · rw [hc]; exact begin_writesOnly.trans ((h _).trans complete_writesOnly)

/-! The bodies of the commands and the stream items. -/

theorem lzwData_writesOnly (hi : runsCodes i = true) (str : List Byte) (code : BitVec 12) :
    WritesOnly i s (lzwData str code s) := by
  unfold lzwData
  split
  · exact {}
  · refine (write_writesOnly (sp := .idx) rfl s.lzw.outPos.toNat str).trans ?_
    simp only
    rw [lzwAddEntry_frame]
    exact { lzw := by simp [hi], dict := by simp [hi] }

theorem lzwClear_writesOnly (hi : runsCodes i = true) : WritesOnly i s (lzwClear s) := { lzw := by simp [hi] }

theorem lzwInvalid_writesOnly (code : BitVec 12) : WritesOnly i s (lzwInvalid code s) :=
  (raise_writesOnly _ _).trans (forget_writesOnly rfl _ _)

theorem lzwCode_writesOnly (hi : runsCodes i = true) (code : BitVec 12) : WritesOnly i s (lzwCode code s) := by
  unfold lzwCode
  split
  · exact lzwClear_writesOnly hi
  · exact {}
  · exact lzwData_writesOnly hi _ _
  · exact lzwData_writesOnly hi _ _
  · exact lzwData_writesOnly hi _ _
  · exact lzwInvalid_writesOnly code

theorem lzwTurn_writesOnly (hi : runsCodes i = true) (stream nbits : Nat) :
    WritesOnly i s (lzwTurn stream nbits s) := by
  rcases lzwTurn_cases stream nbits s with ⟨_, h⟩ | ⟨_, h⟩
  · rw [h]; exact {}
  · rw [h]
    have advance : WritesOnly i s (lzwAdvance s) := { lzw := by simp [hi] }
    exact advance.trans (lzwCode_writesOnly hi _)

theorem lzwRun_writesOnly (hi : runsCodes i = true) : WritesOnly i s (lzwRun s) := by
  have init : WritesOnly i s (lzwInit s) := { lzw := by simp [hi] }
  have finish (u : State) : WritesOnly i u (lzwFinish u) := by
    unfold lzwFinish
    split <;> exact {}
  exact (lzwLoop_keeps (WritesOnly i s) _ _ (fun _ h => h.trans (lzwTurn_writesOnly hi _ _)) _ _ init).trans (finish _)

theorem blitRun_writesOnly (mode : BlitMode) : WritesOnly i s (blitRun mode s) := by
  rcases blitRun_cases mode s with ⟨n, _, h⟩ | ⟨_, h⟩
  · rw [h]
    exact (raise_writesOnly _ _).trans (.foldl _ (fun _ _ => forget_writesOnly rfl _ _) _ _)
  · rw [h]; exact setBuf_writesOnly rfl _

theorem raiseFilterTag_writesOnly (n : Nat) : WritesOnly i s (raiseFilterTag n s) :=
  (raise_writesOnly _ _).trans (forget_writesOnly rfl _ _)

theorem defilterRow_writesOnly (pred : Byte → Byte → Byte → Byte) (y : Nat) : WritesOnly i s (defilterRow pred y s) := by
  unfold defilterRow
  split
  · exact write_writesOnly rfl _ _
  · exact .refl

theorem defilterRun_writesOnly : WritesOnly .defilterRun s (defilterRun s) := by
  rcases defilterRun_cases s with ⟨_, h⟩ | ⟨_, n, _, h⟩ | ⟨_, rows, _, h⟩
  · rw [h]; exact raise_writesOnly _ _
  · rw [h]; exact raiseFilterTag_writesOnly n
  · rw [h]; exact (write_writesOnly rfl 0 rows.flatten).trans { filtUsed := by simp }

theorem adam7Run_writesOnly : WritesOnly .adam7Run s (adam7Run s) := by
  rcases adam7Run_cases s with ⟨_, h⟩ | ⟨_, n, _, h⟩ | ⟨_, raw, _, h⟩
  · rw [h]; exact raise_writesOnly _ _
  · rw [h]; exact raiseFilterTag_writesOnly n
  · rw [h]; exact (write_writesOnly rfl 0 raw).trans { filtUsed := by simp }

theorem expandImage_writesOnly (pixel : State → Nat → Nat → Option (List Byte)) : WritesOnly i s (expandImage pixel s) := by
  rcases expandImage_cases pixel s with ⟨p, _, h⟩ | ⟨_, h⟩
  · rw [h]; exact (raise_writesOnly _ _).trans (forget_writesOnly rfl _ _)
  · rw [h]; exact write_writesOnly rfl _ _

theorem unpackRgbaRun_writesOnly : WritesOnly i s (unpackRgbaRun s) := by
  unfold unpackRgbaRun
  split
  · exact expandImage_writesOnly _
  · exact expandImage_writesOnly _
  · exact expandImage_writesOnly _
  · exact expandImage_writesOnly _
  · exact expandImage_writesOnly _
  · exact raise_writesOnly _ _

theorem compResetRun_writesOnly : WritesOnly .compReset s (compResetRun s) :=
  (write_writesOnly rfl 0 (List.replicate (canvasBytes s) 0)).trans { compFrame := by simp, compReady := by simp }

theorem blendRect_writesOnly (op : BlendOp) : WritesOnly i s (blendRect op s) := setBuf_writesOnly rfl _

theorem copyCanvas_writesOnly (src : Space) {dst : Space} (hdst : isOutput dst = true) :
    WritesOnly i s (copyCanvas src dst s) := write_writesOnly hdst _ _

theorem disposeClear_writesOnly (phase : DisposePhase) : WritesOnly i s (disposeClear phase s) := by
  cases phase with
  | beforeBlend => exact .refl
  | afterVisible => exact setBuf_writesOnly rfl _

theorem disposeRestore_writesOnly (phase : DisposePhase) : WritesOnly i s (disposeRestore phase s) := by
  cases phase with
  | beforeBlend => exact copyCanvas_writesOnly _ rfl
  | afterVisible => exact copyCanvas_writesOnly _ rfl

theorem disposeStep_writesOnly (op : DisposeOp) (phase : DisposePhase) : WritesOnly i s (disposeStep op phase s) := by
  cases op with
  | none => exact .refl
  | clearToBackground => exact disposeClear_writesOnly phase
  | restoreToPrevious => exact disposeRestore_writesOnly phase
  | reserved => exact raise_writesOnly _ _

theorem compFrameRun_writesOnly : WritesOnly .compFrame s (compFrameRun s) := by
  have steps := ((disposeStep_writesOnly (i := .compFrame) (s := s) (disposeOp s.op.dispose) .beforeBlend).trans
    (blendRect_writesOnly (frameBlend s))).trans (copyCanvas_writesOnly .canvas (dst := .vis) rfl)
  exact (steps.trans (disposeStep_writesOnly (disposeOp s.op.dispose) .afterVisible)).trans { compFrame := by simp }

theorem compFrameCommand_writesOnly : WritesOnly .compFrame s (compFrameCommand s) := by
  unfold compFrameCommand
  split
  · exact command_writesOnly fun _ => compFrameRun_writesOnly
  · exact begin_writesOnly.trans (raise_writesOnly _ _)

/-! Every instruction. -/

/-- What an instruction may write, for every instruction (R26, R43, R79, R80). -/
theorem exec_writesOnly (i : Instr) (s t : State) (h : exec i s = .next t) : WritesOnly i s t := by
  cases i with
  | nop => cases h; exact begin_writesOnly.trans finish_writesOnly
  | lzwDecode => cases h; exact command_writesOnly fun _ => lzwRun_writesOnly rfl
  | blitGif => cases h; exact command_writesOnly fun u => blitRun_writesOnly _
  | defilterRun => cases h; exact command_writesOnly fun _ => defilterRun_writesOnly
  | adam7Run => cases h; exact command_writesOnly fun _ => adam7Run_writesOnly
  | unpackIdx => cases h; exact command_writesOnly fun _ => write_writesOnly rfl _ _
  | unpackRgba => cases h; exact command_writesOnly fun _ => unpackRgbaRun_writesOnly
  | compReset => cases h; exact command_writesOnly fun _ => compResetRun_writesOnly
  | compFrame => cases h; exact compFrameCommand_writesOnly
  | deltaBbox => cases h; exact command_writesOnly fun _ => { bbox := by simp }
  | deltaBlend => cases h; exact command_writesOnly fun _ => { blendSel := by simp }
  | cmdReserved opcode => cases h; exact begin_writesOnly.trans (raise_writesOnly _ _)
  | lzwClear => cases h; exact lzwClear_writesOnly rfl
  | lzwEoi => cases h; exact {}
  | lzwLit code => cases h; exact lzwData_writesOnly rfl _ _
  | lzwRef code => cases h; exact lzwData_writesOnly rfl _ _
  | lzwKwkwk => cases h; exact lzwData_writesOnly rfl _ _
  | lzwInvalid code => cases h; exact lzwInvalid_writesOnly code
  | filtNone row => cases h; exact defilterRow_writesOnly _ _
  | filtSub row => cases h; exact defilterRow_writesOnly _ _
  | filtUp row => cases h; exact defilterRow_writesOnly _ _
  | filtAvg row => cases h; exact defilterRow_writesOnly _ _
  | filtPaeth row => cases h; exact defilterRow_writesOnly _ _
  | filtReserved tag row => cases h; exact raiseFilterTag_writesOnly _
  | disposeNone phase => cases h; exact .refl
  | disposeClearToBackground phase => cases h; exact disposeClear_writesOnly phase
  | disposeRestoreToPrevious phase => cases h; exact disposeRestore_writesOnly phase
  | disposeReserved phase => cases h; exact raise_writesOnly _ _
  | blendSource => cases h; exact blendRect_writesOnly _
  | blendOver => cases h; exact blendRect_writesOnly _
  | rowOrderSequential => cases h; exact blitRun_writesOnly _
  | rowOrderInterlaced => cases h; exact blitRun_writesOnly _
  | transpOff => cases h; exact blitRun_writesOnly _
  | transpOn => cases h; exact blitRun_writesOnly _
  | orderRgba => cases h; exact blitRun_writesOnly _
  | orderBgra => cases h; exact blitRun_writesOnly _
  | ctypeGray => cases h; exact expandImage_writesOnly _
  | ctypeRgb => cases h; exact expandImage_writesOnly _
  | ctypePalette => cases h; exact expandImage_writesOnly _
  | ctypeGrayAlpha => cases h; exact expandImage_writesOnly _
  | ctypeRgba => cases h; exact expandImage_writesOnly _
  | ctypeReserved value => cases h; exact raise_writesOnly _ _

/-- COMP.RESET leaves `COMP_READY` as it was, or has set it and ended without a fault (R36, R260). -/
theorem execCompReset_compReady (s t : State) (h : exec .compReset s = .next t) :
    t.compReady = s.compReady ∨ (t.compReady = true ∧ t.status.err = false) := by
  cases h
  rcases command_cases (canvasChecks s) compResetRun s with ⟨reg, _, hc⟩ | ⟨_, hc⟩
  · rw [hc]; exact .inl rfl
  · rw [hc, State.complete_of_ok _ rfl]; exact .inr ⟨rfl, rfl⟩

/-- An instruction that changes `COMP_READY` is a COMP.RESET that has set it and ended without a fault (R36). -/
theorem exec_compReady (i : Instr) (s t : State) (h : exec i s = .next t) :
    t.compReady = s.compReady ∨ (i = .compReset ∧ t.compReady = true ∧ t.status.err = false) := by
  by_cases hi : i = .compReset
  · subst hi
    exact (execCompReset_compReady s t h).imp id fun ht => ⟨rfl, ht⟩
  · exact .inl ((exec_writesOnly i s t h).compReady hi)

end Sys2Proof.Machine

namespace Sys2Proof.Proofs
open Sys2Proof Sys2Proof.Machine

/-- Settles O15: every instruction stays inside its frame, which holds none of the inputs. -/
theorem inputsKept : Obligations.InputsKept := by
  intro i s t h
  have hw := exec_writesOnly i s t h
  exact ⟨hw.op, hw.pal, hw.trnsa, hw.buffers .inb rfl, hw.buffers .filt rfl, hw.buffers .da rfl, hw.buffers .db rfl, hw.caps,
    hw.host, hw.epoch⟩

/-- Settles O16: every instruction stays inside its frame; COMP.RESET only ever sets `COMP_READY`. -/
theorem resultsKept : Obligations.ResultsKept := by
  intro i s t h
  have hw := exec_writesOnly i s t h
  have codes (hi : ¬ runsCodes i = true) : t.lzw = s.lzw ∧ t.dict = s.dict :=
    ⟨hw.lzw (Bool.not_eq_true _ ▸ hi), hw.dict (Bool.not_eq_true _ ▸ hi)⟩
  have ready (hne : t.compReady ≠ s.compReady) : i = .compReset ∧ t.compReady = true := by
    obtain ⟨hi, hset, _⟩ := (exec_compReady i s t h).resolve_left hne
    exact ⟨hi, hset⟩
  exact ⟨fun hne => (runsCodes_iff i).1 (not_imp_comm.1 codes (not_and_or.2 hne)), not_imp_comm.1 hw.compFrame, ready,
    not_imp_comm.1 hw.bbox, not_imp_comm.1 hw.blendSel, not_imp_comm.1 hw.filtUsed⟩

end Sys2Proof.Proofs
end

section
/-! The step: which access it carries out, and what a write of the host changes. -/

namespace Sys2Proof.Machine

variable {s t : State} {a : HostAccess} {rest : List HostAccess}

theorem step_idle (hs : s.host = []) : step s = .next s := by
  unfold step; rw [hs]

theorem step_ready (hs : s.host = a :: rest) (hb : s.status.busy = false) :
    step s = hostAccess a { s with host := rest } := by
  unfold step; rw [hs]; simp [hb]

theorem step_busy (hs : s.host = a :: rest) (hb : s.status.busy = true) : step s = .refused .hostAccessWhileBusy := by
  unfold step; rw [hs]; simp [hb]

/-- A step with an access pending that answers a next state has carried out that access. -/
theorem hostAccess_of_step (hs : s.host = a :: rest) (h : step s = .next t) :
    hostAccess a { s with host := rest } = .next t := by
  cases hb : s.status.busy with
  | false => rw [← step_ready hs hb, h]
  | true => rw [step_busy hs hb] at h; cases h

/-- `s` with `v` written to a register other than `CMD`. -/
def regWritten (r : RegName) (v : Word) (s : State) : State := { s with op := writeOperand s.op r v }

theorem hostAccess_writeReg {r : RegName} (hr : r ≠ .cmd) (v : Word) (s : State) :
    hostAccess (.writeReg r v) s = .next (regWritten r v s) := by
  cases r
  case cmd => exact absurd rfl hr
  all_goals rfl

/-- An access that is neither a `CMD` write nor the reset leaves `COMP_READY` as it is. -/
theorem hostAccess_compReady (hcmd : ∀ v, a ≠ .writeReg .cmd v) (hreset : a ≠ .reset) (h : hostAccess a s = .next t) :
    t.compReady = s.compReady := by
  cases a with
  | writeReg r v =>
    rw [hostAccess_writeReg (fun hr => hcmd v (hr ▸ rfl))] at h
    cases h; rfl
  | writeByte sp k b =>
    simp only [hostAccess, hostWriteByte] at h
    split at h
    · cases h; rfl
    · cases h
  | writePal k c => cases h; rfl
  | writeTrnsa k b => cases h; rfl
  | reset => exact absurd rfl hreset

/-! Table entries (R30, R31). -/

/-- A lookup after a write of one entry. -/
theorem tableGet_tablePut_one {α : Type} (b : Table α) (k : Nat) (v : α) (j : Nat) :
    tableGet (tablePut b k [v]) j = if j = k then some v else tableGet b j := by
  split
  next h => subst h; exact tableGet_tablePut_inside b j [v] 0 (by simp)
  next h => exact tableGet_tablePut_outside b k [v] j (by simp; omega)

theorem palAt_put (s : State) (k j : Nat) (c : Rgb) :
    ({ s with pal := tablePut s.pal k [c] } : State).palAt j = if j = k then c else s.palAt j := by
  simp only [State.palAt, tableGet_tablePut_one]
  split <;> rfl

theorem trnsaAt_put (s : State) (k j : Nat) (b : Byte) :
    ({ s with trnsa := tablePut s.trnsa k [b] } : State).trnsaAt j = if j = k then b else s.trnsaAt j := by
  simp only [State.trnsaAt, tableGet_tablePut_one]
  split <;> rfl

end Sys2Proof.Machine

namespace Sys2Proof.Proofs
open Sys2Proof Sys2Proof.Machine

/-- Settles O6: the three ways a step goes, by the queue and `BUSY`. -/
theorem stepRunsDecoded : Obligations.StepRunsDecoded :=
  ⟨fun _ _ _ hs hb => step_ready hs hb, fun _ hs => step_idle hs, fun _ _ _ hs hb => step_busy hs hb⟩

/-- Settles O10: a lookup after a one-entry write. -/
theorem tableWrite : Obligations.TableWrite := by
  refine ⟨fun s i c rest hs hb => ⟨_, step_ready hs hb, ?_, fun j hj => ?_, rfl⟩,
    fun s i a rest hs hb => ⟨_, step_ready hs hb, ?_, fun j hj => ?_, rfl⟩⟩
  · exact (palAt_put { s with host := rest } _ _ c).trans (if_pos rfl)
  · exact (palAt_put { s with host := rest } _ _ c).trans (if_neg hj)
  · exact (trnsaAt_put { s with host := rest } _ _ a).trans (if_pos rfl)
  · exact (trnsaAt_put { s with host := rest } _ _ a).trans (if_neg hj)

/-- Settles O20: only COMP.RESET among the instructions, and only the reset among the other accesses, moves `COMP_READY`. -/
theorem compReadyHistory : Obligations.CompReadyHistory := by
  intro s t a rest hs hstep
  have h := hostAccess_of_step hs hstep
  by_cases hreset : a = .reset
  · subst hreset
    cases h
    exact ⟨fun hr => (Bool.false_ne_true hr).elim, fun _ => .inr rfl⟩
  by_cases hcmd : ∃ v, a = .writeReg .cmd v
  · obtain ⟨v, rfl⟩ := hcmd
    rcases exec_compReady (decode .cmd v.toNat) _ t h with hkept | ⟨hi, hset, hok⟩
    · exact ⟨fun hr => .inl (hkept ▸ hr), fun hr => .inl (hkept.trans hr)⟩
    · exact ⟨fun _ => .inr ⟨v, rfl, hi, hok⟩, fun _ => .inl hset⟩
  · have hkept := hostAccess_compReady (not_exists.1 hcmd) hreset h
    exact ⟨fun hr => .inl (hkept ▸ hr), fun hr => .inl (hkept.trans hr)⟩

end Sys2Proof.Proofs
end

section
/-! The registers as the host sees them (R21, R22): the bits of their fields, and what a write leaves readable. -/

namespace Sys2Proof.Machine
open Sys2Proof.Claim

/-! Fields in a register word. -/

/-- A field of a register with its lowest bit at bit `o`. -/
def placed {n : Nat} (x : BitVec n) (o : Nat) : Word := x.setWidth 32 <<< o

theorem setWidth_eq_placed {n : Nat} (x : BitVec n) : x.setWidth 32 = placed x 0 := by simp [placed]

theorem placed_zero_shiftLeft {n : Nat} (x : BitVec n) (o : Nat) : placed x 0 <<< o = placed x o := by simp [placed]

theorem bitAt_eq_placed (b : Bool) (k : Nat) : bitAt b k = placed (BitVec.ofBool b) k := by
  cases b
  · simp [bitAt, placed]
  · refine BitVec.eq_of_toNat_eq ?_
    simp [bitAt, placed, Nat.shiftLeft_eq]

theorem getLsbD_placed {n : Nat} (x : BitVec n) (o k : Nat) (hk : k < 32) :
    (placed x o).getLsbD k = (decide (o ≤ k) && x.getLsbD (k - o)) := by
  by_cases ho : o ≤ k <;> simp [placed, hk, ho]

/-- A field has no bit in common with a word that is 0 at the field's place. -/
theorem placed_and_eq_zero {n : Nat} (x : BitVec n) (o : Nat) (m : Word) (h : m.extractLsb' o n = 0#n) :
    placed x o &&& m = 0#32 := by
  refine BitVec.eq_of_getLsbD_eq fun k hk => ?_
  rw [BitVec.getLsbD_and, getLsbD_placed x o k hk, BitVec.getLsbD_zero]
  by_cases hn : o ≤ k ∧ k - o < n
  · have hm := congrArg (fun y => y.getLsbD (k - o)) h
    simp only [BitVec.getLsbD_extractLsb', Nat.add_sub_cancel' hn.1, hn.2, BitVec.getLsbD_zero] at hm
    simpa using fun _ _ => hm
  · by_cases ho : o ≤ k
    · simp [BitVec.getLsbD_of_ge x (k - o) (by omega)]
    · simp [ho]

/-- The field of `v` at bits `o` to `o + n - 1`, put back in place, is `v` masked to those bits. -/
theorem placed_extractLsb' (v : Word) (o n : Nat) :
    placed (v.extractLsb' o n) o = v &&& placed (BitVec.allOnes n) o := by
  refine BitVec.eq_of_getLsbD_eq fun k hk => ?_
  rw [BitVec.getLsbD_and, getLsbD_placed _ o k hk, getLsbD_placed _ o k hk, BitVec.getLsbD_extractLsb',
    BitVec.getLsbD_allOnes]
  by_cases ho : o ≤ k
  · simp [ho, Bool.and_comm]
  · simp [ho]

theorem setWidth_setWidth_masked (v : Word) (n : Nat) (hn : n ≤ 32) :
    (v.setWidth n).setWidth 32 = v &&& placed (BitVec.allOnes n) 0 := by
  rw [setWidth_eq_placed, BitVec.setWidth_eq_extractLsb' hn, placed_extractLsb']

theorem bitAt_getLsbD_masked (v : Word) (k : Nat) : bitAt (v.getLsbD k) k = v &&& placed (BitVec.allOnes 1) k := by
  rw [bitAt_eq_placed, ← placed_extractLsb']
  congr 1
  ext j hj
  simp [show j = 0 by omega]

/-- R21: the bits of a register that belong to no field read as 0. -/
theorem readReg_and_not_fieldMask (s : State) (r : RegName) : s.readReg r &&& ~~~ fieldMask r = 0#32 := by
  cases r with
  | cmd => exact BitVec.zero_and
  | errinfo | inLen | outLen | outPos | bitPos | imgW | imgH | filtLen | canvasW | canvasH | rectX | rectY | rectW | rectH
  | idxLen | compFrame | bbX | bbY | bbW | bbH | filtUsed => exact BitVec.and_zero
  | lzwMincs | curSize | nextCode | ctype | depth | palLen | trnsLen | trnsK0 | trnsK1 | trnsK2 | tAlpha =>
    rw [State.readReg, setWidth_eq_placed]
    exact placed_and_eq_zero _ _ _ rfl
  | trnsCtl | blendSel =>
    rw [State.readReg, bitAt_eq_placed]
    exact placed_and_eq_zero _ _ _ rfl
  | prevCode | compCtl =>
    rw [State.readReg, setWidth_eq_placed, bitAt_eq_placed, BitVec.and_or_distrib_right, placed_and_eq_zero _ _ _ rfl,
      placed_and_eq_zero _ _ _ rfl]
    rfl
  | status =>
    simp (disch := decide) only [State.readReg, Status.word, setWidth_eq_placed, bitAt_eq_placed, placed_zero_shiftLeft,
      BitVec.and_or_distrib_right, placed_and_eq_zero, BitVec.or_zero]
  | blitCtl =>
    simp (disch := decide) only [State.readReg, setWidth_eq_placed, bitAt_eq_placed, placed_zero_shiftLeft,
      BitVec.and_or_distrib_right, placed_and_eq_zero, BitVec.or_zero]

/-- R21, R22: an operand register reads back the field bits of what was written to it. -/
theorem readReg_regWritten_same (s : State) (r : RegName) (v : Word) (hr : isOperand r = true) :
    (regWritten r v s).readReg r = v &&& fieldMask r := by
  cases r with
  | cmd | status | errinfo | outPos | bitPos | curSize | nextCode | prevCode | compFrame | bbX | bbY | bbW | bbH | blendSel
  | filtUsed => cases hr
  | inLen | outLen | imgW | imgH | filtLen | canvasW | canvasH | rectX | rectY | rectW | rectH | idxLen =>
    exact BitVec.and_allOnes.symm
  | lzwMincs | ctype | depth | palLen | trnsLen | trnsK0 | trnsK1 | trnsK2 | tAlpha =>
    exact setWidth_setWidth_masked v _ (by decide)
  | trnsCtl => exact bitAt_getLsbD_masked v 0
  | compCtl =>
    show (v.setWidth 2).setWidth 32 ||| bitAt (v.getLsbD 4) 4 = _
    rw [setWidth_setWidth_masked v 2 (by decide), bitAt_getLsbD_masked, ← BitVec.and_or_distrib_left]
    rfl
  | blitCtl =>
    show bitAt (v.getLsbD 0) 0 ||| bitAt (v.getLsbD 1) 1 ||| bitAt (v.getLsbD 2) 2 |||
      placed (v.extractLsb' 8 8) 8 = _
    simp only [bitAt_getLsbD_masked, placed_extractLsb', ← BitVec.and_or_distrib_left]
    rfl

/-- R22: a write to a register that is not an operand register is ignored. -/
theorem regWritten_of_not_operand (s : State) (r : RegName) (v : Word) (hr : isOperand r = false) : regWritten r v s = s := by
  cases r with
  | cmd | status | errinfo | outPos | bitPos | curSize | nextCode | prevCode | compFrame | bbX | bbY | bbW | bbH | blendSel
  | filtUsed => rfl
  | lzwMincs | inLen | outLen | imgW | imgH | ctype | depth | filtLen | palLen | trnsLen | trnsCtl | trnsK0 | trnsK1 | trnsK2
  | canvasW | canvasH | rectX | rectY | rectW | rectH | blitCtl | idxLen | compCtl | tAlpha => cases hr

/-- A write to one register leaves every other as it reads: each register reads fields of its own. -/
theorem readReg_regWritten_other (s : State) (r q : RegName) (v : Word) (hq : q ≠ r) :
    (regWritten r v s).readReg q = s.readReg q := by
  have hread : (regWritten r v s).readReg q = if q = r then (regWritten r v s).readReg r else s.readReg q := by
    cases r <;> cases q <;> rfl
  rw [hread, if_neg hq]

theorem readReg_regWritten (s : State) (r : RegName) (v : Word) :
    (regWritten r v s).readReg r = if isOperand r then v &&& fieldMask r else s.readReg r := by
  cases hr : isOperand r with
  | true => exact readReg_regWritten_same s r v hr
  | false => rw [regWritten_of_not_operand s r v hr]; rfl

/-- The registers in the order of their numbers (R22). -/
def registers : List RegName :=
  [.cmd, .status, .errinfo, .lzwMincs, .inLen, .outLen, .outPos, .bitPos, .curSize, .nextCode, .prevCode,
    .imgW, .imgH, .ctype, .depth, .filtLen, .palLen, .trnsLen, .trnsCtl, .trnsK0, .trnsK1, .trnsK2,
    .canvasW, .canvasH, .rectX, .rectY, .rectW, .rectH, .blitCtl, .idxLen, .compCtl, .compFrame, .tAlpha,
    .bbX, .bbY, .bbW, .bbH, .blendSel, .filtUsed]

theorem registers_number (r : RegName) : registers[r.number]? = some r := by
  cases r <;> rfl

theorem map_number_registers : registers.map RegName.number = List.range 39 := by decide

theorem number_lt (r : RegName) : r.number < 39 := (List.getElem?_eq_some_iff.1 (registers_number r)).1

theorem number_injective {r q : RegName} (h : r.number = q.number) : r = q := by
  have hq := registers_number q
  rw [← h, registers_number r] at hq
  exact Option.some.inj hq

theorem exists_number_eq {n : Nat} (hn : n < 39) : ∃ r : RegName, r.number = n := by
  have hmem : n ∈ registers.map RegName.number := by rw [map_number_registers]; exact List.mem_range.2 hn
  obtain ⟨r, _, hr⟩ := List.mem_map.1 hmem
  exact ⟨r, hr⟩

end Sys2Proof.Machine

namespace Sys2Proof.Proofs
open Sys2Proof Sys2Proof.Machine Sys2Proof.Claim

/-- Settles O7: the register written reads back its field bits, and no register reads another's fields. -/
theorem registerWrite : Obligations.RegisterWrite := by
  intro s r v rest hs hb hr
  refine ⟨regWritten r v { s with host := rest }, ?_, ?_, fun q hq => ?_, rfl⟩
  · rw [step_ready hs hb, hostAccess_writeReg hr]
  · exact readReg_regWritten { s with host := rest } r v
  · exact readReg_regWritten_other { s with host := rest } r q v hq

/-- Settles O8: the list of the registers in order gives the numbering; each register is its fields. -/
theorem registerFile : Obligations.RegisterFile :=
  ⟨fun _ hn => exists_number_eq hn, number_lt, fun _ _ h => number_injective h, readReg_and_not_fieldMask, fun _ => rfl⟩

/-- Settles O11: every field is 0 at reset, and no buffer or table lists an entry. -/
theorem resetValues : Obligations.ResetValues := by
  refine ⟨fun r => ?_, rfl, fun sp _ => ?_, fun _ => rfl, fun _ => rfl, fun _ => rfl⟩
  · cases r <;> rfl
  · cases sp <;> rfl

/-- Settles O13: at reset every table is empty and `STATUS` is 0. -/
theorem invariantAtReset : Obligations.InvariantAtReset where
  memWf := State.reset_wf
  memInside := by decide
  dictWf := .nil
  dictInside := by decide
  palWf := .nil
  palInside := by decide
  trnsaWf := .nil
  trnsaInside := by decide
  status := by decide

end Sys2Proof.Proofs
end

section
/-! The invariant of the code loop: where a run starts, and that every code keeps it. -/

namespace Sys2Proof.Machine

/-- A run with a legal `LZW_MINCS` starts in a state codes are run in: no entry yet, and room for every code (R132). -/
theorem LzwInv.init {s : State} (hm : 1 ≤ minCode s ∧ minCode s ≤ 8) : LzwInv (lzwInit s) := by
  have h2 : 2 ^ 1 ≤ 2 ^ minCode s := Nat.pow_le_pow_right (by decide) hm.1
  have h8 : 2 ^ minCode s ≤ 2 ^ 8 := Nat.pow_le_pow_right (by decide) hm.2
  have hmin : minCode (lzwInit s) = minCode s := rfl
  have heoi : eoiCode (minCode s) = 2 ^ minCode s + 1 := rfl
  have hnext : (lzwInit s).lzw.nextCode.toNat = eoiCode (minCode s) + 1 := by
    simp only [lzwInit, BitVec.toNat_ofNat]
    exact Nat.mod_eq_of_lt (by omega)
  have hcur : (lzwInit s).lzw.curSize.toNat = minCode s + 1 := by
    simp only [lzwInit, BitVec.toNat_ofNat]
    exact Nat.mod_eq_of_lt (by omega)
  exact {
    minLegal := hm
    width := by rw [hmin, hcur]; omega
    next := by rw [hmin, hnext]; omega
    fits := by rw [hcur, hnext, pow_succ]; omega
    room := Nat.zero_le _
    entries := fun code h1 h2 => by rw [hmin] at h1; rw [hnext] at h2; omega
    prev := fun hv => (Bool.false_ne_true hv).elim
    fresh := fun _ => by rw [hmin, hnext] }

end Sys2Proof.Machine

namespace Sys2Proof.Proofs
open Sys2Proof Sys2Proof.Machine Sys2Proof.Claim

/-- Settles O29: the first operand check makes the start legal, and a code runs by its class, which keeps the invariant. -/
theorem lzwInvariantKept : Obligations.LzwInvariantKept := by
  refine ⟨fun s hp => ?_, fun s t code hs hcode hexec => ?_⟩
  · have hm : 1 ≤ minCode s ∧ minCode s ≤ 8 := of_decide_eq_true (hp _ List.mem_cons_self)
    exact LzwInv.init (s := cleared s) hm
  · rw [exec_decode_code s code hs.width.2 hcode] at hexec
    cases hexec
    exact hs.code _

end Sys2Proof.Proofs
end

section
/-! Tables inside their sizes: a table is canonical and lists no index at or beyond the size of its space (R29, R30, R31,
R61, R62), and the invariant of the block is that of every buffer and table, beside a legal `STATUS`. -/

namespace Sys2Proof.Machine

/-- A table in canonical form that lists indices below `n` only. -/
structure TableFits {α : Type} (b : Table α) (n : Nat) : Prop where
  wf : tableWf b
  below : tableBelow b n

theorem TableFits.put {α : Type} {b : Table α} {n : Nat} (h : TableFits b n) {k : Nat} {vs : List α}
    (hk : k + vs.length ≤ n) : TableFits (tablePut b k vs) n :=
  ⟨tableWf_tablePut b k vs h.wf, tableBelow_tablePut b k vs n h.below hk⟩

/-- What every write of a run keeps, the run keeps. -/
theorem TableFits.foldl {α ι : Type} {b : Table α} {n : Nat} (h : TableFits b n) {f : Table α → ι → Table α} {l : List ι}
    (hf : ∀ b, TableFits b n → ∀ x ∈ l, TableFits (f b x) n) : TableFits (l.foldl f b) n :=
  List.foldlRecOn l f h hf

theorem Memory.inside_iff (m : Memory) (c : Caps) : m.inside c ↔ ∀ sp, tableBelow (m.buf sp) (c.of sp) := by
  constructor
  · rintro ⟨h1, h2, h3, h4, h5, h6, h7, h8, h9, h10⟩ sp
    cases sp <;> assumption
  · intro h
    exact ⟨h .inb, h .idx, h .filt, h .raw, h .pix, h .canvas, h .vis, h .snap, h .da, h .db⟩

theorem Memory.inside_setBuf {m : Memory} {c : Caps} {sp : Space} {b : Table Byte} (h : m.inside c)
    (hb : tableBelow b (c.of sp)) : (m.setBuf sp b).inside c := by
  rw [Memory.inside_iff] at *
  intro sq
  by_cases hs : sq = sp
  · subst hs; simpa using hb
  · rw [Memory.buf_setBuf_other m b hs]; exact h sq

variable {s t : State}

theorem Inv.buf (h : Inv s) (sp : Space) : TableFits (s.mem.buf sp) (s.caps.of sp) :=
  ⟨(Memory.wf_iff _).1 h.memWf sp, (Memory.inside_iff _ _).1 h.memInside sp⟩

/-- The invariant speaks of buffers, tables and status only. A hypothesis that is not given holds by computation. -/
theorem Inv.congr (h : Inv s) (mem : t.mem = s.mem := by rfl) (caps : t.caps = s.caps := by rfl)
    (dict : t.dict = s.dict := by rfl) (pal : t.pal = s.pal := by rfl) (trnsa : t.trnsa = s.trnsa := by rfl)
    (status : t.status = s.status := by rfl) (errinfo : t.errinfo = s.errinfo := by rfl) : Inv t where
  memWf := mem ▸ h.memWf
  memInside := mem ▸ caps ▸ h.memInside
  dictWf := dict ▸ h.dictWf
  dictInside := dict ▸ h.dictInside
  palWf := pal ▸ h.palWf
  palInside := pal ▸ h.palInside
  trnsaWf := trnsa ▸ h.trnsaWf
  trnsaInside := trnsa ▸ h.trnsaInside
  status := status ▸ errinfo ▸ h.status

/-! Storage. -/

theorem Inv.setBuf (h : Inv s) {sp : Space} {b : Table Byte} (hb : TableFits b (s.caps.of sp)) : Inv (s.setBuf sp b) :=
  { h with memWf := Memory.wf_setBuf _ _ _ h.memWf hb.wf, memInside := Memory.inside_setBuf h.memInside hb.below }

theorem Inv.write (h : Inv s) {sp : Space} {k : Nat} {bs : List Byte} (hk : k + bs.length ≤ s.caps.of sp) :
    Inv (s.write sp k bs) := h.setBuf ((h.buf sp).put hk)

theorem Inv.forget (h : Inv s) {sp : Space} {k n : Nat} (hk : k + n ≤ s.caps.of sp) : Inv (s.forget sp k n) :=
  (h.write (sp := sp) (k := k) (bs := (List.range' k n).map (Config.afterFault s.free)) (by simpa using hk)).congr

/-- Writing, or forgetting, the first `n` bytes of a space with that many. -/
theorem Inv.writeFirst (h : Inv s) {sp : Space} {bs : List Byte} {n : Nat} (hlen : bs.length = n) (hn : n ≤ s.caps.of sp) :
    Inv (s.write sp 0 bs) := h.write (by omega)

theorem Inv.forgetFirst (h : Inv s) {sp : Space} {n : Nat} (hn : n ≤ s.caps.of sp) : Inv (s.forget sp 0 n) :=
  h.forget (by omega)

theorem Inv.putDict (h : Inv s) {k : Nat} (hk : k < 4096) (e : DictEntry) :
    Inv { s with dict := tablePut s.dict k [e] } :=
  have hd := (TableFits.mk h.dictWf h.dictInside).put (k := k) (vs := [e]) hk
  { h with dictWf := hd.wf, dictInside := hd.below }

theorem Inv.putPal (h : Inv s) (k : Byte) (c : Rgb) : Inv { s with pal := tablePut s.pal k.toNat [c] } :=
  have hp := (TableFits.mk h.palWf h.palInside).put (vs := [c]) k.isLt
  { h with palWf := hp.wf, palInside := hp.below }

theorem Inv.putTrnsa (h : Inv s) (k b : Byte) : Inv { s with trnsa := tablePut s.trnsa k.toNat [b] } :=
  have ht := (TableFits.mk h.trnsaWf h.trnsaInside).put (vs := [b]) k.isLt
  { h with trnsaWf := ht.wf, trnsaInside := ht.below }

/-! `STATUS` (R24, R320, R323). -/

theorem Inv.setStatus (h : Inv s) {f : Status} {n : Word} (hf : statusLegal f n) :
    Inv { s with status := f, errinfo := n } := { h with status := hf }

/-- Without a fault, `DONE` and the warning flags are free. -/
theorem statusLegal_of_no_err {f g : Status} {n : Word} (h : statusLegal f n) (hf : f.err = false)
    (busy : g.busy = false) (err : g.err = f.err := by rfl) (errcode : g.errcode = f.errcode := by rfl) :
    statusLegal g n := by
  obtain ⟨_, hiff, hle, _, hinfo⟩ := h
  refine ⟨busy, err ▸ errcode ▸ hiff, errcode ▸ hle, fun hg => ?_, fun _ => hinfo hf⟩
  rw [err, hf] at hg
  cases hg

theorem Inv.begin (h : Inv s) : Inv s.begin := h.setStatus (by decide)

/-- R321: the fault codes are 1 to 7. -/
theorem errCode_range (e : ErrKind) : errCode e ≠ 0#8 ∧ (errCode e).toNat ≤ 7 := by
  cases e <;> decide

theorem Inv.raise (h : Inv s) (e : ErrKind) (info : Nat) : Inv (s.raise e info) :=
  have ⟨hne, hle⟩ := errCode_range e
  h.setStatus ⟨rfl, iff_of_true rfl hne, hle, fun _ => ⟨rfl, rfl, rfl, rfl, rfl⟩, nofun⟩

/-- A running command that moves flags of `STATUS` other than `BUSY`, `ERR` and `ERRCODE`. -/
theorem Inv.setFlags (h : Inv s) (hrun : s.status.err = false) {f : Status} (busy : f.busy = false)
    (err : f.err = s.status.err := by rfl) (errcode : f.errcode = s.status.errcode := by rfl) :
    Inv { s with status := f } := h.setStatus (statusLegal_of_no_err h.status hrun busy err errcode)

theorem Inv.complete (h : Inv s) : Inv s.complete := by
  cases herr : s.status.err with
  | true => rw [State.complete_of_err s herr]; exact h
  | false => rw [State.complete_of_ok s herr]; exact h.setFlags herr rfl

/-- A command keeps the invariant when its body does under the command's own operand checks. -/
theorem command_inv {checks : List Check} {body : State → State} (h : Inv s)
    (hbody : (∀ c ∈ checks, c.1 = true) → Inv (body s.begin)) : Inv (command checks body s) := by
  rcases command_cases checks body s with ⟨reg, _, hc⟩ | ⟨hpass, hc⟩
  · rw [hc]; exact h.begin.raise .param reg
  · rw [hc]; exact (hbody ((firstFailing_eq_none checks).1 hpass)).complete

end Sys2Proof.Machine
end

section
/-! What every command writes stays inside the buffers its operand checks measured (R62, R64, R326). -/

namespace Sys2Proof.Machine

variable {s t : State} {i : Instr}

/-! The frame rectangle and the canvas. -/

/-- The canvas fits its buffers and the rectangle fits the canvas. -/
structure RectInCanvas (s : State) : Prop where
  bytes : canvasBytes s ≤ s.caps.canvas
  cols : rectX s + rectW s ≤ canvasW s
  rows : rectY s + rectH s ≤ canvasH s

theorem RectInCanvas.congr (h : RectInCanvas s) (hw : WritesOnly i s t) : RectInCanvas t := by
  obtain ⟨hbytes, hcols, hrows⟩ := h
  constructor <;> simpa only [canvasBytes, canvasW, canvasH, rectX, rectY, rectW, rectH, hw.op, hw.caps]

theorem RectInCanvas.pixel (h : RectInCanvas s) {c r : Nat} (hc : c < rectW s) (hr : r < rectH s) :
    rectAddr s c r + 4 ≤ s.caps.canvas := (rectAddr_inside s h.cols h.rows hc hr).trans h.bytes

theorem RectInCanvas.row (h : RectInCanvas s) {r : Nat} (hr : r < rectH s) :
    rectAddr s 0 r + 4 * rectW s ≤ s.caps.canvas := by
  refine le_trans ?_ h.bytes
  have hcols := h.cols
  have hrows : (rectY s + r + 1) * canvasW s ≤ canvasH s * canvasW s := Nat.mul_le_mul_right _ (by have := h.rows; omega)
  simp only [rectAddr_eq, canvasBytes, Nat.mul_comm (canvasW s) (canvasH s)]
  rw [Nat.add_mul, Nat.one_mul] at hrows
  omega

/-- A run of writes to `CANVAS`, each of which keeps the table inside the capacity. -/
theorem Inv.foldCanvas {ι : Type} (h : Inv s) {f : Table Byte → ι → Table Byte} {l : List ι}
    (hf : ∀ b, TableFits b s.caps.canvas → ∀ x ∈ l, TableFits (f b x) s.caps.canvas) :
    Inv (s.setBuf .canvas (l.foldl f (s.mem.buf .canvas))) := h.setBuf ((h.buf .canvas).foldl hf)

theorem Inv.forgetRect (h : Inv s) (hr : RectInCanvas s) : Inv (forgetRect s) :=
  (List.foldlRecOn (motive := fun u => Inv u ∧ u.caps = s.caps) (List.range (rectH s)) _ ⟨h, rfl⟩
    fun _ ⟨hu, hcaps⟩ _ hq => ⟨hu.forget (hcaps ▸ hr.row (List.mem_range.1 hq)), hcaps⟩).1

theorem zeroRect_inv (h : Inv s) (hr : RectInCanvas s) : Inv (zeroRect s) :=
  h.foldCanvas fun _ hb _ hq => hb.put (by simpa using hr.row (List.mem_range.1 hq))

theorem blendRect_inv (op : BlendOp) (h : Inv s) (hr : RectInCanvas s) : Inv (blendRect op s) := by
  refine h.foldCanvas fun b hb p hp => hb.put ?_
  obtain ⟨hc, hq⟩ := (mem_pixelsOf _ _ p).1 hp
  rw [blendPixel_length _ _ _ (framePixel_length s _ _)]
  exact hr.pixel hc hq

theorem copyCanvas_inv (src : Space) {dst : Space} (h : Inv s) (hdst : canvasBytes s ≤ s.caps.of dst) :
    Inv (copyCanvas src dst s) := h.writeFirst (State.bytes_length _ _ _ _) hdst

/-! U1 (R170). -/

theorem blitAct_paint_length {mode : BlitMode} {idx : Byte} {bs : List Byte} (h : blitAct mode s idx = .paint bs) :
    bs.length = 4 := by
  unfold blitAct at h
  split_ifs at h
  cases h
  exact blitColour_length _ _

theorem blitPixel_fits (mode : BlitMode) (hr : RectInCanvas s) {b : Table Byte} (hb : TableFits b s.caps.canvas) {n : Nat}
    (hn : n < blitCount s) : TableFits (blitPixel mode s b n) s.caps.canvas := by
  unfold blitPixel
  split
  next bs hact =>
    obtain ⟨c, r, hc, hq, haddr⟩ := blitAddr_in_rect mode s n hn
    refine hb.put ?_
    rw [blitAct_paint_length hact, haddr]
    exact hr.pixel hc hq
  next => exact hb
  next => exact hb

theorem blitRun_inv (mode : BlitMode) (h : Inv s) (hp : ∀ c ∈ blitChecks s, c.1 = true) : Inv (blitRun mode s) := by
  simp only [blitChecks, List.forall_mem_cons, decide_eq_true_eq] at hp
  obtain ⟨hbytes, hcols, hrows, -⟩ := hp
  rcases blitRun_cases mode s with ⟨n, _, hrun⟩ | ⟨_, hrun⟩
  · rw [hrun]; exact (h.raise _ _).forgetRect ⟨hbytes, hcols, hrows⟩
  · rw [hrun]
    exact h.foldCanvas fun b hb n hn => blitPixel_fits mode ⟨hbytes, hcols, hrows⟩ hb (List.mem_range.1 hn)

/-! U2 and U3 (R190, R210). -/

theorem raiseFilterTag_inv (n : Nat) (h : Inv s) (hraw : imgH s * imageRowBytes s ≤ s.caps.raw) :
    Inv (raiseFilterTag n s) := (h.raise _ _).forgetFirst hraw

theorem reconChecks_raw (hp : ∀ c ∈ reconChecks s, c.1 = true) : imgH s * imageRowBytes s ≤ s.caps.raw :=
  of_decide_eq_true (hp (rawCheck s) (by simp [reconChecks]))

/-- The rows of an image take as many bytes as it has rows of `rb` bytes (R191). -/
theorem recon_flatten_length {rb bpp n k : Nat} {prev : List Byte} {rows : List (List Byte)}
    (h : recon s rb bpp n k prev = .ok rows) : rows.flatten.length = n * rb := by
  obtain ⟨hcount, hlen, _⟩ := recon_rows _ _ _ _ _ _ _ h
  rw [flatten_length rows rb hlen, hcount]

theorem adam7Go_raster_length {ps : List Pass} {k n : Nat} {raw : List Byte}
    (h : adam7Go s ps k (List.replicate n 0) = .ok raw) : raw.length = n := by
  rw [adam7Go_length _ _ _ _ _ h, List.length_replicate]

theorem defilterRun_inv (h : Inv s) (hp : ∀ c ∈ reconChecks s, c.1 = true) : Inv (defilterRun s) := by
  have hraw := reconChecks_raw hp
  rcases defilterRun_cases s with ⟨_, hrun⟩ | ⟨_, n, _, hrun⟩ | ⟨_, rows, hrows, hrun⟩
  · rw [hrun]; exact h.raise _ _
  · rw [hrun]; exact raiseFilterTag_inv n h hraw
  · rw [hrun]
    exact (h.writeFirst (sp := .raw) (recon_flatten_length hrows) hraw).congr

theorem adam7Run_inv (h : Inv s) (hp : ∀ c ∈ reconChecks s, c.1 = true) : Inv (adam7Run s) := by
  have hraw := reconChecks_raw hp
  rcases adam7Run_cases s with ⟨_, hrun⟩ | ⟨_, n, _, hrun⟩ | ⟨_, raw, hgo, hrun⟩
  · rw [hrun]; exact h.raise _ _
  · rw [hrun]; exact raiseFilterTag_inv n h hraw
  · rw [hrun]
    exact (h.writeFirst (sp := .raw) (adam7Go_raster_length hgo) hraw).congr

/-! U4 (R230, R235). -/

theorem unpackIdxRun_inv (h : Inv s) (hp : ∀ c ∈ unpackIdxChecks s, c.1 = true) : Inv (unpackIdxRun s) := by
  have hidx : imgW s * imgH s ≤ s.caps.idx := by
    simp only [unpackIdxChecks, List.forall_mem_cons, decide_eq_true_eq] at hp
    obtain ⟨-, -, -, -, -, hidx, -⟩ := hp
    exact hidx
  exact h.writeFirst (by simp) hidx

/-- A pixel form gives four bytes or no colour (R235). -/
def FourBytes (pixel : State → Nat → Nat → Option (List Byte)) (s : State) : Prop :=
  ∀ x y bs, pixel s x y = some bs → bs.length = 4

theorem pixelGray_fourBytes : FourBytes pixelGray s := fun x y bs => (pixel_length s x y bs).1
theorem pixelRgb_fourBytes : FourBytes pixelRgb s := fun x y bs => (pixel_length s x y bs).2.1
theorem pixelPalette_fourBytes : FourBytes pixelPalette s := fun x y bs => (pixel_length s x y bs).2.2.1
theorem pixelGrayAlpha_fourBytes : FourBytes pixelGrayAlpha s := fun x y bs => (pixel_length s x y bs).2.2.2.1
theorem pixelRgba_fourBytes : FourBytes pixelRgba s := fun x y bs => (pixel_length s x y bs).2.2.2.2

/-- All UNPACK.RGBA can do after its operand checks: an expansion, or the fault of an illegal colour type (R107, R235). -/
theorem unpackRgbaRun_cases (s : State) :
    (∃ pixel, FourBytes pixel s ∧ unpackRgbaRun s = expandImage pixel s) ∨ unpackRgbaRun s = s.raise .param 13 := by
  unfold unpackRgbaRun
  split
  · exact .inl ⟨_, pixelGray_fourBytes, rfl⟩
  · exact .inl ⟨_, pixelRgb_fourBytes, rfl⟩
  · exact .inl ⟨_, pixelPalette_fourBytes, rfl⟩
  · exact .inl ⟨_, pixelGrayAlpha_fourBytes, rfl⟩
  · exact .inl ⟨_, pixelRgba_fourBytes, rfl⟩
  · exact .inr rfl

theorem expandImage_inv {pixel : State → Nat → Nat → Option (List Byte)} (h4 : FourBytes pixel s) (h : Inv s)
    (hpix : imgW s * imgH s * 4 ≤ s.caps.pix) : Inv (expandImage pixel s) := by
  rcases expandImage_cases pixel s with ⟨p, _, hrun⟩ | ⟨hall, hrun⟩
  · rw [hrun]; exact (h.raise _ _).forgetFirst hpix
  · rw [hrun]
    refine h.writeFirst ?_ hpix
    rw [flatMap_length_pieces, length_pixelsOf, Nat.mul_comm]
    · intro p hp
      obtain ⟨hx, hy⟩ := (mem_pixelsOf _ _ p).1 hp
      obtain ⟨bs, hbs⟩ := Option.isSome_iff_exists.1 (hall p.1 p.2 hx hy)
      rw [hbs]; exact h4 _ _ _ hbs

theorem unpackRgbaRun_inv (h : Inv s) (hp : ∀ c ∈ unpackRgbaChecks s, c.1 = true) : Inv (unpackRgbaRun s) := by
  simp only [unpackRgbaChecks, imageChecks, List.cons_append, List.nil_append, List.forall_mem_cons,
    decide_eq_true_eq] at hp
  obtain ⟨-, -, -, -, -, hpix, -⟩ := hp
  rcases unpackRgbaRun_cases s with ⟨pixel, h4, hrun⟩ | hrun
  · rw [hrun]; exact expandImage_inv h4 h hpix
  · rw [hrun]; exact h.raise _ _

end Sys2Proof.Machine
end

section
/-! Every command keeps the invariant, and so does every step. -/

namespace Sys2Proof.Machine

variable {s t : State} {i : Instr}

/-! U5 (R260, R261). -/

theorem compResetRun_inv (h : Inv s) (hp : ∀ c ∈ canvasChecks s, c.1 = true) : Inv (compResetRun s) := by
  simp only [canvasChecks, List.forall_mem_cons, decide_eq_true_eq] at hp
  obtain ⟨-, -, hbytes, -⟩ := hp
  exact (h.writeFirst (sp := .canvas) List.length_replicate hbytes).congr

theorem disposeStep_inv (op : DisposeOp) (phase : DisposePhase) (h : Inv s) (hr : RectInCanvas s) :
    Inv (disposeStep op phase s) := by
  cases op with
  | none => exact h
  | clearToBackground =>
    cases phase with
    | beforeBlend => exact h
    | afterVisible => exact zeroRect_inv h hr
  | restoreToPrevious =>
    cases phase with
    | beforeBlend => exact copyCanvas_inv .canvas (dst := .snap) h hr.bytes
    | afterVisible => exact copyCanvas_inv .snap (dst := .canvas) h hr.bytes
  | reserved => exact h.raise _ _

theorem compFrameRun_inv (h : Inv s) (hr : RectInCanvas s) : Inv (compFrameRun s) := by
  have w1 : WritesOnly .compFrame s (disposeStep (disposeOp s.op.dispose) .beforeBlend s) := disposeStep_writesOnly _ _
  have w2 := w1.trans (blendRect_writesOnly (frameBlend s))
  have w3 := w2.trans (copyCanvas_writesOnly .canvas (dst := .vis) rfl)
  have h1 := disposeStep_inv (disposeOp s.op.dispose) .beforeBlend h hr
  have h2 := blendRect_inv (frameBlend s) h1 (hr.congr w1)
  have h3 := copyCanvas_inv .canvas (dst := .vis) h2 (hr.congr w2).bytes
  exact (disposeStep_inv (disposeOp s.op.dispose) .afterVisible h3 (hr.congr w3)).congr

theorem compFrameChecks_rect (hp : ∀ c ∈ compFrameChecks s, c.1 = true) : RectInCanvas s := by
  simp only [compFrameChecks, canvasChecks, rectChecks, List.cons_append, List.nil_append, List.forall_mem_cons,
    decide_eq_true_eq] at hp
  obtain ⟨-, -, hbytes, -, -, hcols, hrows, -⟩ := hp
  exact ⟨hbytes, hcols, hrows⟩

theorem compFrameCommand_inv (h : Inv s) : Inv (compFrameCommand s) := by
  unfold compFrameCommand
  split
  · exact command_inv h fun hp => compFrameRun_inv h.begin (compFrameChecks_rect (s := s.begin) hp)
  · exact h.begin.raise _ _

/-! U0 (R130 to R149): codes run while no fault is raised, and emit below `OUT_LEN`, which fits `IDX`. -/

theorem lzwAddEntry_inv (first : Byte) (h : Inv s) : Inv (lzwAddEntry first s) := by
  by_cases hroom : s.lzw.prevValid = true ∧ s.lzw.nextCode.toNat < 4096
  · rw [lzwAddEntry_of_room first s hroom]; exact (h.putDict hroom.2 _).congr
  · rw [lzwAddEntry_of_full first s hroom]; exact h

theorem lzwData_inv (str : List Byte) (code : BitVec 12) (h : Inv s) (hrun : s.status.err = false)
    (hlen : s.op.outLen.toNat ≤ s.caps.idx) : Inv (lzwData str code s) := by
  by_cases hfit : s.op.outLen.toNat < s.lzw.outPos.toNat + str.length
  · rw [lzwData_overrun str code s hfit]; exact h.setFlags hrun h.status.1
  · rw [lzwData_fits str code s hfit]
    have hemit : Inv { s.write .idx s.lzw.outPos.toNat str with
        lzw := { s.lzw with outPos := s.lzw.outPos + BitVec.ofNat 32 str.length } } :=
      (h.write (sp := .idx) (le_trans (not_lt.1 hfit) hlen)).congr
    exact (lzwAddEntry_inv (str.headD 0) hemit).congr

theorem lzwCode_inv (code : BitVec 12) (h : Inv s) (hrun : s.status.err = false)
    (hlen : s.op.outLen.toNat ≤ s.caps.idx) : Inv (lzwCode code s) := by
  unfold lzwCode
  split
  · exact h.congr
  · exact h.setFlags hrun h.status.1
  · exact lzwData_inv _ _ h hrun hlen
  · exact lzwData_inv _ _ h hrun hlen
  · exact lzwData_inv _ _ h hrun hlen
  · exact (h.raise _ _).forgetFirst hlen

theorem lzwTurn_inv (stream nbits : Nat) (h : Inv s) (hrun : s.status.err = false)
    (hlen : s.op.outLen.toNat ≤ s.caps.idx) : Inv (lzwTurn stream nbits s) := by
  rcases lzwTurn_cases stream nbits s with ⟨_, hturn⟩ | ⟨_, hturn⟩
  · rw [hturn]; exact h.setFlags hrun h.status.1
  · rw [hturn]; exact lzwCode_inv _ h.congr hrun hlen

/-- What every turn of a run without a fault keeps, the loop keeps: a fault halts it (R149). -/
theorem lzwLoop_keeps_of_no_err (P : State → Prop) (stream nbits : Nat)
    (hstep : ∀ s, P s → s.status.err = false → P (lzwTurn stream nbits s)) (turns : Nat) (s : State) (h : P s)
    (hrun : s.status.err = false) : P (lzwLoop stream nbits turns s) := by
  induction turns generalizing s with
  | zero => exact h
  | succ turns ih =>
    simp only [lzwLoop]
    split
    next => exact hstep s h hrun
    next hhalt =>
      refine ih _ (hstep s h hrun) ?_
      simp only [Status.halted, Bool.or_eq_true, not_or, Bool.not_eq_true] at hhalt
      exact hhalt.2

theorem lzwFinish_inv (h : Inv s) : Inv (lzwFinish s) := by
  unfold lzwFinish
  split
  next => exact h
  next hrun => exact h.setFlags (Bool.not_eq_true _ ▸ hrun) h.status.1

theorem lzwRun_inv (h : Inv s) (hrun : s.status.err = false) (hlen : s.op.outLen.toNat ≤ s.caps.idx) : Inv (lzwRun s) := by
  have hturn (u : State) (hu : Inv u ∧ WritesOnly .lzwDecode s u) (hrun : u.status.err = false) :
      Inv (lzwTurn (bitStream (payload s)) (8 * (payload s).length) u) ∧
        WritesOnly .lzwDecode s (lzwTurn (bitStream (payload s)) (8 * (payload s).length) u) := by
    obtain ⟨hu, hw⟩ := hu
    exact ⟨lzwTurn_inv _ _ hu hrun (by rw [hw.op, hw.caps]; exact hlen), hw.trans (lzwTurn_writesOnly rfl _ _)⟩
  have hinit : Inv (lzwInit s) ∧ WritesOnly .lzwDecode s (lzwInit s) := ⟨h.congr, { lzw := nofun }⟩
  exact lzwFinish_inv (lzwLoop_keeps_of_no_err _ _ _ hturn _ _ hinit hrun).1

/-! Every command, access and step. -/

/-- The instructions a `CMD` write can start (R92, R93). -/
def isCommand : Instr → Bool
  | .nop => true
  | .lzwDecode => true
  | .blitGif => true
  | .defilterRun => true
  | .adam7Run => true
  | .unpackIdx => true
  | .unpackRgba => true
  | .compReset => true
  | .compFrame => true
  | .deltaBbox => true
  | .deltaBlend => true
  | .cmdReserved _ => true
  | _ => false

theorem isCommand_decode_cmd (w : Nat) : isCommand (decode .cmd w) = true := by
  simp only [decode, decodeCmd]
  split <;> rfl

theorem exec_command_inv (hi : isCommand i = true) (h : Inv s) (hexec : exec i s = .next t) : Inv t := by
  cases i
  case nop => cases hexec; exact h.begin.setFlags rfl rfl
  case lzwDecode =>
    cases hexec
    refine command_inv h fun hp => lzwRun_inv h.begin rfl ?_
    simp only [lzwChecks, List.forall_mem_cons, decide_eq_true_eq] at hp
    obtain ⟨-, -, hlen, -⟩ := hp
    exact hlen
  case blitGif => cases hexec; exact command_inv h fun hp => blitRun_inv _ h.begin hp
  case defilterRun => cases hexec; exact command_inv h fun hp => defilterRun_inv h.begin hp
  case adam7Run => cases hexec; exact command_inv h fun hp => adam7Run_inv h.begin hp
  case unpackIdx => cases hexec; exact command_inv h fun hp => unpackIdxRun_inv h.begin hp
  case unpackRgba => cases hexec; exact command_inv h fun hp => unpackRgbaRun_inv h.begin hp
  case compReset => cases hexec; exact command_inv h fun hp => compResetRun_inv h.begin hp
  case compFrame => cases hexec; exact compFrameCommand_inv h
  case deltaBbox => cases hexec; exact command_inv h fun _ => h.begin.congr
  case deltaBlend => cases hexec; exact command_inv h fun _ => h.begin.congr
  case cmdReserved => cases hexec; exact h.begin.raise _ _
  all_goals cases hi

theorem resetEvent_inv (hexec : resetEvent s = .next t) : Inv t := by
  cases hexec
  have hreset : Inv State.reset := Proofs.invariantAtReset
  exact { hreset with memInside := (Memory.inside_iff _ _).2 fun sp => by cases sp <;> exact List.forall_mem_nil _ }

theorem hostAccess_inv {a : HostAccess} (h : Inv s) (hexec : hostAccess a s = .next t) : Inv t := by
  cases a with
  | writeReg r v =>
    by_cases hr : r = .cmd
    · subst hr; exact exec_command_inv (isCommand_decode_cmd _) h hexec
    · rw [hostAccess_writeReg hr] at hexec
      cases hexec; exact h.congr
  | writeByte sp k b =>
    simp only [hostAccess, hostWriteByte] at hexec
    split at hexec
    next hk => cases hexec; exact h.write hk
    next => cases hexec
  | writePal k c => cases hexec; exact h.putPal k c
  | writeTrnsa k b => cases hexec; exact h.putTrnsa k b
  | reset => exact resetEvent_inv hexec

end Sys2Proof.Machine

namespace Sys2Proof.Proofs
open Sys2Proof Sys2Proof.Machine

/-- Settles O14: the operand checks of a command bound all it writes, and a fault is raised once. -/
theorem invariantKept : Obligations.InvariantKept := by
  intro s t h hstep
  cases hhost : s.host with
  | nil =>
    rw [step_idle hhost] at hstep
    cases hstep; exact h
  | cons a rest => exact hostAccess_inv (s := { s with host := rest }) h.congr (hostAccess_of_step hhost hstep)

end Sys2Proof.Proofs
end

section
/-! A byte of the host (R44, R61), and the bits of LZW codes (R66, R134). -/

namespace Sys2Proof.Machine
open Sys2Proof.Claim

theorem hostAccess_writeByte_below {s : State} {sp : Space} {k : Nat} (hk : k < s.caps.of sp) (b : Byte) :
    hostAccess (.writeByte sp k b) s = .next (s.write sp k [b]) := if_pos hk

theorem hostAccess_writeByte_beyond {s : State} {sp : Space} {k : Nat} (hk : s.caps.of sp ≤ k) (b : Byte) :
    hostAccess (.writeByte sp k b) s = .fault .noSuchByte := if_neg (not_lt.2 hk)

theorem hostByte_write_same {s : State} {sp : Space} {k : Nat} (hk : k < s.caps.of sp) (b : Byte) :
    (s.write sp k [b]).hostByte sp k = some b := by
  unfold State.hostByte
  rw [State.write_caps, if_pos hk]
  exact congrArg some (State.byte_write_inside s sp k [b] 0 (by simp))

theorem hostByte_write_other (s : State) {sp sq : Space} {k j : Nat} (h : sq ≠ sp ∨ j ≠ k) (b : Byte) :
    (s.write sp k [b]).hostByte sq j = s.hostByte sq j := by
  unfold State.hostByte
  rw [State.write_caps, State.byte_write_outside s sp k [b] sq j (by simp; omega)]

/-- Payload bit `k` is bit `k` of the payload as one number (R66). -/
theorem bitStream_bit (p : List Byte) (k : Nat) : bitStream p / 2 ^ k % 2 = payloadBit p k := by
  unfold payloadBit
  rw [← Nat.toNat_testBit, testBit_bitStream, Nat.toNat_testBit]

/-- Bit `j` of a code is payload bit `pos + j` (R66). -/
theorem codeAt_bit (p : List Byte) (pos w j : Nat) (hj : j < w) :
    codeAt (bitStream p) pos w / 2 ^ j % 2 = payloadBit p (pos + j) := by
  rw [← Nat.toNat_testBit, testBit_codeAt, decide_eq_true hj, Bool.true_and, Nat.toNat_testBit, bitStream_bit]

/-- A code one bit wider has one more payload bit on top. -/
theorem codeAt_succ (p : List Byte) (pos w : Nat) :
    codeAt (bitStream p) pos (w + 1) = codeAt (bitStream p) pos w + payloadBit p (pos + w) * 2 ^ w := by
  unfold codeAt
  rw [Nat.mod_pow_succ, Nat.div_div_eq_div_mul, ← pow_add, bitStream_bit, Nat.mul_comm (2 ^ w)]

/-- A code is the sum over its bits (R134). -/
theorem codeAt_eq_codeValue (p : List Byte) (pos w : Nat) : codeAt (bitStream p) pos w = codeValue p pos w := by
  induction w with
  | zero => simp [codeAt, codeValue, Nat.mod_one]
  | succ w ih => rw [codeAt_succ, ih]; simp [codeValue, List.range_succ]

end Sys2Proof.Machine

namespace Sys2Proof.Proofs
open Sys2Proof Sys2Proof.Machine Sys2Proof.Claim

/-- Settles O9: the step is the write of one byte below the capacity, and a fault beyond. -/
theorem byteWrite : Obligations.ByteWrite := by
  intro s sp k b rest hs hb
  refine ⟨fun hk => ⟨({ s with host := rest } : State).write sp k [b], ?_, ?_, fun sq j hne => ?_, rfl⟩, fun hk => ?_⟩
  · exact (step_ready hs hb).trans (hostAccess_writeByte_below (s := { s with host := rest }) hk b)
  · exact hostByte_write_same hk b
  · exact hostByte_write_other { s with host := rest } hne b
  · exact (step_ready hs hb).trans (hostAccess_writeByte_beyond (s := { s with host := rest }) hk b)

/-- Settles O31: codes are cut out of the payload as one number, whose bits are the payload's. -/
theorem codeBitOrder : Obligations.CodeBitOrder := ⟨codeAt_bit, codeAt_eq_codeValue, fun _ => rfl⟩

end Sys2Proof.Proofs
end

section
/-! Write footprints (R64): which bytes the body of every command leaves as they were, and so every instruction. -/

namespace Sys2Proof.Machine
open Sys2Proof.Claim

variable {s t u : State} {sp sq : Space} {a : Nat}

/-! The geometry of the image, as the statements spell it (R104 to R109). -/

theorem imageBits_eq (s : State) : imageBits s = pixelBits s := by
  unfold imageBits pixelBits bitsPerPixel
  have hctype : ∀ v : BitVec 3, v = 0 ∨ v = 1 ∨ v = 2 ∨ v = 3 ∨ v = 4 ∨ v = 5 ∨ v = 6 ∨ v = 7 := by decide
  rcases hctype s.op.ctype with h | h | h | h | h | h | h | h <;> rw [h] <;> simp [colorType, channels]

theorem imageRowBytes_eq (s : State) : imageRowBytes s = imageRow s := by
  unfold imageRowBytes imageRow
  rw [imageBits_eq]
  rfl

/-! The first `n` bytes of a space. -/

theorem byte_writeFirst_outside {bs : List Byte} {n : Nat} (hlen : bs.length = n) (h : ¬ (sq = sp ∧ a < n)) :
    (s.write sp 0 bs).byte sq a = s.byte sq a :=
  State.byte_write_outside s sp 0 bs sq a ((not_and_or.1 h).imp_right fun _ => .inr (by omega))

theorem byte_forgetFirst_outside {n : Nat} (h : ¬ (sq = sp ∧ a < n)) : (s.forget sp 0 n).byte sq a = s.byte sq a :=
  State.byte_forget_outside s sp 0 n sq a ((not_and_or.1 h).imp_right fun _ => .inr (by omega))

/-- A command changes a byte only if its body does. -/
theorem command_byte {checks : List Check} {body : State → State}
    (h : (body s.begin).byte sp a = s.byte sp a) : (command checks body s).byte sp a = s.byte sp a := by
  rcases command_cases checks body s with ⟨reg, _, hc⟩ | ⟨_, hc⟩
  · rw [hc]; rfl
  · rw [hc, State.complete_byte, h]

/-! U2, U3, U4. -/

theorem raiseFilterTag_byte_outside (n : Nat) (h : ¬ (sp = .raw ∧ a < imageH s * imageRow s)) :
    (raiseFilterTag n s).byte sp a = s.byte sp a := by
  rw [← imageRowBytes_eq] at h
  exact byte_forgetFirst_outside (s := s.raise .filterTag n) h

theorem defilterRun_byte_outside (h : ¬ (sp = .raw ∧ a < imageH s * imageRow s)) :
    (defilterRun s).byte sp a = s.byte sp a := by
  rcases defilterRun_cases s with ⟨_, hrun⟩ | ⟨_, n, _, hrun⟩ | ⟨_, rows, hrows, hrun⟩
  · rw [hrun]; rfl
  · rw [hrun]; exact raiseFilterTag_byte_outside n h
  · rw [hrun]
    rw [← imageRowBytes_eq] at h
    exact byte_writeFirst_outside (recon_flatten_length hrows) h

theorem adam7Run_byte_outside (h : ¬ (sp = .raw ∧ a < imageH s * imageRow s)) : (adam7Run s).byte sp a = s.byte sp a := by
  rcases adam7Run_cases s with ⟨_, hrun⟩ | ⟨_, n, _, hrun⟩ | ⟨_, raw, hgo, hrun⟩
  · rw [hrun]; rfl
  · rw [hrun]; exact raiseFilterTag_byte_outside n h
  · rw [hrun]
    rw [← imageRowBytes_eq] at h
    exact byte_writeFirst_outside (adam7Go_raster_length hgo) h

/-- A filter tag writes its own row of the image, in the layout of R72. -/
theorem filterRow_byte_outside (pred : Byte → Byte → Byte → Byte) {y : Nat}
    (h : ¬ (sp = .raw ∧ y < imageH s ∧ y * imageRow s ≤ a ∧ a < y * imageRow s + imageRow s)) :
    (defilterRow pred y s).byte sp a = s.byte sp a := by
  rw [← imageRowBytes_eq] at h
  exact defilterRow_byte_outside pred y s sp a h

theorem unpackIdxRun_byte_outside (h : ¬ (sp = .idx ∧ a < imageW s * imageH s)) :
    (unpackIdxRun s).byte sp a = s.byte sp a :=
  byte_writeFirst_outside ((List.length_map _).trans (length_pixelsOf _ _)) h

theorem unpackRgbaRun_byte_outside (h : ¬ (sp = .pix ∧ a < imageW s * imageH s * 4)) :
    (unpackRgbaRun s).byte sp a = s.byte sp a := by
  rcases unpackRgbaRun_cases s with ⟨pixel, h4, hrun⟩ | hrun
  · rw [hrun]; exact expandImage_byte_outside pixel s h4 sp a h
  · rw [hrun]; rfl

/-! U5 (R261). -/

theorem disposeOp_restore_iff (v : BitVec 2) : disposeOp v = .restoreToPrevious ↔ v = 2#2 := by
  revert v; decide

theorem disposeClear_byte_outside (phase : DisposePhase) (h : ¬ ((sp = .canvas ∧ inRect s a) ∧ phase = .afterVisible)) :
    (disposeClear phase s).byte sp a = s.byte sp a := by
  cases phase with
  | beforeBlend => rfl
  | afterVisible => exact zeroRect_outside s sp a fun hin => h ⟨hin, rfl⟩

/-- The steps of COMP.FRAME between its two dispose moments: the blend, then the copy to `VIS`. -/
theorem blendAndShow_byte_outside (op : BlendOp) (hrect : ¬ (sp = .canvas ∧ inRect s a))
    (hvis : ¬ (sp = .vis ∧ a < canvasSize s)) :
    (copyCanvas .canvas .vis (blendRect op s)).byte sp a = s.byte sp a :=
  (copyCanvas_outside .canvas .vis (blendRect op s) sp a hvis).trans (blendRect_outside op s sp a hrect)

/-- What RestoreToPrevious puts back is what it saved: the whole canvas reads as before the frame (R272). -/
theorem compFrame_restore_byte_outside (op : BlendOp) (hvis : ¬ (sp = .vis ∧ a < canvasSize s))
    (hsnap : ¬ (sp = .snap ∧ a < canvasSize s)) (hrect : ¬ (sp = .canvas ∧ inRect s a)) :
    (copyCanvas .snap .canvas (copyCanvas .canvas .vis (blendRect op (copyCanvas .canvas .snap s)))).byte sp a =
      s.byte sp a := by
  let saved := copyCanvas .canvas .snap s
  by_cases hback : sp = .canvas ∧ a < canvasSize s
  · obtain ⟨rfl, ha⟩ := hback
    calc _ = (copyCanvas .canvas .vis (blendRect op saved)).byte .snap a := copyCanvas_inside .snap .canvas _ a ha
      _ = saved.byte .snap a := blendAndShow_byte_outside (s := saved) op (by simp) (by simp)
      _ = s.byte .canvas a := copyCanvas_inside .canvas .snap s a ha
  · calc _ = (copyCanvas .canvas .vis (blendRect op saved)).byte sp a := copyCanvas_outside .snap .canvas _ sp a hback
      _ = saved.byte sp a := blendAndShow_byte_outside (s := saved) op hrect hvis
      _ = s.byte sp a := copyCanvas_outside .canvas .snap s sp a hsnap

theorem compFrameRun_byte_outside (h : ¬ footprint .compFrame s t sp a) :
    (compFrameRun s).byte sp a = s.byte sp a := by
  obtain ⟨hrect, hrest⟩ := not_or.1 h
  obtain ⟨hvis, hsnap⟩ := not_or.1 hrest
  show (disposeStep (disposeOp s.op.dispose) .afterVisible (copyCanvas .canvas .vis
    (blendRect (frameBlend s) (disposeStep (disposeOp s.op.dispose) .beforeBlend s)))).byte sp a = _
  cases hop : disposeOp s.op.dispose with
  | none => exact blendAndShow_byte_outside _ hrect hvis
  | clearToBackground =>
    calc _ = (copyCanvas .canvas .vis (blendRect (frameBlend s) s)).byte sp a := zeroRect_outside _ sp a hrect
      _ = s.byte sp a := blendAndShow_byte_outside _ hrect hvis
  | restoreToPrevious =>
    exact compFrame_restore_byte_outside _ hvis (fun hin => hsnap ⟨hin, (disposeOp_restore_iff _).1 hop⟩) hrect
  | reserved => exact blendAndShow_byte_outside (s := s.raise .param 30) _ hrect hvis

theorem compFrameCommand_byte_outside (h : ¬ footprint .compFrame s t sp a) :
    (compFrameCommand s).byte sp a = s.byte sp a := by
  unfold compFrameCommand
  split
  · exact command_byte (compFrameRun_byte_outside (s := s.begin) (t := t) h)
  · rfl

/-! U0 (R64, R142): a run without a fault writes `IDX` below `OUT_POS`, a fault forgets it up to `OUT_LEN`. -/

/-- Where the bytes of `IDX` a run may have changed end. -/
def lzwEnd (u : State) : Nat := if u.status.err then u.op.outLen.toNat else u.lzw.outPos.toNat

/-- A run of LZW.DECODE that has come from `s` to `u`. -/
structure LzwWrote (s u : State) : Prop where
  op : u.op = s.op
  room : u.lzw.outPos.toNat ≤ u.op.outLen.toNat
  outside : sameOutside s u fun sp a => sp = .idx ∧ a < lzwEnd u

/-- Registers other than `OUT_POS`, and flags, do not matter. A hypothesis that is not given holds by computation. -/
theorem LzwWrote.congr (h : LzwWrote s u) (mem : t.mem = u.mem := by rfl) (epoch : t.epoch = u.epoch := by rfl)
    (op : t.op = u.op := by rfl) (outPos : t.lzw.outPos = u.lzw.outPos := by rfl)
    (err : t.status.err = u.status.err := by rfl) : LzwWrote s t where
  op := op.trans h.op
  room := by rw [op, outPos]; exact h.room
  outside sp a ha := by
    have hbyte : t.byte sp a = u.byte sp a := by unfold State.byte; rw [mem, epoch]
    have hend : lzwEnd t = lzwEnd u := by unfold lzwEnd; rw [op, outPos, err]
    rw [hbyte]
    exact h.outside sp a (hend ▸ ha)

theorem LzwWrote.data (h : LzwWrote s u) (hrun : u.status.err = false) (str : List Byte) (code : BitVec 12) :
    LzwWrote s (lzwData str code u) := by
  by_cases hover : u.op.outLen.toNat < u.lzw.outPos.toNat + str.length
  · rw [lzwData_overrun str code u hover]; exact h.congr
  have hframe := lzwData_frame str code u
  have hop : (lzwData str code u).op = u.op := by rw [hframe]
  have herr : (lzwData str code u).status.err = false := by rw [hframe]; exact hrun
  have hpos := lzwData_outPos str code u hover
  refine ⟨hop.trans h.op, by rw [hop, hpos]; omega, fun sp a ha => ?_⟩
  simp only [lzwEnd, herr, hpos] at ha
  rw [lzwData_byte str code u hover, State.byte_write_outside]
  · refine h.outside sp a ?_
    simp only [lzwEnd, hrun]
    exact fun hin => ha ⟨hin.1, Nat.lt_add_right _ hin.2⟩
  · exact (not_and_or.1 ha).imp_right fun hge => .inr (not_lt.1 hge)

theorem LzwWrote.invalid (h : LzwWrote s u) (hrun : u.status.err = false) (code : BitVec 12) :
    LzwWrote s (lzwInvalid code u) where
  op := h.op
  room := h.room
  outside sp a ha := by
    have hroom := h.room
    refine (byte_forgetFirst_outside (s := u.raise .lzwCode code.toNat) ha).trans (h.outside sp a ?_)
    simp only [lzwEnd, hrun]
    exact fun hin => ha ⟨hin.1, hin.2.trans_le hroom⟩

theorem LzwWrote.code (h : LzwWrote s u) (hrun : u.status.err = false) (code : BitVec 12) :
    LzwWrote s (lzwCode code u) := by
  unfold lzwCode
  split
  · exact h.congr
  · exact h.congr
  · exact h.data hrun _ _
  · exact h.data hrun _ _
  · exact h.data hrun _ _
  · exact h.invalid hrun code

theorem LzwWrote.turn (h : LzwWrote s u) (hrun : u.status.err = false) (stream nbits : Nat) :
    LzwWrote s (lzwTurn stream nbits u) := by
  rcases lzwTurn_cases stream nbits u with ⟨_, hturn⟩ | ⟨_, hturn⟩
  · rw [hturn]; exact h.congr
  · have hadvance : LzwWrote s (lzwAdvance u) := h.congr
    rw [hturn]; exact hadvance.code hrun _

theorem LzwWrote.finish (h : LzwWrote s u) : LzwWrote s (lzwFinish u) := by
  unfold lzwFinish
  split
  · exact h
  · exact h.congr

theorem LzwWrote.complete (h : LzwWrote s u) : LzwWrote s u.complete := by
  unfold State.complete
  split
  · exact h
  · exact h.congr

theorem lzwRun_wrote (hrun : s.status.err = false) : LzwWrote s (lzwRun s) := by
  have hinit : LzwWrote s (lzwInit s) := ⟨rfl, Nat.zero_le _, fun _ _ _ => rfl⟩
  exact (lzwLoop_keeps_of_no_err (LzwWrote s) _ _ (fun _ hu hrun => hu.turn hrun _ _) _ _ hinit hrun).finish

theorem execLzwDecode_byte_outside (ht : exec .lzwDecode s = .next t) (h : ¬ footprint .lzwDecode s t sp a) :
    t.byte sp a = s.byte sp a := by
  cases ht
  rcases command_cases (lzwChecks s) lzwRun s with ⟨reg, _, hc⟩ | ⟨_, hc⟩
  · rw [hc]; rfl
  · rw [hc] at h ⊢
    have hw := (lzwRun_wrote (s := s.begin) rfl).complete
    refine hw.outside sp a ?_
    unfold lzwEnd
    rw [hw.op]
    exact h

/-! Every instruction. -/

theorem exec_byte_outside (i : Instr) (s t : State) (ht : exec i s = .next t) (sp : Space) (a : Nat)
    (h : ¬ footprint i s t sp a) : t.byte sp a = s.byte sp a := by
  cases i with
  | lzwDecode => exact execLzwDecode_byte_outside ht h
  | nop => cases ht; rfl
  | blitGif => cases ht; exact command_byte (blitRun_outside _ s.begin sp a h)
  | defilterRun => cases ht; exact command_byte (defilterRun_byte_outside (s := s.begin) h)
  | adam7Run => cases ht; exact command_byte (adam7Run_byte_outside (s := s.begin) h)
  | unpackIdx => cases ht; exact command_byte (unpackIdxRun_byte_outside (s := s.begin) h)
  | unpackRgba => cases ht; exact command_byte (unpackRgbaRun_byte_outside (s := s.begin) h)
  | compReset => cases ht; exact command_byte (byte_writeFirst_outside (s := s.begin) List.length_replicate h)
  | compFrame => cases ht; exact compFrameCommand_byte_outside h
  | deltaBbox => cases ht; exact command_byte rfl
  | deltaBlend => cases ht; exact command_byte rfl
  | cmdReserved opcode => cases ht; rfl
  | lzwClear => cases ht; rfl
  | lzwEoi => cases ht; rfl
  | lzwLit code => cases ht; exact lzwData_byte_outside _ _ s sp a h
  | lzwRef code => cases ht; exact lzwData_byte_outside _ _ s sp a h
  | lzwKwkwk => cases ht; exact lzwData_byte_outside _ _ s sp a h
  | lzwInvalid code => cases ht; exact byte_forgetFirst_outside (s := s.raise .lzwCode code.toNat) h
  | filtNone row => cases ht; exact filterRow_byte_outside _ h
  | filtSub row => cases ht; exact filterRow_byte_outside _ h
  | filtUp row => cases ht; exact filterRow_byte_outside _ h
  | filtAvg row => cases ht; exact filterRow_byte_outside _ h
  | filtPaeth row => cases ht; exact filterRow_byte_outside _ h
  | filtReserved tag row => cases ht; exact raiseFilterTag_byte_outside _ h
  | disposeNone phase => cases ht; rfl
  | disposeClearToBackground phase => cases ht; exact disposeClear_byte_outside phase h
  | disposeRestoreToPrevious phase =>
    cases ht
    cases phase with
    | beforeBlend => exact copyCanvas_outside .canvas .snap s sp a h
    | afterVisible => exact copyCanvas_outside .snap .canvas s sp a h
  | disposeReserved phase => cases ht; rfl
  | blendSource => cases ht; exact blendRect_outside _ s sp a h
  | blendOver => cases ht; exact blendRect_outside _ s sp a h
  | rowOrderSequential => cases ht; exact blitRun_outside _ s sp a h
  | rowOrderInterlaced => cases ht; exact blitRun_outside _ s sp a h
  | transpOff => cases ht; exact blitRun_outside _ s sp a h
  | transpOn => cases ht; exact blitRun_outside _ s sp a h
  | orderRgba => cases ht; exact blitRun_outside _ s sp a h
  | orderBgra => cases ht; exact blitRun_outside _ s sp a h
  | ctypeGray => cases ht; exact expandImage_byte_outside _ s pixelGray_fourBytes sp a h
  | ctypeRgb => cases ht; exact expandImage_byte_outside _ s pixelRgb_fourBytes sp a h
  | ctypePalette => cases ht; exact expandImage_byte_outside _ s pixelPalette_fourBytes sp a h
  | ctypeGrayAlpha => cases ht; exact expandImage_byte_outside _ s pixelGrayAlpha_fourBytes sp a h
  | ctypeRgba => cases ht; exact expandImage_byte_outside _ s pixelRgba_fourBytes sp a h
  | ctypeReserved value => cases ht; rfl

end Sys2Proof.Machine

namespace Sys2Proof.Proofs
open Sys2Proof Sys2Proof.Machine Sys2Proof.Claim

/-- Settles O17: no body writes outside its footprint; RestoreToPrevious puts back the canvas it saved. -/
theorem writeFootprint : Obligations.WriteFootprint := exec_byte_outside

end Sys2Proof.Proofs
end

section
/-! The decoder, site by site: the class of an LZW code as its tests give it (R97), the opcodes (R92, R93) and the filter
tags (R102, R103); and, through them, that decoder and encoder undo each other. -/

namespace Sys2Proof

variable {c : CodeCtx} {code : BitVec 12} {n w : Nat}

/-! Well-formed codes (R97). -/

theorem CodeCtx.legal_iff : c.legal = true ↔
    1 ≤ c.m ∧ c.m ≤ 8 ∧ c.m + 1 ≤ c.width ∧ c.width ≤ 12 ∧ 2 ^ c.m + 2 ≤ c.next ∧ c.next ≤ 4096 := by
  simp only [CodeCtx.legal, Bool.and_eq_true, decide_eq_true_eq, and_assoc]

theorem CodeCtx.next_ge (h : c.legal = true) : 2 ^ c.m + 2 ≤ c.next := by
  obtain ⟨-, -, -, -, hnext, -⟩ := CodeCtx.legal_iff.1 h
  exact hnext

/-- A code of a legal width has at most 12 bits (R99). -/
theorem CodeCtx.code_lt (h : c.legal = true) (hn : n < 2 ^ c.width) : n < 2 ^ 12 := by
  obtain ⟨-, -, -, hwidth, -, -⟩ := CodeCtx.legal_iff.1 h
  exact hn.trans_le (Nat.pow_le_pow_right (by decide) hwidth)

theorem wf_lzwLit_iff : (Instr.lzwLit code).wf c = true ↔ c.legal = true ∧ code.toNat < 2 ^ c.m := by
  simp only [Instr.wf, Bool.and_eq_true, decide_eq_true_eq]

theorem wf_lzwRef_iff : (Instr.lzwRef code).wf c = true ↔
    c.legal = true ∧ code.toNat < 2 ^ c.width ∧ 2 ^ c.m + 1 < code.toNat ∧ code.toNat < c.next := by
  simp only [Instr.wf, Bool.and_eq_true, decide_eq_true_eq, and_assoc]

theorem wf_lzwKwkwk_iff : Instr.lzwKwkwk.wf c = true ↔ c.legal = true ∧ c.valid = true ∧ c.next < 2 ^ c.width := by
  simp only [Instr.wf, Bool.and_eq_true, decide_eq_true_eq, and_assoc]

theorem wf_lzwInvalid_iff : (Instr.lzwInvalid code).wf c = true ↔
    c.legal = true ∧ code.toNat < 2 ^ c.width ∧
      (c.next < code.toNat ∨ (code.toNat = c.next ∧ c.valid = false)) := by
  simp only [Instr.wf, Bool.and_eq_true, Bool.or_eq_true, Bool.not_eq_true', decide_eq_true_eq, and_assoc]

/-! LZW codes (R97, R98). -/

theorem decode_code_of_lt (h : n < 2 ^ c.width) : decode (.code c) n = decodeCode c n :=
  congrArg (decodeCode c) (Nat.mod_eq_of_lt h)

/-- The instruction a code selects, by the ordered tests of R97. -/
theorem decodeCode_eq (c : CodeCtx) (n : Nat) : decodeCode c n =
    if n = 2 ^ c.m then .lzwClear
    else if n = 2 ^ c.m + 1 then .lzwEoi
    else if n < 2 ^ c.m then .lzwLit (BitVec.ofNat 12 n)
    else if n < c.next then .lzwRef (BitVec.ofNat 12 n)
    else if n = c.next ∧ c.valid = true then .lzwKwkwk
    else .lzwInvalid (BitVec.ofNat 12 n) := by
  unfold decodeCode classify eoiCode clearCode
  split_ifs <;> rfl

theorem decodeCode_clear (c : CodeCtx) : decodeCode c (2 ^ c.m) = .lzwClear := by
  rw [decodeCode_eq, if_pos rfl]

theorem decodeCode_eoi (c : CodeCtx) : decodeCode c (2 ^ c.m + 1) = .lzwEoi := by
  rw [decodeCode_eq, if_neg (by omega), if_pos rfl]

theorem decodeCode_lit (h : code.toNat < 2 ^ c.m) : decodeCode c code.toNat = .lzwLit code := by
  rw [decodeCode_eq, if_neg (by omega), if_neg (by omega), if_pos h, BitVec.ofNat_toNat, BitVec.setWidth_eq]

theorem decodeCode_ref (h : 2 ^ c.m + 1 < code.toNat) (hn : code.toNat < c.next) :
    decodeCode c code.toNat = .lzwRef code := by
  rw [decodeCode_eq, if_neg (by omega), if_neg (by omega), if_neg (by omega), if_pos hn, BitVec.ofNat_toNat,
    BitVec.setWidth_eq]

theorem decodeCode_kwkwk (h : 2 ^ c.m + 2 ≤ c.next) (hv : c.valid = true) : decodeCode c c.next = .lzwKwkwk := by
  rw [decodeCode_eq, if_neg (by omega), if_neg (by omega), if_neg (by omega), if_neg (by omega), if_pos ⟨rfl, hv⟩]

theorem decodeCode_invalid (h : 2 ^ c.m + 2 ≤ c.next)
    (hn : c.next < code.toNat ∨ (code.toNat = c.next ∧ c.valid = false)) :
    decodeCode c code.toNat = .lzwInvalid code := by
  have hlast : ¬ (code.toNat = c.next ∧ c.valid = true) := by
    rintro ⟨heq, hvalid⟩
    rcases hn with hlt | ⟨-, hinvalid⟩
    · omega
    · simp [hvalid] at hinvalid
  rw [decodeCode_eq, if_neg (by omega), if_neg (by omega), if_neg (by omega), if_neg (by omega), if_neg hlast,
    BitVec.ofNat_toNat, BitVec.setWidth_eq]

/-! Opcodes (R91 to R93). -/

/-- `CMD[7:0]` alone selects the command (R91). -/
theorem bitField_low_byte (w : Nat) : bitField w 7 0 = w % 256 := by simp [bitField]

theorem decode_cmd_mod (w : Nat) : decode .cmd w = decode .cmd (w % 256) := by
  simp only [decode, decodeCmd, bitField_low_byte, Nat.mod_mod]

theorem decode_cmd_reserved (h : 0x0B ≤ w % 256) : decode .cmd w = .cmdReserved (BitVec.ofNat 8 (w % 256)) := by
  simp only [decode, decodeCmd, bitField_low_byte]
  split
  case h_12 => rfl
  all_goals omega

/-! Filter tags (R102, R103). -/

theorem decode_tag_toNat (row : Nat) (tag : Byte) : decode (.tag row) tag.toNat = decodeTag row tag := by
  simp only [decode, BitVec.ofNat_toNat, BitVec.setWidth_eq]

theorem decodeTag_reserved (row : Nat) {tag : Byte} (h : 5 ≤ tag.toNat) : decodeTag row tag = .filtReserved tag row := by
  unfold decodeTag filterTag
  split_ifs with h0 h1 h2 h3 h4
  · subst h0; simp at h
  · subst h1; simp at h
  · subst h2; simp at h
  · subst h3; simp at h
  · subst h4; simp at h
  · rfl

/-! `CTYPE` (R107). -/

theorem decode_ctype_reserved (c : CodeCtx) (v : BitVec 3) (h : (Instr.ctypeReserved v).wf c = true) :
    decode .ctype v.toNat = .ctypeReserved v := by
  simp only [Instr.wf, Bool.or_eq_true, beq_iff_eq] at h
  rcases h with (rfl | rfl) | rfl <;> rfl

/-! Decoder and encoder. -/

/-- R90 to R118: the encoding of a well-formed instruction decodes to it at its site. -/
theorem decode_encode {i : Instr} (h : i.wf c = true) : decode (i.site c) (encode c i) = i := by
  cases i with
  | cmdReserved op =>
    have hop : op.toNat % 256 = op.toNat := Nat.mod_eq_of_lt op.isLt
    have hres : 0x0B ≤ op.toNat % 256 := hop.symm ▸ of_decide_eq_true h
    refine (decode_cmd_reserved hres).trans ?_
    rw [hop, BitVec.ofNat_toNat, BitVec.setWidth_eq]
  | lzwClear => exact (decode_code_of_lt (Laws.Encoding.lzwClear c h)).trans (decodeCode_clear c)
  | lzwEoi => exact (decode_code_of_lt (Laws.Encoding.lzwEoi c h)).trans (decodeCode_eoi c)
  | lzwLit code =>
    obtain ⟨-, hlit⟩ := wf_lzwLit_iff.1 h
    exact (decode_code_of_lt (Laws.Encoding.lzwLit code c h)).trans (decodeCode_lit hlit)
  | lzwRef code =>
    obtain ⟨-, -, hgt, hlt⟩ := wf_lzwRef_iff.1 h
    exact (decode_code_of_lt (Laws.Encoding.lzwRef code c h)).trans (decodeCode_ref hgt hlt)
  | lzwKwkwk =>
    obtain ⟨hlegal, hvalid, -⟩ := wf_lzwKwkwk_iff.1 h
    exact (decode_code_of_lt (Laws.Encoding.lzwKwkwk c h)).trans (decodeCode_kwkwk (CodeCtx.next_ge hlegal) hvalid)
  | lzwInvalid code =>
    obtain ⟨hlegal, -, hn⟩ := wf_lzwInvalid_iff.1 h
    exact (decode_code_of_lt (Laws.Encoding.lzwInvalid code c h)).trans
      (decodeCode_invalid (CodeCtx.next_ge hlegal) hn)
  | filtReserved tag row => exact (decode_tag_toNat row tag).trans (decodeTag_reserved row (of_decide_eq_true h))
  | ctypeReserved v => exact decode_ctype_reserved c v h
  | nop | lzwDecode | blitGif | defilterRun | adam7Run | unpackIdx | unpackRgba | compReset | compFrame | deltaBbox
  | deltaBlend | filtNone | filtSub | filtUp | filtAvg | filtPaeth | disposeNone | disposeClearToBackground
  | disposeRestoreToPrevious | disposeReserved | blendSource | blendOver | rowOrderSequential | rowOrderInterlaced
  | transpOff | transpOn | orderRgba | orderBgra | ctypeGray | ctypeRgb | ctypePalette | ctypeGrayAlpha | ctypeRgba =>
    simp only [encode, Instr.site]
    rfl

/-- A code of the current width is well-formed as the class it has, and encodes back (R97). -/
theorem encode_decode_code (hl : c.legal = true) (hn : n < 2 ^ c.width) :
    (decode (.code c) n).wf c = true ∧ encode c (decode (.code c) n) = n := by
  have hcode : (BitVec.ofNat 12 n).toNat = n := Nat.mod_eq_of_lt (CodeCtx.code_lt hl hn)
  rw [decode_code_of_lt hn, decodeCode_eq]
  split_ifs with hclear heoi hlit href hkwkwk
  · exact ⟨hl, hclear.symm⟩
  · exact ⟨hl, heoi.symm⟩
  · exact ⟨wf_lzwLit_iff.2 ⟨hl, by omega⟩, hcode⟩
  · exact ⟨wf_lzwRef_iff.2 ⟨hl, by omega, by omega, by omega⟩, hcode⟩
  · obtain ⟨rfl, hvalid⟩ := hkwkwk
    exact ⟨wf_lzwKwkwk_iff.2 ⟨hl, hvalid, hn⟩, rfl⟩
  · refine ⟨wf_lzwInvalid_iff.2 ⟨hl, by omega, ?_⟩, hcode⟩
    rw [hcode]
    rcases Nat.lt_or_eq_of_le (not_lt.1 href) with hlt | heq
    · exact .inl hlt
    · exact .inr ⟨heq.symm, Bool.not_eq_true _ ▸ fun hvalid => hkwkwk ⟨heq.symm, hvalid⟩⟩

/-- Every tag byte is a well-formed tag, and encodes back (R102, R103). -/
theorem encode_decode_tag (c : CodeCtx) (row : Nat) (tag : Byte) :
    (decode (.tag row) tag.toNat).wf c = true ∧ encode c (decode (.tag row) tag.toNat) = tag.toNat := by
  by_cases h : 5 ≤ tag.toNat
  · rw [decode_tag_toNat, decodeTag_reserved row h]
    exact ⟨decide_eq_true h, rfl⟩
  · have hlt := not_le.1 h
    interval_cases tag.toNat <;> exact ⟨rfl, rfl⟩

/-- Every `CMD` value is a well-formed command, and its low byte is what encodes back (R91 to R93). -/
theorem encode_decode_cmd (c : CodeCtx) (w : Nat) :
    (decode .cmd w).wf c = true ∧ encode c (decode .cmd w) = w % 256 := by
  by_cases h : 0x0B ≤ w % 256
  · have hop : (BitVec.ofNat 8 (w % 256)).toNat = w % 256 := Nat.mod_mod w 256
    rw [decode_cmd_reserved h]
    exact ⟨decide_eq_true (hop.symm ▸ h), hop⟩
  · have hlt := not_le.1 h
    rw [decode_cmd_mod]
    interval_cases w % 256 <;> exact ⟨rfl, rfl⟩

end Sys2Proof

namespace Sys2Proof.Proofs
open Sys2Proof Sys2Proof.Machine Sys2Proof.Claim

/-- Settles O1: each family is decoded by the tests that its well-formedness decides. -/
theorem decodeOfEncode : Obligations.DecodeOfEncode := fun _ _ h => decode_encode h

/-- Settles O2: the classes of codes, the tags and the opcodes each cover every value of their site. -/
theorem encodeOfDecode : Obligations.EncodeOfDecode :=
  ⟨fun _ _ hl hn => encode_decode_code hl hn, encode_decode_tag, encode_decode_cmd⟩

/-- Settles O3: finitely many words, each decoded. -/
theorem decodedWords : Obligations.DecodedWords := by
  unfold Obligations.DecodedWords
  decide

/-- Settles O4: only the low byte is decoded, and the reserved opcode is its operand. -/
theorem reservedOpcode : Obligations.ReservedOpcode := by
  have hexec (op : Byte) (s : State) : exec (.cmdReserved op) s = .next (faulted s 1#8 op.toNat) := rfl
  refine ⟨decode_cmd_mod, fun w s h => ?_, hexec⟩
  rw [decode_cmd_reserved h, hexec, BitVec.toNat_ofNat, Nat.mod_mod]

/-- Settles O5: the ordered tests; below `NEXTCODE` the last two of them are not reached. -/
theorem codeClasses : Obligations.CodeClasses := by
  refine ⟨fun c n _ hn => (decode_code_of_lt hn).trans (decodeCode_eq c n), fun c n hl hn => ?_⟩
  have hlt := CodeCtx.code_lt hl hn
  refine ⟨by omega, fun hfull => ?_⟩
  rw [decode_code_of_lt hn, decodeCode_eq]
  split_ifs
  · exact ⟨nofun, nofun⟩
  · exact ⟨nofun, nofun⟩
  · exact ⟨nofun, nofun⟩
  · exact ⟨nofun, nofun⟩
  · omega
  · omega

/-- Settles O52: the reserved values raise `E_PARAM` and nothing else. -/
theorem reservedValues : Obligations.ReservedValues := ⟨fun _ _ => rfl, fun _ _ => rfl⟩

end Sys2Proof.Proofs
end

section
/-! What a blit without a fault leaves (R171 to R180), in the terms of the statements. -/

namespace Sys2Proof.Machine
open Sys2Proof.Claim

/-! Interlaced rows (R115, R174). -/

/-- A pass lists its rows in order: those that leave its first row as remainder. -/
theorem passRows_eq_filter {start stride : Nat} (hs : start < stride) (h : Nat) :
    passRows start stride h = (List.range h).filter fun r => r % stride == start := by
  have hpos : 0 < stride := Nat.zero_lt_of_lt hs
  have hperm : (passRows start stride h).Perm ((List.range h).filter fun r => r % stride == start) := by
    refine (List.perm_ext_iff_of_nodup (nodup_passRows _ _ _ hpos) (List.nodup_range.filter _)).2 fun r => ?_
    rw [mem_passRows _ _ _ _ hpos, List.mem_filter, List.mem_range, beq_iff_eq]
    constructor
    · rintro ⟨hle, hlt, hmod⟩
      obtain ⟨k, hk⟩ := Nat.dvd_of_mod_eq_zero hmod
      obtain rfl : r = start + stride * k := by omega
      exact ⟨hlt, by rw [Nat.add_mul_mod_self_left, Nat.mod_eq_of_lt hs]⟩
    · rintro ⟨hlt, rfl⟩
      exact ⟨Nat.mod_le _ _, hlt, Nat.sub_mod_eq_zero_of_mod_eq (Nat.mod_mod _ _).symm⟩
  refine hperm.eq_of_pairwise' (r := (· < ·)) ?_ (List.pairwise_lt_range.filter _)
  exact List.pairwise_map.2 (List.pairwise_lt_range.imp fun hlt =>
    Nat.add_lt_add_left (Nat.mul_lt_mul_of_pos_right hlt hpos) _)

theorem rowSequence_eq_interlacedRows (h : Nat) : rowSequence h = interlacedRows h := by
  unfold rowSequence interlacedRows
  rw [passRows_eq_filter (by decide), passRows_eq_filter (by decide), passRows_eq_filter (by decide),
    passRows_eq_filter (by decide)]

/-! Stream positions (R172 to R179). -/

variable {mode : BlitMode} {s : State} {i : Nat}

theorem indexByte_eq_blitAddr (mode : BlitMode) (s : State) (i : Nat) : indexByte mode s i = blitAddr mode s i := by
  unfold indexByte
  rw [rowSequence_eq_interlacedRows]
  rfl

theorem blitAct_eq_bad_iff : blitAct mode s (s.byte .idx i) = .bad ↔ indexBad mode s i := by
  unfold blitAct indexBad indexSkipped
  split_ifs with hskip hpal
  · simp [hskip]
  · simp [hskip, hpal]
  · simp [hpal]

/-- A position that is neither skipped nor outside the palette is painted in its palette colour (R178, R179). -/
theorem blitAct_paint (hskip : ¬ indexSkipped mode s i) (hbad : ¬ indexBad mode s i) :
    blitAct mode s (s.byte .idx i) = .paint (indexColour mode s i) := by
  have hpal : ¬ s.op.palLen.toNat ≤ (s.byte .idx i).toNat := fun hpal => hbad ⟨hskip, hpal⟩
  unfold blitAct
  rw [if_neg hskip, if_neg hpal]
  rfl

theorem not_indexSkipped_of_paint {bs : List Byte} (h : blitAct mode s (s.byte .idx i) = .paint bs) :
    ¬ indexSkipped mode s i := by
  intro hskip
  unfold blitAct at h
  rw [if_pos hskip] at h
  cases h

theorem indexColour_length (mode : BlitMode) (s : State) (i : Nat) : (indexColour mode s i).length = 4 :=
  blitColour_length mode.order _

/-! The blit. -/

theorem blitRun_of_no_bad (h : ∀ i, i < indexCount s → ¬ indexBad mode s i) :
    blitRun mode s = s.setBuf .canvas ((List.range (blitCount s)).foldl (blitPixel mode s) (s.mem.buf .canvas)) := by
  have hnone : blitFirstBad mode s = none :=
    (blitFirstBad_none mode s).2 fun i hi hbad => h i hi (blitAct_eq_bad_iff.1 hbad)
  unfold blitRun
  rw [hnone]

/-- R171 to R180: with the rectangle's columns inside the canvas and no index outside the palette, the whole stream is
painted and nothing else changes. -/
theorem blitRun_paints (hfit : rectFits s) (h : ∀ i, i < indexCount s → ¬ indexBad mode s i) :
    painted mode s (blitRun mode s) := by
  rw [blitRun_of_no_bad h]
  refine ⟨rfl, fun i hi hskip => ?_, fun sp a hout => ?_⟩
  · have hact := blitAct_paint hskip (h i hi)
    have hlen := indexColour_length mode s i
    refine List.ext_getElem (by rw [State.bytes_length, hlen]) fun k _ hk => ?_
    rw [State.bytes_getElem, State.byte_setBuf_same, indexByte_eq_blitAddr]
    exact blit_painted mode s hfit i hi _ hact k hk hlen
  · by_cases hsp : sp = .canvas
    · subst hsp
      rw [State.byte_setBuf_same]
      refine blit_untouched mode s a fun i hi bs hact hin => hout ⟨rfl, i, hi, not_indexSkipped_of_paint hact, ?_⟩
      rwa [indexByte_eq_blitAddr]
    · exact State.byte_setBuf_other s _ a hsp

/-- A `BLIT_CTL` value is the blit with its field at that value (R116). -/
theorem exec_controlBlit {im : Instr × BlitMode} (h : im ∈ controlBlits s) : exec im.1 s = .next (blitRun im.2 s) := by
  simp only [controlBlits, List.mem_cons, List.not_mem_nil, or_false] at h
  rcases h with rfl | rfl | rfl | rfl | rfl | rfl <;> rfl

/-- BLIT.GIF accepts only rectangles whose columns lie inside the canvas (R170). -/
theorem rectFits_of_passes_blitGif (h : passes .blitGif s) : rectFits s := by
  simp only [passes, r326, List.forall_mem_cons, decide_eq_true_eq] at h
  obtain ⟨-, hcols, -⟩ := h
  exact hcols

end Sys2Proof.Machine

namespace Sys2Proof.Proofs
open Sys2Proof Sys2Proof.Machine Sys2Proof.Claim

/-- Settles O37: each value is the blit in its mode, and every blit without a fault paints the stream. -/
theorem controlValuesBlit : Obligations.ControlValuesBlit := fun s hp im him hok =>
  ⟨blitRun im.2 s, exec_controlBlit him, blitRun_paints (rectFits_of_passes_blitGif hp) hok⟩

end Sys2Proof.Proofs
end

section
/-! The filter tags as instructions (R102, R191): DEFILTER.RUN has made of each row what the row's tag makes of it. -/

namespace Sys2Proof.Machine
open Sys2Proof.Claim

variable {s t : State}

/-! Bytes written, and written again. -/

/-- Writing what is there changes no byte. -/
theorem State.byte_write_bytes (s : State) (sp : Space) (k n : Nat) (sq : Space) (j : Nat) :
    (s.write sp k (s.bytes sp k n)).byte sq j = s.byte sq j := by
  by_cases hin : sq = sp ∧ k ≤ j ∧ j < k + n
  · obtain ⟨rfl, hle, hlt⟩ := hin
    obtain ⟨x, rfl⟩ := Nat.exists_eq_add_of_le hle
    have hx : x < (s.bytes sq k n).length := by rw [State.bytes_length]; omega
    rw [State.byte_write_inside s sq k _ x hx, State.bytes_getElem]
  · refine State.byte_write_outside s sp k _ sq j ?_
    rw [State.bytes_length]
    exact (not_and_or.1 hin).imp_right fun hout => by omega

/-- Rows of `rb` bytes, written one after another, read back row by row. -/
theorem State.bytes_write_flatten (s : State) (sp : Space) {rows : List (List Byte)} {rb : Nat}
    (hlen : ∀ row ∈ rows, row.length = rb) {y : Nat} (hy : y < rows.length) :
    (s.write sp 0 rows.flatten).bytes sp (y * rb) rb = rows.getD y [] := by
  have hrow : (rows.getD y []).length = rb := by
    rw [List.getD_eq_getElem _ _ hy]
    exact hlen _ (List.getElem_mem hy)
  refine List.ext_getElem (by rw [State.bytes_length, hrow]) fun x _ hx => ?_
  have hxr : x < rb := hrow ▸ hx
  have hin : y * rb + x < rows.flatten.length := by
    rw [flatten_length rows rb hlen]
    calc y * rb + x < (y + 1) * rb := by rw [Nat.succ_mul]; omega
      _ ≤ rows.length * rb := Nat.mul_le_mul_right _ hy
  have hbyte := State.byte_write_inside s sp 0 rows.flatten (y * rb + x) hin
  rw [Nat.zero_add] at hbyte
  rw [State.bytes_getElem, hbyte, ← List.getD_eq_getElem _ 0#8, ← List.getD_eq_getElem _ 0#8,
    flatten_getD rows rb hlen y x hy hxr]

/-! Tags. -/

/-- A tag that has a predictor reconstructs its row with it (R102, R191). -/
theorem exec_decode_tag {tag : Byte} {pred : Byte → Byte → Byte → Byte} (h : predictor (filterTag tag) = some pred)
    (y : Nat) (s : State) : exec (decode (.tag y) tag.toNat) s = .next (defilterRow pred y s) := by
  simp only [decode, BitVec.ofNat_toNat, BitVec.setWidth_eq, decodeTag]
  cases htag : filterTag tag with
  | reserved => rw [htag] at h; cases h
  | none | sub | up | avg | paeth => rw [htag] at h; cases h; rfl

/-- A row that already holds its reconstruction is left as it is. -/
theorem defilterRow_byte_of_reconstructed {pred : Byte → Byte → Byte → Byte} {y : Nat}
    (h : t.bytes .raw (rawRowAddr t y) (imageRowBytes t) =
      reconRow pred (imageDistance t) (rowAbove t y) (t.bytes .filt (tagAddr t y + 1) (imageRowBytes t)))
    (sp : Space) (a : Nat) : (defilterRow pred y t).byte sp a = t.byte sp a := by
  unfold defilterRow
  split
  · rw [← h, State.byte_write_bytes]
  · rfl

theorem defilterRow_onlyMem (pred : Byte → Byte → Byte → Byte) (y : Nat) (s : State) : onlyMem s (defilterRow pred y s) := by
  unfold defilterRow onlyMem
  split <;> rfl

/-! DEFILTER.RUN. -/

/-- Reconstruction reads `FILT` only, which the `CMD` write does not touch. -/
theorem recon_begin (s : State) (rb bpp h n : Nat) (prev : List Byte) :
    recon s.begin rb bpp h n prev = recon s rb bpp h n prev := by
  induction h generalizing n prev with
  | zero => rfl
  | succ h ih => simp only [recon, State.byte_begin, State.bytes_begin, ih]

/-- A DEFILTER.RUN without a fault has written the rows of the image to `RAW` and counted their bytes (R190). -/
theorem execDefilterRun_ok (h : exec .defilterRun s = .next t) (hok : t.status.err = false) :
    ∃ rows, recon s (imageRowBytes s) (imageDistance s) (imgH s) 0 (zeroRow (imageRowBytes s)) = .ok rows ∧
      t = { ended (s.write .raw 0 rows.flatten) with filtUsed := BitVec.ofNat 32 (defilterNeed s) } := by
  cases h
  rcases command_cases (reconChecks s) defilterRun s with ⟨reg, _, hc⟩ | ⟨_, hc⟩
  · rw [hc] at hok; cases hok
  rw [hc] at hok ⊢
  rcases defilterRun_cases s.begin with ⟨_, hrun⟩ | ⟨_, n, _, hrun⟩ | ⟨_, rows, hrows, hrun⟩
  · rw [hrun] at hok; cases hok
  · rw [hrun] at hok; cases hok
  · exact ⟨rows, (recon_begin s _ _ _ _ _).symm.trans hrows, by rw [hrun]; rfl⟩

/-- After a DEFILTER.RUN without a fault every row of `RAW` is the reconstruction of its filtered row under its tag from
the raw row above (R191). -/
theorem execDefilterRun_rows (h : exec .defilterRun s = .next t) (hok : t.status.err = false) {y : Nat} (hy : y < imgH s) :
    ∃ pred, predictor (filterTag (s.byte .filt (tagAddr s y))) = some pred ∧
      t.bytes .raw (rawRowAddr t y) (imageRowBytes t) =
        reconRow pred (imageDistance t) (rowAbove t y) (t.bytes .filt (tagAddr t y + 1) (imageRowBytes t)) := by
  obtain ⟨rows, hrows, rfl⟩ := execDefilterRun_ok h hok
  obtain ⟨hcount, hlen, hrecon⟩ := recon_rows _ _ _ _ _ _ _ hrows
  have hraw {j : Nat} (hj : j < imgH s) :
      (s.write .raw 0 rows.flatten).bytes .raw (j * imageRowBytes s) (imageRowBytes s) = rows.getD j [] :=
    State.bytes_write_flatten s .raw hlen (hcount ▸ hj)
  obtain ⟨pred, hpred, hrow⟩ := hrecon y hy
  rw [Nat.zero_add] at hpred hrow
  refine ⟨pred, hpred, (hraw hy).trans (hrow.trans ?_)⟩
  have habove : (if y = 0 then zeroRow (imageRowBytes s) else rows.getD (y - 1) []) =
      rowAbove (s.write .raw 0 rows.flatten) y := by
    unfold rowAbove
    split
    · rfl
    · exact (hraw (by omega)).symm
  rw [habove]
  rfl

end Sys2Proof.Machine

namespace Sys2Proof.Proofs
open Sys2Proof Sys2Proof.Machine Sys2Proof.Claim

/-- Settles O44: the row above and the filtered row give again the row that is there. -/
theorem defilterRunsTags : Obligations.DefilterRunsTags := by
  intro s t y h hok hy
  obtain ⟨pred, hpred, hrow⟩ := execDefilterRun_rows h hok hy
  rw [← imageRowBytes_eq]
  exact ⟨defilterRow pred y t, exec_decode_tag hpred y t, defilterRow_onlyMem pred y t,
    defilterRow_byte_of_reconstructed hrow⟩

end Sys2Proof.Proofs
end

section
/-! The codes of U0 one by one (R133 to R148): what the framing takes from `IN`, the string of a code, and the whole effect of
each class. -/

namespace Sys2Proof.Machine
open Sys2Proof.Claim

variable {s t : State} {code : BitVec 12}

/-! The payload (R133). -/

/-- What the framing rule extracts is the payload, given fuel for every byte. -/
theorem eq_payloadOf_of_framed {bs p : List Byte} (h : Framed bs p) : p = payloadOf bs.length bs := by
  induction h with
  | missing => rfl
  | terminator rest => rw [payloadOf_zero]
  | cut n rest hlen => rw [List.length_cons, payloadOf_cut _ n rest hlen]
  | block n body rest out hn hlen _ ih =>
    rw [List.length_cons, payloadOf_block _ n body rest hn hlen, ih,
      payloadOf_fuel rest rest.length (body ++ rest).length le_rfl (by simp)]

/-- The payload is extracted by the framing rule: each sub-block is the terminator, cut short, or whole. -/
theorem framed_payloadOf (fuel : Nat) (bs : List Byte) (h : bs.length ≤ fuel) : Framed bs (payloadOf fuel bs) := by
  induction fuel generalizing bs with
  | zero => rw [List.length_eq_zero_iff.1 (Nat.le_zero.1 h)]; exact .missing
  | succ fuel ih =>
    cases bs with
    | nil => exact .missing
    | cons n rest =>
      rw [List.length_cons] at h
      by_cases hn : n = 0#8
      · subst hn; rw [payloadOf_zero]; exact .terminator rest
      by_cases hlen : rest.length < n.toNat
      · rw [payloadOf_cut fuel n rest hlen]; exact .cut n rest hlen
      have hbody : (rest.take n.toNat).length = n.toNat := List.length_take_of_le (not_lt.1 hlen)
      have hrest : (rest.drop n.toNat).length ≤ fuel := by rw [List.length_drop]; omega
      have hblock := payloadOf_block fuel n (rest.take n.toNat) (rest.drop n.toNat) hn hbody
      have hframed := Framed.block n (rest.take n.toNat) (rest.drop n.toNat) _ hn hbody (ih _ hrest)
      rw [← hblock, List.take_append_drop] at hframed
      exact hframed

/-! Strings (R138). -/

/-- A code with a string is a literal or an entry. -/
theorem spelled_cases (hc : spelled s code) : code.toNat < clearCode (minCode s) ∨ eoiCode (minCode s) < code.toNat := by
  obtain ⟨-, hclear, heoi⟩ := hc
  unfold eoiCode at *
  omega

/-- The string the decoder walks back is the string of R138. -/
theorem codeString_strOf (hs : LzwInv s) (code : BitVec 12) (hc : spelled s code) : CodeString s code (strOf s code) := by
  induction hn : code.toNat using Nat.strong_induction_on generalizing code with
  | _ n ih =>
    rcases spelled_cases hc with hlit | hentry
    · rw [strOf_lit s code hlit, ← BitVec.ofNat_toNat]
      exact .literal code hlit
    · obtain ⟨hprefix, hlt⟩ := hs.entries code.toNat hentry hc.1
      rw [strOf_entry s hs code hentry hc.1]
      exact .entry code _ hentry (ih _ (hn ▸ hlt) _ hprefix rfl)

/-- Only the entries below `NEXTCODE` matter for the string of a code. -/
theorem codeString_congr (hs : LzwInv s) (hmin : minCode t = minCode s)
    (hdict : ∀ k, eoiCode (minCode s) < k → k < s.lzw.nextCode.toNat → t.dictAt k = s.dictAt k)
    (fuel : Nat) (code : BitVec 12) (hc : spelled s code) (acc : List Byte) :
    codeString t fuel code acc = codeString s fuel code acc := by
  induction fuel generalizing code acc with
  | zero => rfl
  | succ fuel ih =>
    rw [codeString_succ, codeString_succ, hmin]
    rcases spelled_cases hc with hlit | hentry
    · rw [if_pos hlit, if_pos hlit]
    · have hnot : ¬ code.toNat < clearCode (minCode s) := by unfold eoiCode at hentry; omega
      obtain ⟨hprefix, -⟩ := hs.entries code.toNat hentry hc.1
      rw [if_neg hnot, if_neg hnot, hdict _ hentry hc.1]
      exact ih _ hprefix _

/-! The classes (R136 to R142). -/

/-- The dictionary after a data code has added its entry (R145). -/
theorem lzwData_dictAt (str : List Byte) (code : BitVec 12) (s : State)
    (hfit : ¬ s.op.outLen.toNat < s.lzw.outPos.toNat + str.length)
    (hroom : s.lzw.prevValid = true ∧ s.lzw.nextCode.toNat < 4096) (k : Nat) :
    (lzwData str code s).dictAt k =
      if k = s.lzw.nextCode.toNat then { prefixCode := s.lzw.prevCode, suffix := str.headD 0#8 } else s.dictAt k := by
  obtain ⟨hdict, -, -⟩ := lzwData_entry str code s hfit hroom
  have hepoch : (lzwData str code s).epoch = s.epoch := by rw [lzwData_frame]
  unfold State.dictAt
  rw [hdict, hepoch, tableGet_tablePut_one]
  split <;> rfl

/-- Only an overrun touches `STATUS` in a data code (R143). -/
theorem lzwData_status (str : List Byte) (code : BitVec 12) (s : State)
    (hfit : ¬ s.op.outLen.toNat < s.lzw.outPos.toNat + str.length) : (lzwData str code s).status = s.status := by
  rw [lzwData_fits str code s hfit]
  simp only
  rw [lzwAddEntry_frame]
  rfl

/-- A data code does what R143 to R148 say, whatever its string. -/
theorem dataCode_lzwData (str : List Byte) (code : BitVec 12) (s : State) :
    dataCode s (lzwData str code s) str code.toNat := by
  unfold dataCode
  by_cases hover : s.op.outLen.toNat < s.lzw.outPos.toNat + str.length
  · rw [if_pos hover, lzwData_overrun str code s hover]; rfl
  obtain ⟨hbit, hprev, hvalid⟩ := lzwData_regs str code s hover
  have hframe := lzwData_frame str code s
  rw [lzwData_status str code s hover] at hframe
  rw [if_neg hover]
  refine ⟨hframe, ?_, fun sp a ha => ?_, lzwData_outPos str code s hover, hbit, hvalid, by rw [hprev], ?_⟩
  · refine List.ext_getElem (State.bytes_length _ _ _ _) fun j _ hj => ?_
    rw [State.bytes_getElem, lzwData_byte str code s hover, State.byte_write_inside s .idx _ str j hj]
  · rw [lzwData_byte str code s hover]
    refine State.byte_write_outside s .idx _ str sp a ((not_and_or.1 ha).imp_right fun hpos => ?_)
    omega
  · by_cases hroom : s.lzw.prevValid = true ∧ s.lzw.nextCode.toNat < 4096
    · obtain ⟨-, hnext, hcur⟩ := lzwData_entry str code s hover hroom
      have hat := lzwData_dictAt str code s hover hroom
      rw [if_pos hroom]
      exact ⟨(hat _).trans (if_pos rfl), fun k hk => (hat k).trans (if_neg hk), hnext, hcur⟩
    · rw [if_neg hroom]
      exact lzwData_noEntry str code s hover hroom

theorem nextCode_setWidth (h : s.lzw.nextCode.toNat < 4096) : (s.lzw.nextCode.setWidth 12).toNat = s.lzw.nextCode.toNat := by
  rw [BitVec.toNat_setWidth]; exact Nat.mod_eq_of_lt h

/-- The code of an entry is none of the two control codes. -/
theorem ne_control_of_gt {n : Nat} (h : eoiCode (minCode s) < n) : n ≠ clearCode (minCode s) ∧ n ≠ eoiCode (minCode s) := by
  unfold eoiCode at *
  omega

/-- The string of an `LZW.KWKWK`: the previous code's and its first byte again (R141). -/
def kwkwkString (s : State) : List Byte := strOf s s.lzw.prevCode ++ [(strOf s s.lzw.prevCode).headD 0#8]

theorem lzwKwkwk_eq_lzwData (s : State) : lzwKwkwk s = lzwData (kwkwkString s) (s.lzw.nextCode.setWidth 12) s := rfl

theorem kwkwkString_headD (s : State) : (kwkwkString s).headD 0#8 = (strOf s s.lzw.prevCode).headD 0#8 := by
  obtain ⟨b, rest, hstr⟩ := List.exists_cons_of_ne_nil (strOf_ne_nil s s.lzw.prevCode)
  rw [kwkwkString, hstr, List.cons_append, List.headD_cons, List.headD_cons]

theorem lzwKwkwk_fits (hfit : (lzwKwkwk s).status.overrun = false) :
    ¬ s.op.outLen.toNat < s.lzw.outPos.toNat + (kwkwkString s).length := by
  intro hover
  rw [lzwKwkwk_eq_lzwData, lzwData_overrun _ _ s hover] at hfit
  exact Bool.false_ne_true hfit.symm

theorem LzwInv.kwkwk (hs : LzwInv s) (hvalid : s.lzw.prevValid = true) (hroom : s.lzw.nextCode.toNat < 4096) :
    LzwInv (lzwKwkwk s) := by
  have hcode := nextCode_setWidth hroom
  exact hs.data _ _ ⟨.inr ⟨hcode, hvalid, hroom⟩, hcode ▸ ne_control_of_gt hs.next.1⟩

/-- After an `LZW.KWKWK` that fits, the string of its code is the one it has emitted (R141): the new entry is made of the
previous code and the first byte of its string, and the strings of older codes are as before. -/
theorem strOf_lzwKwkwk (hs : LzwInv s) (hvalid : s.lzw.prevValid = true) (hroom : s.lzw.nextCode.toNat < 4096)
    (hfit : (lzwKwkwk s).status.overrun = false) :
    spelled (lzwKwkwk s) (s.lzw.nextCode.setWidth 12) ∧
      strOf (lzwKwkwk s) (s.lzw.nextCode.setWidth 12) = kwkwkString s := by
  have hcode := nextCode_setWidth hroom
  have hgt : eoiCode (minCode s) < (s.lzw.nextCode.setWidth 12).toNat := hcode ▸ hs.next.1
  have hmin : minCode (lzwKwkwk s) = minCode s := by unfold minCode; rw [lzwKwkwk_eq_lzwData, lzwData_frame]
  obtain ⟨-, hnext, -⟩ := lzwData_entry _ (s.lzw.nextCode.setWidth 12) s (lzwKwkwk_fits hfit) ⟨hvalid, hroom⟩
  have hat := lzwData_dictAt _ (s.lzw.nextCode.setWidth 12) s (lzwKwkwk_fits hfit) ⟨hvalid, hroom⟩
  rw [← lzwKwkwk_eq_lzwData] at hnext hat
  have hlt : (s.lzw.nextCode.setWidth 12).toNat < (lzwKwkwk s).lzw.nextCode.toNat := by omega
  have hold : strOf (lzwKwkwk s) s.lzw.prevCode = strOf s s.lzw.prevCode :=
    codeString_congr hs hmin (fun k _ hk => (hat k).trans (if_neg (Nat.ne_of_lt hk))) _ _ (hs.prev hvalid) _
  refine ⟨⟨hlt, hmin ▸ ne_control_of_gt hgt⟩, ?_⟩
  rw [strOf_entry _ (hs.kwkwk hvalid hroom) _ (hmin ▸ hgt) hlt, hat, if_pos hcode, hold, kwkwkString_headD]
  rfl

end Sys2Proof.Machine

namespace Sys2Proof.Proofs
open Sys2Proof Sys2Proof.Machine Sys2Proof.Claim

/-- Settles O30: the framing rule has one result, and the payload is one. -/
theorem payloadFraming : Obligations.PayloadFraming := by
  intro s p
  refine ⟨eq_payloadOf_of_framed, ?_⟩
  rintro rfl
  exact framed_payloadOf _ _ le_rfl

/-- Settles O24: the two control codes pass the first two tests of R97; with `LZW_MINCS` at most 8 the values a clear puts
into `NEXTCODE` and `CURSIZE` fit them. -/
theorem lzwControlCodes : Obligations.LzwControlCodes := by
  refine ⟨fun c hc => ?_, fun s hm => ?_, fun s => rfl⟩
  · have heoi := Laws.Encoding.control_codes_fit c hc
    exact ⟨(decode_code_of_lt (Nat.lt_of_succ_lt heoi)).trans (decodeCode_clear c),
      (decode_code_of_lt heoi).trans (decodeCode_eoi c)⟩
  · have hpow : 2 ^ s.op.lzwMincs.toNat ≤ 2 ^ 8 := Nat.pow_le_pow_right (by decide) hm
    refine ⟨lzwClear s, rfl, rfl, ?_, ?_, rfl, rfl, rfl, rfl⟩
    · exact (BitVec.toNat_ofNat _ _).trans (Nat.mod_eq_of_lt (show 2 ^ s.op.lzwMincs.toNat + 2 < 2 ^ 13 by omega))
    · exact (BitVec.toNat_ofNat _ _).trans (Nat.mod_eq_of_lt (show s.op.lzwMincs.toNat + 1 < 2 ^ 4 by omega))

/-- Settles O25: a literal is a data code whose string is its own low byte. -/
theorem lzwLitEffect : Obligations.LzwLitEffect := fun s code =>
  ⟨lzwLit code s, rfl, by rw [BitVec.ofNat_toNat]; exact dataCode_lzwData _ code s⟩

/-- Settles O26: a code between `eoiCode` and `NEXTCODE` has a string, and emits it. -/
theorem lzwRefEffect : Obligations.LzwRefEffect := fun s code hs hgt hlt =>
  ⟨lzwRef code s, strOf s code, rfl, codeString_strOf hs code ⟨hlt, ne_control_of_gt hgt⟩, dataCode_lzwData _ code s⟩

/-- Settles O27: the code emitted is `NEXTCODE`, whose entry then spells what was emitted. -/
theorem lzwKwkwkEffect : Obligations.LzwKwkwkEffect := by
  intro s hs hvalid hroom
  have hdata := dataCode_lzwData (kwkwkString s) (s.lzw.nextCode.setWidth 12) s
  rw [nextCode_setWidth hroom] at hdata
  refine ⟨lzwKwkwk s, strOf s s.lzw.prevCode, rfl, codeString_strOf hs _ (hs.prev hvalid), hdata, fun hfit => ?_⟩
  obtain ⟨hspelled, hstr⟩ := strOf_lzwKwkwk hs hvalid hroom hfit
  have hnew := codeString_strOf (hs.kwkwk hvalid hroom) _ hspelled
  rwa [hstr, ← BitVec.ofNat_toNat] at hnew

/-- Settles O28: an invalid code is a fault whose footprint is `IDX[0 .. OUT_LEN)`. -/
theorem lzwInvalidEffect : Obligations.LzwInvalidEffect := fun s code =>
  ⟨lzwInvalid code s, rfl, rfl, fun _ _ ha => byte_forgetFirst_outside (s := s.raise .lzwCode code.toNat) ha⟩

end Sys2Proof.Proofs
end

section
/-! The run of LZW.DECODE (R130, R134, R149): every turn of the loop is the instruction its code decodes to, the turns the loop
is given suffice, and a run ends with one of four statuses. -/

namespace Sys2Proof.Machine
open Sys2Proof.Claim

variable {s u : State} {p : List Byte} {nbits : Nat}

/-! How a code leaves `STATUS` (R137, R142, R143). -/

/-- `STATUS` after a code that ends the run. -/
def codeEnds : List Status :=
  [{ Status.zero with eoi := true }, { Status.zero with overrun := true }, faultStatus 5#8]

/-- `STATUS` where a run ends: a code has ended it, or the payload (R149). -/
def runEnds : List Status := { Status.zero with exhausted := true } :: codeEnds

theorem codeEnds_flags : ∀ f ∈ codeEnds, f.eoi = true ∨ f.overrun = true ∨ f.err = true := by decide

theorem codeEnds_halted : ∀ f ∈ codeEnds, f.halted = true := by decide

theorem lzwData_goes_or_ends (hrun : s.status = Status.zero) (str : List Byte) (code : BitVec 12) :
    (lzwData str code s).status = Status.zero ∨ (lzwData str code s).status ∈ codeEnds := by
  by_cases hover : s.op.outLen.toNat < s.lzw.outPos.toNat + str.length
  · rw [lzwData_overrun str code s hover, State.setOverrun_status, hrun]; exact .inr (by decide)
  · rw [lzwData_status str code s hover]; exact .inl hrun

/-- A code of a run leaves `STATUS` clear, or ends the run. -/
theorem lzwCode_goes_or_ends (hrun : s.status = Status.zero) (code : BitVec 12) :
    (lzwCode code s).status = Status.zero ∨ (lzwCode code s).status ∈ codeEnds := by
  unfold lzwCode
  split
  · exact .inl hrun
  · rw [lzwEoi, State.setEoi_status, hrun]; exact .inr (by decide)
  · exact lzwData_goes_or_ends hrun _ _
  · exact lzwData_goes_or_ends hrun _ _
  · exact lzwData_goes_or_ends hrun _ _
  · exact .inr (by decide : faultStatus 5#8 ∈ codeEnds)

/-! Reading codes (R134). -/

theorem lzwAdvance_bitPos (h : s.lzw.bitPos.toNat + s.lzw.curSize.toNat < 2 ^ 32) :
    (lzwAdvance s).lzw.bitPos.toNat = s.lzw.bitPos.toNat + s.lzw.curSize.toNat := by
  have hwidth := s.lzw.curSize.isLt
  simp only [lzwAdvance, BitVec.toNat_add, BitVec.toNat_setWidth]
  omega

/-- `BITPOS` moved on as the statements spell it. -/
theorem advanced_eq_lzwAdvance (s : State) : advanced s = lzwAdvance s := by
  unfold advanced lzwAdvance
  rw [BitVec.ofNat_add, BitVec.ofNat_toNat, BitVec.ofNat_toNat, BitVec.setWidth_eq]

/-- The instruction the code at `BITPOS` decodes to does what the turn does. -/
theorem exec_nextCodeInstr (hs : LzwInv s) :
    exec (nextCodeInstr p s) (advanced s) = .next (lzwCode (lzwFetch (bitStream p) s) (lzwAdvance s)) := by
  rw [advanced_eq_lzwAdvance]
  unfold nextCodeInstr lzwFetch
  rw [← codeAt_eq_codeValue]
  exact exec_decode_code (lzwAdvance s) _ hs.width.2 (codeAt_lt _ _ _)

/-- A state of a run over `nbits` payload bits: codes can be run in it, and no more than the payload has been read. -/
structure LzwReads (nbits : Nat) (s : State) : Prop where
  inv : LzwInv s
  read : s.lzw.bitPos.toNat ≤ nbits

theorem LzwReads.turn (h : LzwReads nbits s) (hb : nbits < 2 ^ 32) (stream : Nat) :
    LzwReads nbits (lzwTurn stream nbits s) := by
  refine ⟨h.inv.turn stream nbits, ?_⟩
  rcases lzwTurn_cases stream nbits s with ⟨_, hturn⟩ | ⟨hfit, hturn⟩
  · rw [hturn]; exact h.read
  · rw [hturn, lzwCode_bitPos, lzwAdvance_bitPos (hfit.trans_lt hb)]; exact hfit

/-! The loop. -/

/-- With more turns than payload bits left, the loop runs code after code until one, or the end of the payload, ends it: every
turn that goes on reads at least one bit. -/
theorem lzwLoop_runs (hp : 8 * p.length < 2 ^ 32) (turns : Nat) (s : State) (h : LzwReads (8 * p.length) s)
    (hrun : s.status = Status.zero) (hturns : 8 * p.length < s.lzw.bitPos.toNat + turns) :
    LzwRuns p s (lzwLoop (bitStream p) (8 * p.length) turns s) ∧
      (lzwLoop (bitStream p) (8 * p.length) turns s).status ∈ runEnds := by
  induction turns generalizing s with
  | zero => exact absurd hturns (not_lt.2 h.read)
  | succ turns ih =>
    simp only [lzwLoop]
    rcases lzwTurn_cases (bitStream p) (8 * p.length) s with ⟨hend, hturn⟩ | ⟨hfit, hturn⟩
    · have hstatus : s.setExhausted.status = { Status.zero with exhausted := true } := by
        rw [State.setExhausted_status, hrun]
      rw [hturn, hstatus, if_pos (by decide)]
      exact ⟨.exhausted s hend, hstatus ▸ List.mem_cons_self⟩
    · have hexec := exec_nextCodeInstr (p := p) h.inv
      have hbit : (lzwTurn (bitStream p) (8 * p.length) s).lzw.bitPos.toNat =
          s.lzw.bitPos.toNat + s.lzw.curSize.toNat := by
        rw [hturn, lzwCode_bitPos, lzwAdvance_bitPos (hfit.trans_lt hp)]
      have hnext := lzwCode_goes_or_ends (s := lzwAdvance s) hrun (lzwFetch (bitStream p) s)
      rw [← hturn] at hexec hnext
      rcases hnext with hgo | hstop
      · have hwidth := h.inv.width
        obtain ⟨hruns, hends⟩ := ih _ (h.turn hp _) hgo (by omega)
        rw [hgo, if_neg (by decide)]
        exact ⟨.more s _ _ hfit hexec (by rw [hgo]; decide) hruns, hends⟩
      · rw [if_pos (codeEnds_halted _ hstop)]
        exact ⟨.last s _ hfit hexec (codeEnds_flags _ hstop), List.mem_cons_of_mem _ hstop⟩

/-! The command. -/

/-- The state the loop of LZW.DECODE, started from `s`, ends in. -/
def lzwHalt (s : State) : State :=
  lzwLoop (bitStream (payload s)) (8 * (payload s).length) (8 * (payload s).length + 1) (lzwStart s)

theorem LzwInv.start (hp : passes .lzwDecode s) : LzwInv (lzwStart s) :=
  LzwInv.init (s := cleared s) (of_decide_eq_true (hp _ List.mem_cons_self))

/-- A payload has fewer bits than `BITPOS` counts (R27, R62). -/
theorem payload_bits_lt (hcaps : s.caps.legal) (hp : passes .lzwDecode s) : 8 * (payload s).length < 2 ^ 32 := by
  obtain ⟨⟨-, hcap⟩, -⟩ := hcaps
  have hin : s.op.inLen.toNat ≤ s.caps.inb := of_decide_eq_true (hp _ (.tail _ List.mem_cons_self))
  have hlen := payload_length s
  omega

theorem LzwReads.start (hp : passes .lzwDecode s) : LzwReads nbits (lzwStart s) := ⟨.start hp, Nat.zero_le _⟩

theorem LzwReads.halt (hcaps : s.caps.legal) (hp : passes .lzwDecode s) : LzwReads (8 * (payload s).length) (lzwHalt s) :=
  lzwLoop_keeps _ _ _ (fun _ h => h.turn (payload_bits_lt hcaps hp) _) _ _ (.start hp)

theorem lzwHalt_runs (hcaps : s.caps.legal) (hp : passes .lzwDecode s) :
    LzwRuns (payload s) (lzwStart s) (lzwHalt s) ∧ (lzwHalt s).status ∈ runEnds :=
  lzwLoop_runs (payload_bits_lt hcaps hp) _ _ (.start hp) rfl (by omega)

theorem lzwHalt_writesOnly : WritesOnly .lzwDecode s (lzwHalt s) :=
  lzwLoop_keeps (WritesOnly .lzwDecode s) _ _ (fun _ h => h.trans (lzwTurn_writesOnly rfl _ _)) _ _ { lzw := nofun }

/-- The finish of R149 and the end of the command together, where the run has ended. -/
theorem complete_lzwFinish (h : u.status ∈ runEnds) : (lzwFinish u).complete = lzwClosed u := by
  have hbusy : u.status.busy = false := (by decide : ∀ f ∈ runEnds, f.busy = false) _ h
  unfold lzwFinish lzwClosed State.complete State.finish lzwTrunc
  cases herr : u.status.err with
  | true => simp [herr]
  | false => simp [herr, hbusy]

/-- LZW.DECODE on operands it accepts is the finish of R149 in the state its loop ends in. -/
theorem exec_lzwDecode (hcaps : s.caps.legal) (hp : passes .lzwDecode s) :
    exec .lzwDecode s = .next (lzwClosed (lzwHalt s)) := by
  rw [← complete_lzwFinish (lzwHalt_runs hcaps hp).2]
  exact congrArg _ (command_passed (lzwChecks s) lzwRun s hp)

/-- `STATUS` after the finish: exactly one of the four ends, and `TRUNC` (R149). -/
theorem lzwClosed_status (h : u.status ∈ runEnds) :
    (lzwClosed u).status.done = true ∧ (lzwClosed u).status.busy = false ∧
      [(lzwClosed u).status.eoi, (lzwClosed u).status.exhausted, (lzwClosed u).status.overrun,
        (lzwClosed u).status.err].count true = 1 ∧
      ((lzwClosed u).status.err = true → (lzwClosed u).status.errcode = 5#8) ∧
      (lzwClosed u).status.trunc = (!(lzwClosed u).status.err &&
        ((lzwClosed u).status.exhausted || decide (u.lzw.outPos.toNat < u.op.outLen.toNat))) := by
  simp only [runEnds, codeEnds, List.mem_cons, List.not_mem_nil, or_false] at h
  unfold lzwClosed
  rcases h with h | h | h | h <;> simp [h, Status.zero, faultStatus]

theorem lzwClosed_lzw (u : State) : (lzwClosed u).lzw = u.lzw := by unfold lzwClosed; split <;> rfl

end Sys2Proof.Machine

namespace Sys2Proof.Proofs
open Sys2Proof Sys2Proof.Machine Sys2Proof.Claim

/-- Settles O32: the loop is given enough turns to run until it is ended. -/
theorem lzwDecodeRunsCodes : Obligations.LzwDecodeRunsCodes := fun s hcaps hp =>
  ⟨lzwHalt s, (lzwHalt_runs hcaps hp).1, exec_lzwDecode hcaps hp⟩

/-- Settles O33: the run ends with one of four statuses, in a state codes are run in. -/
theorem lzwRunEnds : Obligations.LzwRunEnds := by
  intro s hcaps hp
  obtain ⟨hdone, hbusy, hone, herr, htrunc⟩ := lzwClosed_status (lzwHalt_runs hcaps hp).2
  obtain ⟨hinv, hread⟩ := LzwReads.halt hcaps hp
  have hop : (lzwHalt s).op = s.op := lzwHalt_writesOnly.op
  have hmin : minCode (lzwHalt s) = s.op.lzwMincs.toNat := congrArg (·.lzwMincs.toNat) hop
  have hminLegal := hinv.minLegal
  have hwidth := hinv.width
  have hnext := hinv.next
  have hroom := hinv.room
  have hlen := payload_length s
  rw [hmin] at hnext
  rw [hop] at htrunc hroom
  refine ⟨_, exec_lzwDecode hcaps hp, hdone, hbusy, hone, herr, ?_, ?_⟩ <;> rw [lzwClosed_lzw]
  · exact htrunc
  · exact ⟨hroom, by omega, by omega, hwidth.2, hnext.1, hnext.2⟩

end Sys2Proof.Proofs
end

section
/-! Two runs of LZW.DECODE with the same operands and the same bytes of `IN` stay alike: turn by turn they have equal working
registers and flags, equal dictionary entries below `NEXTCODE`, and have emitted equal bytes (R150, R151). -/

namespace Sys2Proof.Machine
open Sys2Proof.Claim

variable {s t : State}

/-- Two states of a run that differ in nothing the run reads or gives. A fault leaves the bytes of `IDX` open (R324). -/
structure LzwAlike (s t : State) : Prop where
  mincs : s.op.lzwMincs = t.op.lzwMincs
  outLen : s.op.outLen = t.op.outLen
  regs : s.lzw = t.lzw
  status : s.status = t.status
  errinfo : s.errinfo = t.errinfo
  entries : ∀ k, eoiCode (minCode s) < k → k < s.lzw.nextCode.toNat → s.dictAt k = t.dictAt k
  emitted : s.status.err = false → ∀ a, a < s.lzw.outPos.toNat → s.byte .idx a = t.byte .idx a

theorem LzwAlike.minCode_eq (h : LzwAlike s t) : minCode s = minCode t := congrArg BitVec.toNat h.mincs

theorem LzwAlike.codeCtx_eq (h : LzwAlike s t) : codeCtx s = codeCtx t := by
  unfold codeCtx; rw [h.minCode_eq, h.regs]

/-- The same flags set in both. -/
theorem LzwAlike.flags (h : LzwAlike s t) (f : Status → Status) (hf : ∀ g, (f g).err = g.err) :
    LzwAlike { s with status := f s.status } { t with status := f t.status } where
  mincs := h.mincs
  outLen := h.outLen
  regs := h.regs
  status := congrArg f h.status
  errinfo := h.errinfo
  entries := h.entries
  emitted hok := h.emitted ((hf _).symm.trans hok)

/-- Registers that say there is no entry yet, the same in both. -/
theorem LzwAlike.emptied (h : LzwAlike s t) {r q : LzwRegs} (hrq : r = q) (hout : r.outPos = s.lzw.outPos)
    (hnext : r.nextCode.toNat = eoiCode (minCode s) + 1) : LzwAlike { s with lzw := r } { t with lzw := q } where
  mincs := h.mincs
  outLen := h.outLen
  regs := hrq
  status := h.status
  errinfo := h.errinfo
  entries k hlow hhigh := by
    have hlow : eoiCode (minCode s) < k := hlow
    have hhigh : k < r.nextCode.toNat := hhigh
    omega
  emitted hok a ha := h.emitted hok a (hout ▸ ha)

theorem lzwAddEntry_lzw (first : Byte) (s : State) : (lzwAddEntry first s).lzw =
    if s.lzw.prevValid = true ∧ s.lzw.nextCode.toNat < 4096 then lzwGrow { s.lzw with nextCode := s.lzw.nextCode + 1 }
    else s.lzw := by
  unfold lzwAddEntry; split <;> rfl

/-- The working registers after a data code come from those before, `OUT_LEN` and the length of the string. -/
theorem lzwData_lzw_congr (houtLen : s.op.outLen = t.op.outLen) (hregs : s.lzw = t.lzw) (str : List Byte)
    (code : BitVec 12) : (lzwData str code s).lzw = (lzwData str code t).lzw := by
  by_cases hover : t.op.outLen.toNat < t.lzw.outPos.toNat + str.length
  · rw [lzwData_overrun str code t hover, lzwData_overrun str code s (by rw [houtLen, hregs]; exact hover)]
    exact hregs
  · rw [lzwData_fits str code t hover, lzwData_fits str code s (by rw [houtLen, hregs]; exact hover)]
    simp only [lzwAddEntry_lzw, State.write_lzw, hregs]

theorem LzwAlike.strOf_eq (h : LzwAlike s t) (hs : LzwInv s) {code : BitVec 12} (hc : spelled s code) :
    strOf s code = strOf t code :=
  (codeString_congr hs h.minCode_eq.symm (fun k hlow hhigh => (h.entries k hlow hhigh).symm) _ code hc _).symm

/-- Entries stay equal: the one a data code adds comes from the previous code and the string. -/
theorem LzwAlike.data_entries (h : LzwAlike s t) {str : List Byte} (code : BitVec 12)
    (hfit : ¬ s.op.outLen.toNat < s.lzw.outPos.toNat + str.length)
    (hfit' : ¬ t.op.outLen.toNat < t.lzw.outPos.toNat + str.length) (k : Nat) (hlow : eoiCode (minCode s) < k)
    (hhigh : k < (lzwData str code s).lzw.nextCode.toNat) :
    (lzwData str code s).dictAt k = (lzwData str code t).dictAt k := by
  by_cases hroom : s.lzw.prevValid = true ∧ s.lzw.nextCode.toNat < 4096
  · obtain ⟨-, hnext, -⟩ := lzwData_entry str code s hfit hroom
    rw [lzwData_dictAt str code s hfit hroom, lzwData_dictAt str code t hfit' (h.regs ▸ hroom), ← h.regs]
    split
    next => rfl
    next hne => exact h.entries k hlow (by omega)
  · obtain ⟨hdict, hnext, -⟩ := lzwData_noEntry str code s hfit hroom
    obtain ⟨hdict', -, -⟩ := lzwData_noEntry str code t hfit' (h.regs ▸ hroom)
    have hepoch (u : State) : (lzwData str code u).epoch = u.epoch := by rw [lzwData_frame]
    have hsame := h.entries k hlow (hnext ▸ hhigh)
    unfold State.dictAt at hsame ⊢
    rw [hdict, hdict', hepoch, hepoch]
    exact hsame

/-- What has been emitted stays equal: a data code adds its string at the same place. -/
theorem LzwAlike.data_emitted (h : LzwAlike s t) (hrun : s.status.err = false) {str : List Byte} (code : BitVec 12)
    (hfit : ¬ s.op.outLen.toNat < s.lzw.outPos.toNat + str.length)
    (hfit' : ¬ t.op.outLen.toNat < t.lzw.outPos.toNat + str.length) (a : Nat)
    (ha : a < s.lzw.outPos.toNat + str.length) : (lzwData str code s).byte .idx a = (lzwData str code t).byte .idx a := by
  rw [lzwData_byte str code s hfit, lzwData_byte str code t hfit', ← h.regs]
  by_cases hold : a < s.lzw.outPos.toNat
  · rw [State.byte_write_outside _ _ _ _ _ _ (.inr (.inl hold)),
      State.byte_write_outside _ _ _ _ _ _ (.inr (.inl hold))]
    exact h.emitted hrun a hold
  · obtain ⟨j, rfl⟩ := Nat.exists_eq_add_of_le (not_lt.1 hold)
    rw [State.byte_write_inside _ _ _ _ j (by omega), State.byte_write_inside _ _ _ _ j (by omega)]

theorem LzwAlike.data (h : LzwAlike s t) (hrun : s.status.err = false) (str : List Byte) (code : BitVec 12) :
    LzwAlike (lzwData str code s) (lzwData str code t) := by
  by_cases hover : s.op.outLen.toNat < s.lzw.outPos.toNat + str.length
  · rw [lzwData_overrun str code s hover, lzwData_overrun str code t (by rw [← h.outLen, ← h.regs]; exact hover)]
    exact h.flags (fun f => { f with overrun := true }) fun _ => rfl
  have hover' : ¬ t.op.outLen.toNat < t.lzw.outPos.toNat + str.length := by rw [← h.outLen, ← h.regs]; exact hover
  have hop (u : State) : (lzwData str code u).op = u.op := by rw [lzwData_frame]
  have hmin : minCode (lzwData str code s) = minCode s := congrArg (·.lzwMincs.toNat) (hop s)
  have herrinfo (u : State) : (lzwData str code u).errinfo = u.errinfo := by rw [lzwData_frame]
  exact {
    mincs := by rw [hop, hop]; exact h.mincs
    outLen := by rw [hop, hop]; exact h.outLen
    regs := lzwData_lzw_congr h.outLen h.regs str code
    status := by rw [lzwData_status str code s hover, lzwData_status str code t hover']; exact h.status
    errinfo := by rw [herrinfo, herrinfo]; exact h.errinfo
    entries := fun k hlow hhigh => h.data_entries code hover hover' k (hmin ▸ hlow) hhigh
    emitted := fun _ a ha => h.data_emitted hrun code hover hover' a (lzwData_outPos str code s hover ▸ ha) }

theorem LzwAlike.invalid (h : LzwAlike s t) (code : BitVec 12) : LzwAlike (lzwInvalid code s) (lzwInvalid code t) where
  mincs := h.mincs
  outLen := h.outLen
  regs := h.regs
  status := rfl
  errinfo := rfl
  entries := h.entries
  emitted herr := absurd herr.symm Bool.false_ne_true

/-- A code of class `REF` is below `NEXTCODE`, past the control codes (R97). -/
theorem spelled_of_classify_ref {code : BitVec 12} (h : classify (codeCtx s) code.toNat = .ref) : spelled s code := by
  unfold classify at h
  split_ifs at h with hclear heoi _ hlt
  exact ⟨hlt, hclear, heoi⟩

/-- A code of class `KWKWK` follows a previous code (R97). -/
theorem prevValid_of_classify_kwkwk {n : Nat} (h : classify (codeCtx s) n = .kwkwk) : s.lzw.prevValid = true := by
  unfold classify at h
  split_ifs at h with _ _ _ _ hnext
  exact hnext.2

theorem LzwAlike.code (h : LzwAlike s t) (hs : LzwInv s) (hrun : s.status.err = false) (code : BitVec 12) :
    LzwAlike (lzwCode code s) (lzwCode code t) := by
  unfold lzwCode
  rw [← h.codeCtx_eq]
  cases hclass : classify (codeCtx s) code.toNat with
  | clear => exact h.emptied (by rw [h.minCode_eq, h.regs]) rfl (hs.clear.fresh rfl)
  | eoi => exact h.flags (fun f => { f with eoi := true }) fun _ => rfl
  | lit => exact h.data hrun _ code
  | ref =>
    show LzwAlike (lzwData (strOf s code) code s) (lzwData (strOf t code) code t)
    rw [← h.strOf_eq hs (spelled_of_classify_ref hclass)]
    exact h.data hrun _ code
  | kwkwk =>
    simp only [lzwKwkwk]
    rw [← h.regs, ← h.strOf_eq hs (hs.prev (prevValid_of_classify_kwkwk hclass))]
    exact h.data hrun _ _
  | invalid => exact h.invalid code

theorem LzwAlike.advance (h : LzwAlike s t) : LzwAlike (lzwAdvance s) (lzwAdvance t) where
  mincs := h.mincs
  outLen := h.outLen
  regs := by unfold lzwAdvance; rw [h.regs]
  status := h.status
  errinfo := h.errinfo
  entries := h.entries
  emitted := h.emitted

theorem LzwAlike.turn (h : LzwAlike s t) (hs : LzwInv s) (hrun : s.status.err = false) (stream nbits : Nat) :
    LzwAlike (lzwTurn stream nbits s) (lzwTurn stream nbits t) := by
  have hfetch : lzwFetch stream t = lzwFetch stream s := by unfold lzwFetch; rw [h.regs]
  unfold lzwTurn
  rw [hfetch, ← h.regs]
  split
  · exact h.flags (fun f => { f with exhausted := true }) fun _ => rfl
  · exact h.advance.code hs.advance hrun _

theorem LzwAlike.loop (stream nbits turns : Nat) (h : LzwAlike s t) (hs : LzwInv s) (hrun : s.status.err = false) :
    LzwAlike (lzwLoop stream nbits turns s) (lzwLoop stream nbits turns t) := by
  induction turns generalizing s t with
  | zero => exact h
  | succ turns ih =>
    have hturn := h.turn hs hrun stream nbits
    simp only [lzwLoop, ← hturn.status]
    split
    next => exact hturn
    next hhalt =>
      refine ih hturn (hs.turn stream nbits) ?_
      simp only [Status.halted, Bool.or_eq_true, not_or, Bool.not_eq_true] at hhalt
      exact hhalt.2

theorem LzwAlike.closed (h : LzwAlike s t) : LzwAlike (lzwClosed s) (lzwClosed t) := by
  have htrunc : (t.status.exhausted || decide (t.lzw.outPos.toNat < t.op.outLen.toNat)) =
      (s.status.exhausted || decide (s.lzw.outPos.toNat < s.op.outLen.toNat)) := by rw [h.status, h.regs, h.outLen]
  unfold lzwClosed
  rw [htrunc, ← h.status]
  split
  next => exact h
  next =>
    have hflags := h.flags (fun f => { f with
      done := true, trunc := s.status.exhausted || decide (s.lzw.outPos.toNat < s.op.outLen.toNat) }) fun _ => rfl
    rw [← h.status] at hflags
    exact hflags

/-! The start and the whole run. -/

/-- Equal operands make the starts alike, whatever the storage holds: nothing is emitted and there is no entry (R132, R150). -/
theorem LzwAlike.start (hp : passes .lzwDecode s) (hmincs : s.op.lzwMincs = t.op.lzwMincs)
    (houtLen : s.op.outLen = t.op.outLen) : LzwAlike (lzwStart s) (lzwStart t) where
  mincs := hmincs
  outLen := houtLen
  regs := by unfold lzwStart; rw [hmincs]
  status := rfl
  errinfo := rfl
  entries k hlow hhigh := by
    have hfresh := (LzwInv.start hp).fresh rfl
    omega
  emitted _ a ha := absurd ha (Nat.not_lt_zero a)

theorem payload_congr (hinLen : s.op.inLen = t.op.inLen)
    (hin : ∀ a, a < s.op.inLen.toNat → s.byte .inb a = t.byte .inb a) : payload s = payload t := by
  have hbytes : s.bytes .inb 0 s.op.inLen.toNat = t.bytes .inb 0 s.op.inLen.toNat :=
    List.map_congr_left fun a ha => hin a (by rw [List.mem_range'_1] at ha; omega)
  unfold payload
  rw [← hinLen, hbytes]

theorem LzwAlike.halt (hp : passes .lzwDecode s) (hmincs : s.op.lzwMincs = t.op.lzwMincs)
    (houtLen : s.op.outLen = t.op.outLen) (hpayload : payload s = payload t) : LzwAlike (lzwHalt s) (lzwHalt t) := by
  unfold lzwHalt
  rw [← hpayload]
  exact (LzwAlike.start hp hmincs houtLen).loop _ _ _ (.start hp) rfl

end Sys2Proof.Machine

namespace Sys2Proof.Proofs
open Sys2Proof Sys2Proof.Machine Sys2Proof.Claim

/-- Settles O34: the two runs have the same payload, start alike, and stay alike to the end. -/
theorem lzwRepeatable : Obligations.LzwRepeatable := by
  intro s1 s2 t1 t2 hcaps1 hcaps2 hp1 hp2 hmincs hinLen houtLen hin ht1 ht2
  rw [exec_lzwDecode hcaps1 hp1] at ht1
  rw [exec_lzwDecode hcaps2 hp2] at ht2
  cases ht1
  cases ht2
  have halike := (LzwAlike.halt hp1 hmincs houtLen (payload_congr hinLen hin)).closed
  exact ⟨halike.regs, halike.status, halike.errinfo, halike.emitted⟩

end Sys2Proof.Proofs
end

section
/-! The palette blitter in the terms of the statements (R170 to R181): its row order, what a fault leaves, and BLIT.GIF as the
blit of the values its control register holds. -/

namespace Sys2Proof.Machine
open Sys2Proof.Claim

variable {mode : BlitMode} {s u : State} {n : Nat}

/-! Row order (R173, R174). -/

/-- The four passes visit every row once. -/
theorem interlacedRows_perm_range (h : Nat) : (interlacedRows h).Perm (List.range h) :=
  (List.perm_ext_iff_of_nodup (nodup_interlacedRows h) List.nodup_range).2 fun r => by
    rw [mem_interlacedRows, List.mem_range]

theorem interlacedRows_getElem? {k h : Nat} (hk : k < h) : (interlacedRows h)[k]? = some (rowOf true k h) := by
  have hlen : k < (interlacedRows h).length := (length_interlacedRows h).symm ▸ hk
  rw [List.getElem?_eq_getElem hlen, ← List.getD_eq_getElem _ 0 hlen]
  rfl

/-! A blit that meets an index outside the palette (R177, R181). -/

theorem blitRun_of_first_bad (hn : n < indexCount s) (hbad : indexBad mode s n)
    (hfirst : ∀ i, i < n → ¬ indexBad mode s i) : blitRun mode s = forgetRect (faulted s 7#8 n) := by
  have hsome : blitFirstBad mode s = some n :=
    blitFirstBad_some mode s n hn (blitAct_eq_bad_iff.2 hbad) fun i hi hact => hfirst i hi (blitAct_eq_bad_iff.1 hact)
  unfold blitRun
  rw [hsome]
  rfl

/-- The fault is taken with the first bad position; besides, only bytes of the frame rectangle and the counter of free values
can change (R324). -/
theorem blitRun_faults (hn : n < indexCount s) (hbad : indexBad mode s n) (hfirst : ∀ i, i < n → ¬ indexBad mode s i) :
    blitRun mode s = { faulted s 7#8 n with mem := (blitRun mode s).mem, free := (blitRun mode s).free } ∧
      sameOutside s (blitRun mode s) (inCanvasRect s) := by
  refine ⟨?_, fun sp a hout => blitRun_outside mode s sp a hout⟩
  rw [blitRun_of_first_bad hn hbad hfirst]
  exact forgetRect_frame _

/-! The command (R170, R300). -/

/-- BLIT.GIF on operands it accepts is the blit in the mode `BLIT_CTL` holds, with the status cleared before and the normal end
after it. -/
theorem exec_blitGif (h : passes .blitGif s) : exec .blitGif s = .next (blitRun (blitMode s) (cleared s)).complete :=
  congrArg _ (command_passed (blitChecks s) (blitRun (blitMode s)) s h)

/-- A body that has painted the cleared state ends normally. -/
theorem painted_complete (h : painted mode (cleared s) u) : painted mode (ended s) u.complete := by
  obtain ⟨hmem, hpixels, hrest⟩ := h
  obtain ⟨m, rfl⟩ : ∃ m, u = { cleared s with mem := m } := ⟨u.mem, hmem⟩
  exact ⟨rfl, hpixels, hrest⟩

/-- With `BUSY` clear, the end of a command is the one the statements spell. -/
theorem State.complete_eq_closed (h : u.status.busy = false) : u.complete = closed u := by
  unfold State.complete State.finish closed
  rw [← h]

theorem blitRun_busy (mode : BlitMode) (h : s.status.busy = false) : (blitRun mode s).status.busy = false := by
  rcases blitRun_cases mode s with ⟨i, _, hrun⟩ | ⟨_, hrun⟩
  · rw [hrun, forgetRect_frame]; rfl
  · rw [hrun]; exact h

/-! The fields of `BLIT_CTL` (R22, R116). -/

/-- A field of one bit is that bit of the word. -/
theorem bitField_one_bit (w : Word) (k : Nat) : (bitField w.toNat k k == 1) = w.getLsbD k := by
  rw [← BitVec.testBit_toNat, Nat.testBit_eq_decide_div_mod_eq, bitField, Nat.add_sub_cancel_left, Nat.pow_one]
  rfl

/-- The bits of `BLIT_CTL` that `INTERLACED`, `TRANSP_EN` and `ORDER` read from. -/
theorem readReg_blitCtl_getLsbD (s : State) :
    (s.readReg .blitCtl).getLsbD 0 = s.op.interlaced ∧ (s.readReg .blitCtl).getLsbD 1 = s.op.transpEn ∧
      (s.readReg .blitCtl).getLsbD 2 = s.op.order := by
  simp [State.readReg, bitAt_eq_placed, placed]

/-- Each field decodes to the value that keeps the mode `BLIT_CTL` holds. -/
theorem decode_blitCtl_mem_controlBlits {site : Site} (h : site ∈ [Site.rowOrder, Site.transp, Site.order]) :
    (decode site (s.readReg .blitCtl).toNat, blitMode s) ∈ controlBlits s := by
  obtain ⟨hinterlaced, htransp, horder⟩ := readReg_blitCtl_getLsbD s
  simp only [List.mem_cons, List.not_mem_nil, or_false] at h
  rcases h with rfl | rfl | rfl
  · rw [decode, bitField_one_bit, hinterlaced]
    cases hfield : s.op.interlaced <;> simp [controlBlits, decodeRowOrder, blitMode, hfield]
  · rw [decode, bitField_one_bit, htransp]
    cases hfield : s.op.transpEn <;> simp [controlBlits, decodeTransp, blitMode, hfield]
  · rw [decode, bitField_one_bit, horder]
    cases hfield : s.op.order <;> simp [controlBlits, decodeOrder, blitMode, hfield]

end Sys2Proof.Machine

namespace Sys2Proof.Proofs
open Sys2Proof Sys2Proof.Machine Sys2Proof.Claim

/-- Settles O35: the passes list the remainders in order, and together every row once. -/
theorem interlacedRows : Obligations.InterlacedRows := by
  intro h
  rw [rowSequence_eq_interlacedRows]
  exact ⟨fun _ => rfl, fun _ => interlacedRows_getElem?, interlacedRows_perm_range h⟩

/-- Settles O36: the command is the blit of the cleared state, and ends as that blit does. -/
theorem blitGifPaints : Obligations.BlitGifPaints := by
  refine ⟨fun s hp hok => ?_, fun s n hp hn hbad hfirst => ?_⟩
  · have hpaints : painted (blitMode s) (cleared s) (blitRun (blitMode s) (cleared s)) :=
      blitRun_paints (rectFits_of_passes_blitGif hp) hok
    exact ⟨_, exec_blitGif hp, painted_complete hpaints⟩
  · obtain ⟨hfault, hrest⟩ := blitRun_faults (s := cleared s) hn hbad hfirst
    have herr : (blitRun (blitMode s) (cleared s)).status.err = true := by rw [hfault]; rfl
    have hexec := exec_blitGif hp
    rw [State.complete_of_err _ herr] at hexec
    exact ⟨_, hexec, hfault, hrest⟩

/-- Settles O38: each value is the blit in its mode, and every blit reports the first bad position. -/
theorem controlValuesFault : Obligations.ControlValuesFault := fun s _ im him hn hbad hfirst =>
  ⟨blitRun im.2 s, exec_controlBlit him, blitRun_faults hn hbad hfirst⟩

/-- Settles O39: the value each field holds is the blit in the mode the register holds, which is the command's. -/
theorem blitGifRunsControls : Obligations.BlitGifRunsControls := by
  intro s hp site hsite
  have hbusy : (blitRun (blitMode s) (cleared s)).status.busy = false := blitRun_busy _ rfl
  exact ⟨blitRun (blitMode s) (cleared s), exec_controlBlit (decode_blitCtl_mem_controlBlits (s := cleared s) hsite),
    State.complete_eq_closed hbusy ▸ exec_blitGif hp⟩

end Sys2Proof.Proofs
end

section
/-! The scanline defilter in the terms of the statements (R190 to R205): the Paeth function, a reconstructed row as `RAW` holds
it, and what DEFILTER.RUN and ADAM7.RUN do on operands they accept. -/

namespace Sys2Proof.Machine
open Sys2Proof.Claim

variable {s t : State} {y : Nat}

/-! Paeth (R198). -/

/-- The distance of `x` to `a + b - c`, in exact integers. -/
def paethDistance (a b c x : Byte) : Nat := ((a.toNat : Int) + b.toNat - c.toNat - x.toNat).natAbs

theorem paeth_eq_ite (a b c : Byte) : paeth a b c =
    if paethDistance a b c a ≤ paethDistance a b c b ∧ paethDistance a b c a ≤ paethDistance a b c c then a
    else if paethDistance a b c b ≤ paethDistance a b c c then b
    else c := rfl

theorem paeth_eq_left {a b c : Byte} (hb : paethDistance a b c a ≤ paethDistance a b c b)
    (hc : paethDistance a b c a ≤ paethDistance a b c c) : paeth a b c = a := by
  rw [paeth_eq_ite, if_pos ⟨hb, hc⟩]

theorem paeth_eq_up {a b c : Byte}
    (ha : paethDistance a b c b < paethDistance a b c a ∨ paethDistance a b c c < paethDistance a b c a)
    (hc : paethDistance a b c b ≤ paethDistance a b c c) : paeth a b c = b := by
  rw [paeth_eq_ite, if_neg (by omega), if_pos hc]

theorem paeth_eq_upperLeft {a b c : Byte}
    (ha : paethDistance a b c b < paethDistance a b c a ∨ paethDistance a b c c < paethDistance a b c a)
    (hb : paethDistance a b c c < paethDistance a b c b) : paeth a b c = c := by
  rw [paeth_eq_ite, if_neg (by omega), if_neg (by omega)]

theorem paeth_mem (a b c : Byte) : paeth a b c = a ∨ paeth a b c = b ∨ paeth a b c = c := by
  rw [paeth_eq_ite]
  split_ifs
  · exact .inl rfl
  · exact .inr (.inl rfl)
  · exact .inr (.inr rfl)

theorem paeth_closest (a b c : Byte) : paethDistance a b c (paeth a b c) ≤ paethDistance a b c a ∧
    paethDistance a b c (paeth a b c) ≤ paethDistance a b c b ∧
    paethDistance a b c (paeth a b c) ≤ paethDistance a b c c := by
  rw [paeth_eq_ite]
  split_ifs <;> omega

/-- With `b = c` the left byte lies at distance 0. -/
theorem paeth_same_above (a b : Byte) : paeth a b b = a := by
  have hzero : paethDistance a b b a = 0 := by unfold paethDistance; omega
  exact paeth_eq_left (by omega) (by omega)

/-- With `a = c` the byte above lies at distance 0, and a tie with the left byte is between equal bytes. -/
theorem paeth_zero_up_zero (b : Byte) : paeth 0#8 b 0#8 = b := by
  have hup : paethDistance 0#8 b 0#8 b = 0 := by simp [paethDistance]
  have hleft : paethDistance 0#8 b 0#8 0#8 = b.toNat := by simp [paethDistance]
  by_cases hb : b = 0#8
  · subst hb; exact paeth_same_above _ _
  · have hpos : 0 < b.toNat := Nat.pos_of_ne_zero fun h => hb (BitVec.eq_of_toNat_eq h)
    exact paeth_eq_up (by omega) (by omega)

/-! The operand checks (R190, R210). -/

theorem imageDepthLegal_eq (s : State) : imageDepthLegal s = legalPair s := by
  unfold imageDepthLegal legalPair
  generalize s.op.ctype = ct
  generalize s.op.depth = d
  revert ct d
  decide +kernel

theorem colorType_isSome_eq (v : BitVec 3) : (colorType v).isSome = [0, 2, 3, 4, 6].contains v.toNat := by
  revert v; decide

theorem reconChecks_eq_r326 (s : State) : reconChecks s = r326 .defilterRun s := by
  unfold reconChecks imageChecks rawCheck
  rw [imageDepthLegal_eq, colorType_isSome_eq, imageRowBytes_eq]
  rfl

/-! The predictors, as the statements spell them (R193 to R197). -/

theorem predicted_eq_of_predictor {tag : Byte} {pred : Byte → Byte → Byte → Byte} (h : predictor (filterTag tag) = some pred)
    (a b c : Byte) : predicted tag a b c = some (pred a b c) := by
  unfold filterTag at h
  split_ifs at h with h0 h1 h2 h3 h4
  · subst h0; cases h; rfl
  · subst h1; cases h; rfl
  · subst h2; cases h; rfl
  · subst h3; cases h; rfl
  · subst h4; cases h; rfl
  · cases h

/-- The instruction of a legal tag reconstructs its row with the predictor of the tag (R102). -/
theorem exec_tagInstr {it : Instr × Byte} (h : it ∈ tagInstrs y) :
    ∃ pred, predictor (filterTag it.2) = some pred ∧ ∀ s, exec it.1 s = .next (defilterRow pred y s) := by
  simp only [tagInstrs, List.mem_cons, List.not_mem_nil, or_false] at h
  rcases h with rfl | rfl | rfl | rfl | rfl <;> exact ⟨_, rfl, fun _ => rfl⟩

/-! A row of `RAW` (R191, R202). -/

/-- Row `y` of `RAW` is the reconstruction, with `pred`, of its filtered row in `FILT` from the row above it in `RAW`. -/
def rowReconstructed (pred : Byte → Byte → Byte → Byte) (y : Nat) (t : State) : Prop :=
  t.bytes .raw (rawRowAddr t y) (imageRowBytes t) =
    reconRow pred (imageDistance t) (rowAbove t y) (t.bytes .filt (tagAddr t y + 1) (imageRowBytes t))

theorem leftDistance_eq (s : State) : leftDistance s = imageDistance s := by
  unfold leftDistance imageDistance
  rw [imageBits_eq]
  rfl

theorem imageRow_of_op (h : t.op = s.op) : imageRow t = imageRow s := by
  unfold imageRow pixelBits imageW
  rw [h]

theorem leftDistance_of_op (h : t.op = s.op) : leftDistance t = leftDistance s := by
  unfold leftDistance pixelBits
  rw [h]

/-- A reconstructed row, byte by byte, from the operands and the filtered bytes of a state `s` that agrees on them. -/
theorem rowReconstructed.byte {pred : Byte → Byte → Byte → Byte} (h : rowReconstructed pred y t) (hop : t.op = s.op)
    (hfilt : ∀ a, t.byte .filt a = s.byte .filt a) {tag : Byte} (htag : predictor (filterTag tag) = some pred) {x : Nat}
    (hx : x < imageRow s) :
    reconstructed tag (s.byte .filt (y * (1 + imageRow s) + 1 + x)) (leftDistance s) (rawRows t (imageRow s)) y x := by
  rw [← imageRow_of_op hop, ← imageRowBytes_eq] at hx
  rw [← hfilt, ← leftDistance_of_op hop, ← imageRow_of_op hop, leftDistance_eq, ← imageRowBytes_eq]
  have hraw {j : Nat} (hj : j < imageRowBytes t) : (reconRow pred (imageDistance t) (rowAbove t y)
      (t.bytes .filt (tagAddr t y + 1) (imageRowBytes t))).getD j 0#8 = rawRows t (imageRowBytes t) y j := by
    rw [← h, State.bytes_getD _ _ _ _ _ hj]; rfl
  have habove {j : Nat} (hj : j < imageRowBytes t) :
      (rowAbove t y).getD j 0#8 = if y = 0 then 0#8 else rawRows t (imageRowBytes t) (y - 1) j := rowAbove_getD t y j hj
  have hrow := reconRow_getD pred (imageDistance t) (one_le_filterDistance _) (rowAbove t y)
    (t.bytes .filt (tagAddr t y + 1) (imageRowBytes t)) x (by rwa [State.bytes_length])
  rw [hraw hx, hraw (by omega), habove hx, habove (by omega), State.bytes_getD _ _ _ _ _ hx] at hrow
  refine ⟨_, predicted_eq_of_predictor htag _ _ _, hrow.trans ?_⟩
  by_cases hleft : imageDistance t ≤ x
  · simp only [hleft, not_lt.2 hleft, or_false]; rfl
  · simp only [hleft, not_le.1 hleft, or_true, if_true, if_false]; rfl

/-! A filter tag as an instruction. -/

theorem State.bytes_congr {sp : Space} {k n : Nat} (h : ∀ a, k ≤ a → a < k + n → t.byte sp a = s.byte sp a) :
    t.bytes sp k n = s.bytes sp k n :=
  List.map_congr_left fun a ha => by
    rw [List.mem_range'_1] at ha
    exact h a ha.1 ha.2

/-- The row above ends where the row begins. -/
theorem rawRowAddr_pred (s : State) (hy : y ≠ 0) : rawRowAddr s (y - 1) + imageRowBytes s = rawRowAddr s y := by
  obtain ⟨j, rfl⟩ := Nat.exists_eq_succ_of_ne_zero hy
  exact (Nat.succ_mul j (imageRowBytes s)).symm

theorem State.bytes_write_same {sp : Space} {k n : Nat} {bs : List Byte} (h : bs.length = n) :
    (s.write sp k bs).bytes sp k n = bs :=
  List.ext_getElem (by rw [State.bytes_length, h]) fun x hx hx' => by
    rw [State.bytes_getElem _ _ _ _ _ hx, State.byte_write_inside _ _ _ _ _ hx']

theorem State.bytes_write_other {sp sq : Space} (h : sq ≠ sp) (k : Nat) (bs : List Byte) (j n : Nat) :
    (s.write sp k bs).bytes sq j n = s.bytes sq j n :=
  State.bytes_congr fun a _ _ => State.byte_write_outside s sp k bs sq a (.inl h)

theorem rowAbove_write_row (s : State) (y : Nat) (bs : List Byte) :
    rowAbove (s.write .raw (rawRowAddr s y) bs) y = rowAbove s y := by
  unfold rowAbove
  split
  case isTrue => rfl
  case isFalse hy =>
    exact State.bytes_congr fun a _ ha =>
      State.byte_write_outside _ _ _ _ _ _ (.inr (.inl (ha.trans_eq (rawRowAddr_pred s hy))))

/-- The tag writes its own row, so `FILT` and the row above still hold what it read. -/
theorem rowReconstructed_defilterRow (pred : Byte → Byte → Byte → Byte) (hy : y < imgH s) :
    rowReconstructed pred y (defilterRow pred y s) := by
  unfold defilterRow
  rw [if_pos hy]
  refine (State.bytes_write_same (by rw [reconRow_length, State.bytes_length]; rfl)).trans ?_
  rw [rowAbove_write_row, State.bytes_write_other (by decide)]
  rfl

theorem defilterRow_op (pred : Byte → Byte → Byte → Byte) (y : Nat) (s : State) : (defilterRow pred y s).op = s.op := by
  unfold defilterRow
  split <;> rfl

theorem defilterRow_byte_filt (pred : Byte → Byte → Byte → Byte) (y : Nat) (s : State) (a : Nat) :
    (defilterRow pred y s).byte .filt a = s.byte .filt a :=
  defilterRow_byte_outside pred y s .filt a fun ⟨hsp, _⟩ => nomatch hsp

/-! `E_FILTER_TAG` (R199, R324). -/

theorem raiseFilterTag_faults (n : Nat) (s : State) :
    raiseFilterTag n s = { faulted s 6#8 n with mem := (raiseFilterTag n s).mem, free := (raiseFilterTag n s).free } ∧
      sameOutside s (raiseFilterTag n s) (fun sp a => sp = .raw ∧ a < imageH s * imageRow s) :=
  ⟨rfl, fun _ _ hout => raiseFilterTag_byte_outside n hout⟩

/-! The bodies of the two commands. -/

theorem plainNeed_eq (s : State) : plainNeed s = defilterNeed s := by
  unfold plainNeed defilterNeed
  rw [imageRowBytes_eq]
  rfl

/-- With enough bytes and legal tags the rows of the image are written and their bytes counted (R190, R203). -/
theorem defilterRun_of_legal (hneed : plainNeed s ≤ s.op.filtLen.toNat)
    (htags : ∀ y, y < imageH s → (s.byte .filt (y * (1 + imageRow s))).toNat ≤ 4) :
    ∃ bs, defilterRun s = { s.write .raw 0 bs with filtUsed := BitVec.ofNat 32 (plainNeed s) } := by
  rw [plainNeed_eq] at hneed ⊢
  rw [← imageRowBytes_eq] at htags
  obtain ⟨rows, hrows⟩ := recon_ok s (imageRowBytes s) (imageDistance s) (imgH s) 0 (zeroRow (imageRowBytes s))
    fun y hy => (predictor_isSome_iff _).2 (by rw [Nat.zero_add]; exact htags y hy)
  refine ⟨rows.flatten, ?_⟩
  unfold defilterRun
  rw [if_neg (not_lt.2 hneed), hrows]

/-- The first reserved tag is reported (R199, R325). -/
theorem defilterRun_of_reserved (hneed : plainNeed s ≤ s.op.filtLen.toNat) (hy : y < imageH s)
    (hbefore : ∀ j, j < y → (s.byte .filt (j * (1 + imageRow s))).toNat ≤ 4)
    (hbad : 5 ≤ (s.byte .filt (y * (1 + imageRow s))).toNat) :
    defilterRun s = raiseFilterTag (y * (1 + imageRow s)) s := by
  rw [plainNeed_eq] at hneed
  rw [← imageRowBytes_eq] at hbefore hbad ⊢
  have herror := recon_error s (imageRowBytes s) (imageDistance s) (imgH s) 0 (zeroRow (imageRowBytes s)) y hy
    (fun j hj => (predictor_isSome_iff _).2 (by rw [Nat.zero_add]; exact hbefore j hj))
    ((predictor_none_iff _).2 (by rw [Nat.zero_add]; exact hbad))
  rw [Nat.zero_add] at herror
  unfold defilterRun
  rw [if_neg (not_lt.2 hneed), herror]

/-! Passes (R210 to R214, R221). -/

/-- The row length of a pass, as the statements spell it. -/
theorem passRowBytes_eq (s : State) (p : Pass) :
    rowBytes (imageBits s) (passW (imgW s) p) = rowLen (pixelBits s) (passW (imageW s) p) := by
  rw [imageBits_eq]
  rfl

/-- A pass whose tags are all legal, or that has no row, is passed over with its `len_p` bytes (R212, R213). -/
theorem adam7Go_cons_of_legal {p : Pass} {off : Nat}
    (htags : ∀ j, passHasRow s p j →
      (s.byte .filt (off + j * (1 + rowLen (pixelBits s) (passW (imageW s) p)))).toNat ≤ 4)
    (ps : List Pass) (raw : List Byte) :
    ∃ raw', adam7Go s (p :: ps) off raw = adam7Go s ps (off + passBytes s p) raw' := by
  by_cases hempty : passW (imageW s) p = 0 ∨ passH (imageH s) p = 0
  · have hbytes : passBytes s p = 0 := if_pos hempty
    exact ⟨raw, by rw [hbytes]; exact if_pos hempty⟩
  · have hbytes : passBytes s p = passH (imageH s) p * (1 + rowLen (pixelBits s) (passW (imageW s) p)) := if_neg hempty
    rw [← passRowBytes_eq] at hbytes htags
    obtain ⟨rows, hrows⟩ := recon_ok s (rowBytes (imageBits s) (passW (imgW s) p)) (imageDistance s) (passH (imgH s) p) off
      (zeroRow (rowBytes (imageBits s) (passW (imgW s) p)))
      fun j hj => (predictor_isSome_iff _).2 (htags j ⟨Nat.pos_of_ne_zero fun h => hempty (.inl h), hj⟩)
    rw [hbytes]
    refine ⟨scatterRows (imageBits s) (imageRowBytes s) (passW (imgW s) p) p 0 rows raw, (if_neg hempty).trans ?_⟩
    rw [hrows]
    rfl

/-- The first reserved tag of a pass ends the run (R221, R325). -/
theorem adam7Go_cons_of_reserved {p : Pass} {off j : Nat} (hrow : passHasRow s p j)
    (hbefore : ∀ i, i < j →
      (s.byte .filt (off + i * (1 + rowLen (pixelBits s) (passW (imageW s) p)))).toNat ≤ 4)
    (hbad : 5 ≤ (s.byte .filt (off + j * (1 + rowLen (pixelBits s) (passW (imageW s) p)))).toNat)
    (ps : List Pass) (raw : List Byte) :
    adam7Go s (p :: ps) off raw = .error (off + j * (1 + rowLen (pixelBits s) (passW (imageW s) p))) := by
  obtain ⟨hwidth, hj⟩ := hrow
  rw [← passRowBytes_eq] at hbefore hbad ⊢
  have herror := recon_error s (rowBytes (imageBits s) (passW (imgW s) p)) (imageDistance s) (passH (imgH s) p) off
    (zeroRow (rowBytes (imageBits s) (passW (imgW s) p))) j hj (fun i hi => (predictor_isSome_iff _).2 (hbefore i hi))
    ((predictor_none_iff _).2 hbad)
  have hsome : ¬ (passW (imageW s) p = 0 ∨ passH (imageH s) p = 0) := by omega
  refine (if_neg hsome).trans ?_
  rw [herror]

/-- The index in `FILT` of the tag of row `j` of `p`, number `k` of the passes `ps` that start at `off`. -/
def passTagFrom (s : State) (off : Nat) (ps : List Pass) (k : Nat) (p : Pass) (j : Nat) : Nat :=
  off + ((ps.take k).map (passBytes s)).sum + j * (1 + rowLen (pixelBits s) (passW (imageW s) p))

theorem passTagFrom_adam7Passes (s : State) (k : Nat) (p : Pass) (j : Nat) :
    passTagFrom s 0 adam7Passes k p j = passTag s k p j := by
  unfold passTagFrom passTag passOffset
  rw [Nat.zero_add]

theorem passTagFrom_cons_succ (s : State) (off : Nat) (q : Pass) (ps : List Pass) (k : Nat) (p : Pass) (j : Nat) :
    passTagFrom s off (q :: ps) (k + 1) p j = passTagFrom s (off + passBytes s q) ps k p j := by
  simp only [passTagFrom, List.take_succ_cons, List.map_cons, List.sum_cons, Nat.add_assoc]

/-- The first reserved tag in passes then rows is the one reported (R221, R325). -/
theorem adam7Go_of_reserved {ps : List Pass} {off k j : Nat} {p : Pass} (hp : ps[k]? = some p) (hrow : passHasRow s p j)
    (hbefore : ∀ k' p' j', ps[k']? = some p' → passHasRow s p' j' → k' < k ∨ (k' = k ∧ j' < j) →
      (s.byte .filt (passTagFrom s off ps k' p' j')).toNat ≤ 4)
    (hbad : 5 ≤ (s.byte .filt (passTagFrom s off ps k p j)).toNat) (raw : List Byte) :
    adam7Go s ps off raw = .error (passTagFrom s off ps k p j) := by
  induction ps generalizing off k raw with
  | nil => cases hp
  | cons q ps ih =>
    cases k with
    | zero =>
      obtain rfl : q = p := Option.some.inj hp
      obtain ⟨hwidth, hj⟩ := hrow
      exact adam7Go_cons_of_reserved ⟨hwidth, hj⟩
        (fun i hi => hbefore 0 q i rfl ⟨hwidth, hi.trans hj⟩ (.inr ⟨rfl, hi⟩)) hbad ps raw
    | succ k =>
      obtain ⟨raw', hgo⟩ := adam7Go_cons_of_legal (s := s) (p := q) (off := off)
        (fun i hi => hbefore 0 q i rfl hi (.inl k.succ_pos)) ps raw
      rw [hgo, passTagFrom_cons_succ]
      refine ih hp (fun k' p' j' hp' hrow' horder => ?_) (passTagFrom_cons_succ s off q ps k p j ▸ hbad) raw'
      rw [← passTagFrom_cons_succ]
      exact hbefore (k' + 1) p' j' hp' hrow' (by omega)

theorem interlacedNeed_eq (s : State) : interlacedNeed s = adam7Need s := by
  unfold adam7Need
  rw [imageBits_eq]
  rfl

theorem adam7Run_of_reserved {k j : Nat} {p : Pass} (hneed : interlacedNeed s ≤ s.op.filtLen.toNat)
    (hp : adam7Passes[k]? = some p) (hrow : passHasRow s p j)
    (hbefore : ∀ k' p' j', adam7Passes[k']? = some p' → passHasRow s p' j' → k' < k ∨ (k' = k ∧ j' < j) →
      (s.byte .filt (passTag s k' p' j')).toNat ≤ 4)
    (hbad : 5 ≤ (s.byte .filt (passTag s k p j)).toNat) :
    adam7Run s = raiseFilterTag (passTag s k p j) s := by
  rw [interlacedNeed_eq] at hneed
  simp only [← passTagFrom_adam7Passes] at hbefore hbad ⊢
  unfold adam7Run
  rw [if_neg (not_lt.2 hneed), adam7Go_of_reserved hp hrow hbefore hbad]

/-! The two commands (R190, R210, R300). -/

theorem exec_defilterRun (h : passes .defilterRun s) : exec .defilterRun s = .next (defilterRun (cleared s)).complete :=
  congrArg _ (command_passed (reconChecks s) defilterRun s (reconChecks_eq_r326 s ▸ h))

theorem exec_adam7Run (h : passes .adam7Run s) : exec .adam7Run s = .next (adam7Run (cleared s)).complete :=
  congrArg _ (command_passed (reconChecks s) adam7Run s (reconChecks_eq_r326 s ▸ h))

end Sys2Proof.Machine

namespace Sys2Proof.Proofs
open Sys2Proof Sys2Proof.Machine Sys2Proof.Claim

/-- Settles O40: the tests of R198 are the comparisons of the three distances, so each case selects a closest byte. -/
theorem paethClosest : Obligations.PaethClosest := by
  refine ⟨fun a b c => ?_, fun a => paeth_same_above a a, fun a => paeth_same_above a 0#8, paeth_zero_up_zero⟩
  obtain ⟨hleft, hup, hupperLeft⟩ := paeth_closest a b c
  exact ⟨paeth_mem a b c, hleft, hup, hupperLeft, paeth_eq_left, paeth_eq_up, paeth_eq_upperLeft⟩

/-- Settles O41: each instruction is the row operation of its tag's predictor. -/
theorem filterTagsReconstruct : Obligations.FilterTagsReconstruct := by
  intro s y it hit
  obtain ⟨pred, htag, hexec⟩ := exec_tagInstr hit
  refine ⟨fun hy => ⟨defilterRow pred y s, hexec s, defilterRow_onlyMem pred y s, fun x hx => ?_, fun sp a hout => ?_⟩,
    fun hy => ?_⟩
  · exact (rowReconstructed_defilterRow pred hy).byte (defilterRow_op pred y s) (defilterRow_byte_filt pred y s) htag hx
  · exact filterRow_byte_outside pred fun ⟨hsp, _, hin⟩ => hout ⟨hsp, hin⟩
  · rw [hexec, defilterRow_outside_image pred y s hy]

/-- Settles O42: the instruction takes the fault of the row's tag byte. -/
theorem filterTagReserved : Obligations.FilterTagReserved := by
  intro s tag y
  rw [← imageRowBytes_eq]
  obtain ⟨hfault, hrest⟩ := raiseFilterTag_faults (tagAddr s y) s
  rw [← imageRowBytes_eq] at hrest
  exact ⟨raiseFilterTag (tagAddr s y) s, rfl, hfault, hrest⟩

/-- Settles O43: without a reserved tag the command ends normally, and then every row of `RAW` is its reconstruction. -/
theorem defilterReconstructs : Obligations.DefilterReconstructs := by
  intro s hp hneed htags
  have hexec := exec_defilterRun hp
  have hframe : sameOutside s (defilterRun (cleared s)).complete (fun sp a => sp = .raw ∧ a < imageH s * imageRow s) :=
    fun sp a hout => (State.complete_byte _ _ _).trans (defilterRun_byte_outside (s := cleared s) hout)
  obtain ⟨m, hend⟩ : ∃ m, (defilterRun (cleared s)).complete =
      { ended s with mem := m, filtUsed := BitVec.ofNat 32 (plainNeed s) } := by
    obtain ⟨bs, hrun⟩ := defilterRun_of_legal (s := cleared s) hneed htags
    exact ⟨_, by rw [hrun]; rfl⟩
  rw [hend] at hexec hframe
  refine ⟨_, hexec, rfl, ?_, fun y x hy hx => ?_, hframe⟩
  · exact (BitVec.toNat_ofNat _ _).trans (Nat.mod_eq_of_lt (hneed.trans_lt s.op.filtLen.isLt))
  · obtain ⟨pred, htag, hrow⟩ := execDefilterRun_rows hexec rfl hy
    rw [tagAddr, imageRowBytes_eq] at htag
    rw [Nat.zero_add]
    exact rowReconstructed.byte (s := s) hrow rfl (fun a => hframe .filt a fun ⟨hsp, _⟩ => nomatch hsp) htag hx

/-- Settles O45: each command takes the fault at the tag its reconstruction stops at. -/
theorem firstReservedTag : Obligations.FirstReservedTag := by
  refine ⟨fun s y hp hneed hy hbefore hbad => ?_, fun s k p j hp hneed hpass hrow hbefore hbad => ?_⟩
  · have hexec := exec_defilterRun hp
    rw [defilterRun_of_reserved (s := cleared s) hneed hy hbefore hbad, State.complete_of_err _ rfl] at hexec
    exact ⟨_, hexec, raiseFilterTag_faults _ (cleared s)⟩
  · have hexec := exec_adam7Run hp
    rw [adam7Run_of_reserved (s := cleared s) hneed hpass hrow hbefore hbad, State.complete_of_err _ rfl] at hexec
    exact ⟨_, hexec, raiseFilterTag_faults _ (cleared s)⟩

end Sys2Proof.Proofs
end

section
/-! The lattices of Adam7 (R113, R211, R220): a pass counts its lattice points, and every pixel lies in one lattice. -/

namespace Sys2Proof.Machine

variable {k k' i i' j j' : Nat} {p p' : Pass}

/-- The passes by number (R113). -/
theorem adam7Passes_cases (h : adam7Passes[k]? = some p) :
    (k = 0 ∧ p = ⟨0, 0, 8, 8⟩) ∨ (k = 1 ∧ p = ⟨0, 4, 8, 8⟩) ∨ (k = 2 ∧ p = ⟨4, 0, 8, 4⟩) ∨ (k = 3 ∧ p = ⟨0, 2, 4, 4⟩) ∨
      (k = 4 ∧ p = ⟨2, 0, 4, 2⟩) ∨ (k = 5 ∧ p = ⟨0, 1, 2, 2⟩) ∨ (k = 6 ∧ p = ⟨1, 0, 2, 1⟩) := by
  obtain ⟨hk, hp⟩ := List.getElem?_eq_some_iff.1 h
  have hk : k < 7 := hk
  interval_cases k <;> subst hp <;> simp [adam7Passes]

theorem adam7Passes_steps (h : p ∈ adam7Passes) : 0 < p.colStep ∧ 0 < p.rowStep := by
  revert p; decide

/-- The number of the pass whose lattice holds the pixel `(x, y)`, counted from 0. -/
def passNumber (x y : Nat) : Nat :=
  if y % 2 = 1 then 6
  else if x % 2 = 1 then 5
  else if y % 4 = 2 then 4
  else if x % 4 = 2 then 3
  else if y % 8 = 4 then 2
  else if x % 8 = 4 then 1
  else 0

/-- A lattice point of a pass has that pass's number. -/
theorem passNumber_of_lattice (h : adam7Passes[k]? = some p) (i j : Nat) :
    passNumber (p.startCol + i * p.colStep) (p.startRow + j * p.rowStep) = k := by
  unfold passNumber
  obtain ⟨rfl, rfl⟩ | ⟨rfl, rfl⟩ | ⟨rfl, rfl⟩ | ⟨rfl, rfl⟩ | ⟨rfl, rfl⟩ | ⟨rfl, rfl⟩ | ⟨rfl, rfl⟩ := adam7Passes_cases h <;>
    dsimp only
  · iterate 6 rw [if_neg (by omega)]
  · iterate 5 rw [if_neg (by omega)]
    rw [if_pos (by omega)]
  · iterate 4 rw [if_neg (by omega)]
    rw [if_pos (by omega)]
  · iterate 3 rw [if_neg (by omega)]
    rw [if_pos (by omega)]
  · iterate 2 rw [if_neg (by omega)]
    rw [if_pos (by omega)]
  · rw [if_neg (by omega), if_pos (by omega)]
  · rw [if_pos (by omega)]

/-- Every pixel is a lattice point of the pass with its number. -/
theorem exists_lattice_point (x y : Nat) : ∃ p i j, adam7Passes[passNumber x y]? = some p ∧
    x = p.startCol + i * p.colStep ∧ y = p.startRow + j * p.rowStep := by
  unfold passNumber
  split_ifs
  · refine ⟨⟨1, 0, 2, 1⟩, x, y / 2, rfl, ?_, ?_⟩ <;> dsimp only <;> omega
  · refine ⟨⟨0, 1, 2, 2⟩, x / 2, y / 2, rfl, ?_, ?_⟩ <;> dsimp only <;> omega
  · refine ⟨⟨2, 0, 4, 2⟩, x / 2, y / 4, rfl, ?_, ?_⟩ <;> dsimp only <;> omega
  · refine ⟨⟨0, 2, 4, 4⟩, x / 4, y / 4, rfl, ?_, ?_⟩ <;> dsimp only <;> omega
  · refine ⟨⟨4, 0, 8, 4⟩, x / 4, y / 8, rfl, ?_, ?_⟩ <;> dsimp only <;> omega
  · refine ⟨⟨0, 4, 8, 8⟩, x / 8, y / 8, rfl, ?_, ?_⟩ <;> dsimp only <;> omega
  · refine ⟨⟨0, 0, 8, 8⟩, x / 8, y / 8, rfl, ?_, ?_⟩ <;> dsimp only <;> omega

/-- A pixel lies in one pass, at one column and row of it (R220). -/
theorem lattice_point_unique (h : adam7Passes[k]? = some p) (h' : adam7Passes[k']? = some p')
    (hx : p.startCol + i * p.colStep = p'.startCol + i' * p'.colStep)
    (hy : p.startRow + j * p.rowStep = p'.startRow + j' * p'.rowStep) : k' = k ∧ i' = i ∧ j' = j := by
  obtain rfl : k' = k := by rw [← passNumber_of_lattice h i j, hx, hy, passNumber_of_lattice h']
  obtain rfl : p = p' := Option.some.inj (h.symm.trans h')
  obtain ⟨hcol, hrow⟩ := adam7Passes_steps (List.mem_of_getElem? h)
  exact ⟨rfl, Nat.eq_of_mul_eq_mul_right hcol (by omega), Nat.eq_of_mul_eq_mul_right hrow (by omega)⟩

theorem lt_passW (h : p ∈ adam7Passes) (w i : Nat) : i < passW w p ↔ p.startCol + i * p.colStep < w :=
  lt_latticeCount w _ _ i (adam7Passes_steps h).1

theorem lt_passH (h : p ∈ adam7Passes) (n j : Nat) : j < passH n p ↔ p.startRow + j * p.rowStep < n :=
  lt_latticeCount n _ _ j (adam7Passes_steps h).2

end Sys2Proof.Machine

namespace Sys2Proof.Proofs
open Sys2Proof Sys2Proof.Machine Sys2Proof.Claim

/-- Settles O46: the residues of a pixel's column and row modulo 8 tell its pass. -/
theorem adamPartition : Obligations.AdamPartition := by
  refine ⟨fun w h p hp => ⟨rfl, rfl, lt_passW hp w, lt_passH hp h⟩, fun x y => ?_⟩
  obtain ⟨p, i, j, hp, rfl, rfl⟩ := exists_lattice_point x y
  exact ⟨_, p, i, j, hp, rfl, rfl, fun k' p' i' j' hp' hx hy => lattice_point_unique hp hp' hx hy⟩

end Sys2Proof.Proofs
end

section
/-! The raster bit by bit (R68, R216, R217). A row packs pixels of `bits` bits most significant first, so both forms of a pixel
copy, whole bytes and a field of a byte, are one thing: `bits` consecutive bits. -/

namespace Sys2Proof.Machine
open Sys2Proof.Claim

variable {bits rb i x y g a n base : Nat} {raw row : List Byte}

/-- Bit `g` of a run of bytes, counted from the most significant bit of byte 0 (R68). -/
def msbBit (bytes : Nat → Byte) (g : Nat) : Bool := (bytes (g / 8)).toNat.testBit (7 - g % 8)

/-- Bit `g` of a list of bytes; 0 beyond its end. -/
def listBit (bs : List Byte) (g : Nat) : Bool := msbBit (fun a => bs.getD a 0#8) g

/-- The first bit of pixel `x` of row `y`, in rows of `rb` bytes. -/
def pixelBit (bits rb x y : Nat) : Nat := 8 * (y * rb) + x * bits

/-- Pixels of `bits` bits fill whole bytes, or whole numbers of them fill a byte (R105, R108). -/
structure PacksBytes (bits : Nat) : Prop where
  pos : 0 < bits
  dvd : bits ∣ 8 ∨ 8 ∣ bits

theorem PacksBytes.of_legalPair {s : State} (h : legalPair s = true) : PacksBytes (pixelBits s) := by
  simp only [legalPair, List.contains_eq_mem, decide_eq_true_eq, List.mem_cons, Prod.mk.injEq, List.not_mem_nil, or_false] at h
  unfold pixelBits
  rcases h with h | h | h | h | h | h | h | h | h | h | h | h | h | h | h <;> rw [h.1, h.2] <;>
    exact ⟨by decide, by decide⟩

/-- A pixel narrower than a byte lies inside one. -/
theorem PacksBytes.field_fits (h : PacksBytes bits) (hlt : bits < 8) (x : Nat) : x * bits % 8 + bits ≤ 8 := by
  obtain ⟨m, hm⟩ := h.dvd.resolve_right fun hdvd => not_lt.2 (Nat.le_of_dvd h.pos hdvd) hlt
  have hmpos : 0 < m := Nat.pos_of_ne_zero fun h0 => by simp [h0] at hm
  rw [hm, Nat.mul_comm x, Nat.mul_mod_mul_left, ← Nat.mul_succ]
  exact Nat.mul_le_mul_left bits (Nat.mod_lt x hmpos)

theorem PacksBytes.bytes_of_wide (h : PacksBytes bits) (hwide : 8 ≤ bits) : bits = 8 * (bits / 8) := by
  rcases h.dvd with hdvd | hdvd
  · have := Nat.le_of_dvd (by decide) hdvd
    omega
  · exact (Nat.mul_div_cancel' hdvd).symm

theorem msbBit_byte (bytes : Nat → Byte) (a : Nat) {c : Nat} (hc : c < 8) :
    msbBit bytes (8 * a + c) = (bytes a).toNat.testBit (7 - c) := by
  unfold msbBit
  rw [Nat.mul_add_div (by decide), Nat.mul_add_mod, Nat.div_eq_of_lt hc, Nat.mod_eq_of_lt hc, Nat.add_zero]

/-- A bit of a field is a bit of its byte. -/
theorem testBit_fieldAt (b : Byte) {o m : Nat} (hm : m < bits) :
    (fieldAt b bits o).testBit m = b.toNat.testBit (8 - bits - o + m) := by
  unfold fieldAt
  rw [Nat.testBit_mod_two_pow, Nat.testBit_div_two_pow, decide_eq_true hm, Bool.true_and, Nat.add_comm]

theorem fieldAt_lt (b : Byte) (bits o : Nat) : fieldAt b bits o < 2 ^ bits := Nat.mod_lt _ (Nat.two_pow_pos bits)

/-- Fields with equal bits are equal. -/
theorem fieldAt_eq_of_bits {f f' : Nat → Byte} {a a' o o' : Nat} (ho : o + bits ≤ 8) (ho' : o' + bits ≤ 8)
    (h : ∀ c, c < bits → msbBit f (8 * a + (o + c)) = msbBit f' (8 * a' + (o' + c))) :
    fieldAt (f a) bits o = fieldAt (f' a') bits o' := by
  refine Nat.eq_of_testBit_eq fun m => ?_
  by_cases hm : m < bits
  · have hbit := h (bits - 1 - m) (by omega)
    have hcount (q : Nat) (hq : q + bits ≤ 8) : 7 - (q + (bits - 1 - m)) = 8 - bits - q + m := by omega
    rw [msbBit_byte _ _ (by omega), msbBit_byte _ _ (by omega), hcount o ho, hcount o' ho'] at hbit
    rwa [testBit_fieldAt _ hm, testBit_fieldAt _ hm]
  · have hpow : 2 ^ bits ≤ 2 ^ m := Nat.pow_le_pow_right (by decide) (not_lt.1 hm)
    rw [Nat.testBit_lt_two_pow ((fieldAt_lt _ _ _).trans_le hpow), Nat.testBit_lt_two_pow ((fieldAt_lt _ _ _).trans_le hpow)]

/-- A byte is its field of eight bits. -/
theorem fieldAt_whole (b : Byte) : fieldAt b 8 0 = b.toNat := (congrArg (· % 256) (Nat.div_one _)).trans (Nat.mod_eq_of_lt b.isLt)

/-- A byte after one of its fields is replaced: the field's bits from `v`, the other bits kept (R217). -/
theorem testBit_putField (old : Byte) {sh v m : Nat} (hv : v < 2 ^ bits) (hm : m < 8) :
    (putField old sh bits v).toNat.testBit m =
      if sh ≤ m ∧ m < sh + bits then v.testBit (m - sh) else old.toNat.testBit m := by
  have hlow : old.toNat % 2 ^ sh < 2 ^ sh := Nat.mod_lt _ (Nat.two_pow_pos sh)
  have hmid : 2 ^ sh * v + old.toNat % 2 ^ sh < 2 ^ (sh + bits) := by
    rw [Nat.pow_add]
    calc 2 ^ sh * v + old.toNat % 2 ^ sh < 2 ^ sh * (v + 1) := by rw [Nat.mul_succ]; omega
      _ ≤ 2 ^ sh * 2 ^ bits := Nat.mul_le_mul_left _ hv
  unfold putField
  rw [BitVec.toNat_ofNat, Nat.testBit_mod_two_pow, decide_eq_true hm, Bool.true_and, Nat.add_assoc, Nat.mul_comm,
    Nat.mul_comm v, Nat.testBit_two_pow_mul_add _ hmid, Nat.testBit_two_pow_mul_add _ hlow, Nat.testBit_div_two_pow,
    Nat.testBit_mod_two_pow]
  by_cases h1 : m < sh
  · have h2 : m < sh + bits := by omega
    simp [h1, h2, not_le.2 h1]
  · by_cases h2 : m < sh + bits
    · simp [h1, h2, not_lt.1 h1]
    · simp [h2, Nat.sub_add_cancel (not_lt.1 h2)]

/-! Whole bytes (R216). -/

/-- Set the `n` bytes from `base` on. -/
def setBytes (src : Nat → Byte) (base n : Nat) (raw : List Byte) : List Byte :=
  (List.range n).foldl (fun r k => r.set (base + k) (src k)) raw

theorem setBytes_succ (src : Nat → Byte) (base n : Nat) (raw : List Byte) :
    setBytes src base (n + 1) raw = (setBytes src base n raw).set (base + n) (src n) := by
  unfold setBytes
  rw [List.range_succ, List.foldl_append]
  rfl

theorem setBytes_length (src : Nat → Byte) (base n : Nat) (raw : List Byte) :
    (setBytes src base n raw).length = raw.length := by
  induction n with
  | zero => rfl
  | succ n ih => rw [setBytes_succ, List.length_set, ih]

theorem getD_set (bs : List Byte) {b : Byte} (h : base < bs.length) (a : Nat) :
    (bs.set base b).getD a 0#8 = if base = a then b else bs.getD a 0#8 := by
  simp only [List.getD_eq_getElem?_getD, List.getElem?_set, h, if_true]
  split_ifs <;> rfl

theorem getD_setBytes (src : Nat → Byte) (h : base + n ≤ raw.length) (a : Nat) :
    (setBytes src base n raw).getD a 0#8 = if base ≤ a ∧ a < base + n then src (a - base) else raw.getD a 0#8 := by
  induction n with
  | zero => rw [if_neg (by omega)]; rfl
  | succ n ih =>
    rw [setBytes_succ, getD_set _ (by rw [setBytes_length]; omega), ih (by omega)]
    by_cases ha : base + n = a
    · subst ha
      rw [if_pos rfl, if_pos (by omega), Nat.add_sub_cancel_left]
    · rw [if_neg ha]
      exact if_congr (by omega) rfl rfl

theorem putPixel_wide (hwide : 8 ≤ bits) : putPixel bits rb row i x y raw =
    setBytes (fun k => row.getD (i * (bits / 8) + k) 0#8) (y * rb + x * (bits / 8)) (bits / 8) raw := if_pos hwide

theorem putPixel_narrow (hlt : bits < 8) : putPixel bits rb row i x y raw =
    raw.set (y * rb + x * bits / 8) (putField (raw.getD (y * rb + x * bits / 8) 0#8) (8 - bits - x * bits % 8) bits
      (fieldAt (row.getD (i * bits / 8) 0#8) bits (i * bits % 8))) := if_neg (not_le.2 hlt)

/-- A pixel copy, bit by bit: the pixel's bits from the pass row, every other bit kept (R216, R217). -/
theorem listBit_putPixel (hpack : PacksBytes bits) (hfits : pixelBit bits rb x y + bits ≤ 8 * raw.length) (g : Nat) :
    listBit (putPixel bits rb row i x y raw) g =
      if pixelBit bits rb x y ≤ g ∧ g < pixelBit bits rb x y + bits then listBit row (i * bits + (g - pixelBit bits rb x y))
      else listBit raw g := by
  obtain ⟨a, c, hc, rfl⟩ : ∃ a c, c < 8 ∧ g = 8 * a + c := ⟨g / 8, g % 8, Nat.mod_lt _ (by decide), by omega⟩
  unfold listBit
  rw [msbBit_byte _ _ hc, msbBit_byte _ _ hc]
  unfold pixelBit at hfits ⊢
  by_cases hwide : 8 ≤ bits
  · obtain ⟨n, hn⟩ : ∃ n, bits = 8 * n := ⟨_, hpack.bytes_of_wide hwide⟩
    have hdiv : bits / 8 = n := by omega
    have hstart (z : Nat) : z * bits = 8 * (z * n) := by rw [hn]; ring
    rw [hstart] at hfits ⊢
    rw [putPixel_wide hwide, hdiv, getD_setBytes _ (by omega), hstart]
    by_cases hin : y * rb + x * n ≤ a ∧ a < y * rb + x * n + n
    · rw [if_pos hin, if_pos (by omega)]
      have hsrc : 8 * (i * n) + (8 * a + c - (8 * (y * rb) + 8 * (x * n))) = 8 * (i * n + (a - (y * rb + x * n))) + c := by
        omega
      rw [hsrc, msbBit_byte _ _ hc]
    · rw [if_neg hin, if_neg (by omega)]
  · have hlt : bits < 8 := not_le.1 hwide
    have hdst := hpack.field_fits hlt x
    have hsrc := hpack.field_fits hlt i
    have hpos := hpack.pos
    rw [putPixel_narrow hlt, getD_set _ (by omega)]
    by_cases ha : y * rb + x * bits / 8 = a
    · rw [if_pos ha, ha, testBit_putField _ (fieldAt_lt _ _ _) (by omega)]
      by_cases hin : x * bits % 8 ≤ c ∧ c < x * bits % 8 + bits
      · have hbit : i * bits + (8 * a + c - (8 * (y * rb) + x * bits)) =
            8 * (i * bits / 8) + (i * bits % 8 + (c - x * bits % 8)) := by omega
        rw [if_pos (by omega), if_pos (by omega), testBit_fieldAt _ (by omega), hbit, msbBit_byte _ _ (by omega)]
        congr 1
        omega
      · rw [if_neg (by omega), if_neg (by omega)]
    · rw [if_neg ha, if_neg (by omega)]

/-! Pixels apart, and the padding. -/

/-- A bit of a pixel tells the pixel. -/
theorem pixel_of_bit (hpos : 0 < bits) {w : Nat} (hw : w * bits ≤ 8 * rb) (hx : x < w) (hlow : pixelBit bits rb x y ≤ g)
    (hhigh : g < pixelBit bits rb x y + bits) : g / (8 * rb) = y ∧ g % (8 * rb) / bits = x := by
  have hrow : x * bits + bits ≤ w * bits := by rw [← Nat.succ_mul]; exact Nat.mul_le_mul_right bits hx
  unfold pixelBit at hlow hhigh
  obtain ⟨b, rfl⟩ := Nat.exists_eq_add_of_le hlow
  have hg : 8 * (y * rb) + x * bits + b = 8 * rb * y + (x * bits + b) := by ring
  rw [hg, Nat.mul_add_div (by omega), Nat.mul_add_mod, Nat.div_eq_of_lt (by omega), Nat.mod_eq_of_lt (by omega),
    Nat.mul_comm x, Nat.mul_add_div hpos, Nat.div_eq_of_lt (by omega)]
  exact ⟨rfl, rfl⟩

/-- A pixel of the raster lies inside it. -/
theorem pixelBit_fits {w h : Nat} (hw : w * bits ≤ 8 * rb) (hx : x < w) (hy : y < h) :
    pixelBit bits rb x y + bits ≤ 8 * (h * rb) := by
  have hrow : x * bits + bits ≤ w * bits := by rw [← Nat.succ_mul]; exact Nat.mul_le_mul_right bits hx
  have hrows : y * rb + rb ≤ h * rb := by rw [← Nat.succ_mul]; exact Nat.mul_le_mul_right rb hy
  unfold pixelBit
  omega

theorem imageBits_le_row (s : State) : imageW s * pixelBits s ≤ 8 * imageRow s := by
  unfold imageRow rowLen
  omega

theorem row_le_imageBits (s : State) : 8 * imageRow s ≤ imageW s * pixelBits s + 7 := by
  unfold imageRow rowLen
  omega

/-- The bits of a row of `rb` bytes beyond its first `n` are the low bits of its last byte. -/
theorem padding_eq_zero {f : Nat → Byte} (hn : 8 * rb ≤ n + 7)
    (h : ∀ q, n ≤ q → q < 8 * rb → msbBit f (8 * (y * rb) + q) = false) :
    (f (y * rb + rb - 1)).toNat % 2 ^ (8 * rb - n) = 0 := by
  refine Nat.eq_of_testBit_eq fun m => ?_
  rw [Nat.testBit_mod_two_pow, Nat.zero_testBit]
  by_cases hm : m < 8 * rb - n
  · have hbit := h (8 * rb - 1 - m) (by omega) (by omega)
    have hlast : 8 * (y * rb) + (8 * rb - 1 - m) = 8 * (y * rb + rb - 1) + (7 - m) := by omega
    have hcount : 7 - (7 - m) = m := by omega
    rw [hlast, msbBit_byte _ _ (by omega), hcount] at hbit
    rw [hbit, Bool.and_false]
  · rw [decide_eq_false hm, Bool.false_and]

/-- A pixel whose bits are copied is copied, in either form (R216, R217). -/
theorem pixelCopied_of_bits {s t : State} {row : Nat → Byte} (hpack : PacksBytes (pixelBits s))
    (hbits : ∀ b, b < pixelBits s →
      msbBit (t.byte .raw) (pixelBit (pixelBits s) (imageRow s) x y + b) = msbBit row (i * pixelBits s + b)) :
    pixelCopied s t row i x y := by
  unfold pixelCopied
  unfold pixelBit at hbits
  generalize pixelBits s = bits at *
  dsimp only
  split_ifs with hwide
  · intro k hk
    obtain ⟨n, hn⟩ : ∃ n, bits = 8 * n := ⟨_, hpack.bytes_of_wide hwide⟩
    have hdiv : bits / 8 = n := by omega
    have hstart (z : Nat) : z * bits = 8 * (z * n) := by rw [hn]; ring
    rw [hstart, hstart] at hbits
    rw [hdiv] at hk ⊢
    rw [← BitVec.toNat_inj, ← fieldAt_whole, ← fieldAt_whole (row _)]
    refine fieldAt_eq_of_bits (by decide) (by decide) fun c hc => ?_
    have hdst : 8 * (y * imageRow s + x * n + k) + (0 + c) = 8 * (y * imageRow s) + 8 * (x * n) + (8 * k + c) := by omega
    have hsrc : 8 * (i * n + k) + (0 + c) = 8 * (i * n) + (8 * k + c) := by omega
    rw [hdst, hsrc]
    exact hbits (8 * k + c) (by omega)
  · have hlt : bits < 8 := not_le.1 hwide
    refine fieldAt_eq_of_bits (hpack.field_fits hlt x) (hpack.field_fits hlt i) fun c hc => ?_
    have hdst : 8 * (y * imageRow s + x * bits / 8) + (x * bits % 8 + c) = 8 * (y * imageRow s) + x * bits + c := by omega
    have hsrc : 8 * (i * bits / 8) + (i * bits % 8 + c) = i * bits + c := by omega
    rw [hdst, hsrc]
    exact hbits c hc

end Sys2Proof.Machine
end

section
/-! ADAM7.RUN as a run of pixel copies (R210 to R218). Each pass is reconstructed on its own; the copies of all passes have
different targets, so each one's bits are in the raster at the end, and the bits no copy has for target are still 0. -/

namespace Sys2Proof.Machine
open Sys2Proof.Claim

variable {s : State} {bits rb g off : Nat} {raw : List Byte} {ps : List Pass} {p : Pass}

/-- One pixel copy: pixel `i` of a pass row, and its place in the image. -/
structure PixelCopy where
  row : List Byte
  i : Nat
  x : Nat
  y : Nat

namespace PixelCopy

/-- Carry the copy out on a raster with rows of `rb` bytes. -/
def put (bits rb : Nat) (raw : List Byte) (e : PixelCopy) : List Byte := putPixel bits rb e.row e.i e.x e.y raw

/-- Bit `g` of the raster is a bit of the copy's target. -/
abbrev Covers (bits rb : Nat) (e : PixelCopy) (g : Nat) : Prop :=
  pixelBit bits rb e.x e.y ≤ g ∧ g < pixelBit bits rb e.x e.y + bits

variable {e : PixelCopy} {es : List PixelCopy}

theorem length_foldl_put (es : List PixelCopy) (raw : List Byte) : (es.foldl (put bits rb) raw).length = raw.length := by
  induction es generalizing raw with
  | nil => rfl
  | cons e es ih => rw [List.foldl_cons, ih, put, putPixel_length]

variable (hpack : PacksBytes bits)
include hpack

theorem listBit_foldl_put_append (hfits : pixelBit bits rb e.x e.y + bits ≤ 8 * raw.length) (g : Nat) :
    listBit ((es ++ [e]).foldl (put bits rb) raw) g =
      if e.Covers bits rb g then listBit e.row (e.i * bits + (g - pixelBit bits rb e.x e.y))
      else listBit (es.foldl (put bits rb) raw) g := by
  rw [List.foldl_append]
  exact listBit_putPixel hpack (by rwa [length_foldl_put]) g

/-- A bit of no copy's target is as it was (R217, R218). -/
theorem listBit_foldl_put_of_not_covered (hfits : ∀ e ∈ es, pixelBit bits rb e.x e.y + bits ≤ 8 * raw.length)
    (hout : ∀ e ∈ es, ¬ e.Covers bits rb g) : listBit (es.foldl (put bits rb) raw) g = listBit raw g := by
  induction es using List.reverseRecOn with
  | nil => rfl
  | append_singleton es e ih =>
    simp only [List.forall_mem_append, List.forall_mem_singleton] at hfits hout
    rw [listBit_foldl_put_append hpack hfits.2, if_neg hout.2]
    exact ih hfits.1 hout.1

/-- A bit that is in one copy's target only is that copy's bit. -/
theorem listBit_foldl_put_of_covered (hfits : ∀ e ∈ es, pixelBit bits rb e.x e.y + bits ≤ 8 * raw.length) (he : e ∈ es)
    (hin : e.Covers bits rb g) (hone : ∀ e' ∈ es, e'.Covers bits rb g → e' = e) :
    listBit (es.foldl (put bits rb) raw) g = listBit e.row (e.i * bits + (g - pixelBit bits rb e.x e.y)) := by
  induction es using List.reverseRecOn with
  | nil => cases he
  | append_singleton es e' ih =>
    simp only [List.forall_mem_append, List.forall_mem_singleton] at hfits hone
    rw [listBit_foldl_put_append hpack hfits.2]
    by_cases hlast : e'.Covers bits rb g
    · rw [if_pos hlast, hone.2 hlast]
    · rw [if_neg hlast]
      refine ih hfits.1 ((List.mem_append.1 he).resolve_right fun hmem => hlast ?_) hone.1
      rwa [← List.mem_singleton.1 hmem]

end PixelCopy

/-! The copies of a pass and of the image. -/

/-- The copies of the pass rows `rows`, the first of them row `j` of the pass. -/
def rowCopies (pw : Nat) (p : Pass) (j : Nat) (rows : List (List Byte)) : List PixelCopy :=
  (rows.zipIdx j).flatMap fun r => (List.range pw).map fun i =>
    { row := r.1, i := i, x := p.startCol + i * p.colStep, y := p.startRow + r.2 * p.rowStep }

theorem scatterRows_eq_foldl (bits rb pw : Nat) (p : Pass) (j : Nat) (rows : List (List Byte)) (raw : List Byte) :
    scatterRows bits rb pw p j rows raw = (rowCopies pw p j rows).foldl (PixelCopy.put bits rb) raw := by
  induction rows generalizing j raw with
  | nil => rfl
  | cons row rows ih =>
    rw [scatterRows, ih]
    unfold rowCopies
    rw [List.zipIdx_cons, List.flatMap_cons, List.foldl_append, List.foldl_map]
    rfl

/-- The reconstruction of a pass from index `off` of `FILT` on (R214). -/
def passRecon (s : State) (off : Nat) (p : Pass) : Except Nat (List (List Byte)) :=
  recon s (rowBytes (imageBits s) (passW (imgW s) p)) (imageDistance s) (passH (imgH s) p) off
    (zeroRow (rowBytes (imageBits s) (passW (imgW s) p)))

/-- The rows it gives; none if a tag is reserved. -/
def passRawRows (s : State) (off : Nat) (p : Pass) : List (List Byte) := (passRecon s off p).toOption.getD []

/-- Every tag of a pass whose data begin at index `off` is legal. -/
def passTagsLegal (s : State) (off : Nat) (p : Pass) : Prop :=
  ∀ j, passHasRow s p j → (s.byte .filt (off + j * (1 + rowLen (pixelBits s) (passW (imageW s) p)))).toNat ≤ 4

/-- With legal tags a pass that has pixels is reconstructed. -/
theorem passRecon_eq_ok (htags : passTagsLegal s off p) (hwidth : 0 < passW (imageW s) p) :
    passRecon s off p = .ok (passRawRows s off p) := by
  unfold passTagsLegal at htags
  rw [← passRowBytes_eq] at htags
  obtain ⟨rows, hrows⟩ : ∃ rows, passRecon s off p = .ok rows :=
    recon_ok _ _ _ _ _ _ fun j hj => (predictor_isSome_iff _).2 (htags j ⟨hwidth, hj⟩)
  rw [passRawRows, hrows]
  rfl

/-- Reconstructed rows are the reconstruction of `FILT`, byte by byte (R191, R202). -/
theorem reconstructs_of_recon {h rb : Nat} {rows : List (List Byte)}
    (hrec : recon s rb (imageDistance s) h off (zeroRow rb) = .ok rows) :
    reconstructs s off h rb fun y x => (rows.getD y []).getD x 0#8 := by
  intro y x hy hx
  obtain ⟨-, -, hrows⟩ := recon_rows s rb (imageDistance s) h off (zeroRow rb) rows hrec
  obtain ⟨pred, htag, hrow⟩ := hrows y hy
  have hbyte := reconRow_getD pred (imageDistance s) (one_le_filterDistance _)
    (if y = 0 then zeroRow rb else rows.getD (y - 1) []) (s.bytes .filt (off + y * (1 + rb) + 1) rb) x
    (by rwa [State.bytes_length])
  rw [← hrow, State.bytes_getD _ _ _ _ _ hx] at hbyte
  refine ⟨_, predicted_eq_of_predictor htag _ _ _, ?_⟩
  rw [leftDistance_eq]
  refine hbyte.trans ?_
  by_cases hfirst : y = 0
  · simp only [hfirst, if_true, true_or, zeroRow_getD, ite_self]
  · by_cases hleft : imageDistance s ≤ x
    · simp only [hfirst, hleft, not_lt.2 hleft, if_true, if_false, or_false]
    · simp only [hfirst, hleft, not_le.1 hleft, if_true, if_false, or_true]

/-- The copies of a pass whose data begin at index `off`. -/
def passCopies (s : State) (off : Nat) (p : Pass) : List PixelCopy := rowCopies (passW (imageW s) p) p 0 (passRawRows s off p)

/-- Pixel `i` of row `j` of a pass and its place (R215). -/
def passCopy (s : State) (off : Nat) (p : Pass) (i j : Nat) : PixelCopy :=
  { row := (passRawRows s off p).getD j [], i := i, x := p.startCol + i * p.colStep, y := p.startRow + j * p.rowStep }

theorem passCopies_of_no_width (h : passW (imageW s) p = 0) : passCopies s off p = [] := by
  unfold passCopies rowCopies
  rw [h]
  simp

theorem passRawRows_length (htags : passTagsLegal s off p) (hwidth : 0 < passW (imageW s) p) :
    (passRawRows s off p).length = passH (imageH s) p :=
  (recon_rows _ _ _ _ _ _ _ (passRecon_eq_ok htags hwidth)).1

/-- A pass has one copy for each of its pixels. -/
theorem mem_passCopies (htags : passTagsLegal s off p) {e : PixelCopy} : e ∈ passCopies s off p ↔
    ∃ i j, i < passW (imageW s) p ∧ j < passH (imageH s) p ∧ e = passCopy s off p i j := by
  rcases Nat.eq_zero_or_pos (passW (imageW s) p) with hzero | hwidth
  · simp [passCopies_of_no_width hzero, hzero]
  · simp only [passCopies, rowCopies, List.mem_flatMap, List.mem_map, List.mem_range, Prod.exists,
      List.mk_mem_zipIdx_iff_getElem?, passCopy]
    constructor
    · rintro ⟨row, j, hrow, i, hi, rfl⟩
      obtain ⟨hj, rfl⟩ := List.getElem?_eq_some_iff.1 hrow
      exact ⟨i, j, hi, passRawRows_length htags hwidth ▸ hj, by rw [List.getD_eq_getElem _ _ hj]⟩
    · rintro ⟨i, j, hi, hj, rfl⟩
      rw [← passRawRows_length htags hwidth] at hj
      exact ⟨_, j, List.getElem?_eq_getElem hj, i, hi, by rw [List.getD_eq_getElem _ _ hj]⟩

theorem passCopies_of_empty (htags : passTagsLegal s off p) (h : passW (imageW s) p = 0 ∨ passH (imageH s) p = 0) :
    passCopies s off p = [] := by
  refine List.eq_nil_iff_forall_not_mem.2 fun e he => ?_
  obtain ⟨i, j, hi, hj, -⟩ := (mem_passCopies htags).1 he
  omega

/-- A pass with legal tags is carried out by its copies, and its data are passed over (R212 to R215). -/
theorem adam7Go_cons (htags : passTagsLegal s off p) (ps : List Pass) (raw : List Byte) :
    adam7Go s (p :: ps) off raw = adam7Go s ps (off + passBytes s p)
      ((passCopies s off p).foldl (PixelCopy.put (pixelBits s) (imageRow s)) raw) := by
  by_cases hempty : passW (imageW s) p = 0 ∨ passH (imageH s) p = 0
  · have hbytes : passBytes s p = 0 := if_pos hempty
    rw [hbytes, passCopies_of_empty htags hempty]
    exact if_pos hempty
  · have hbytes : passBytes s p = passH (imageH s) p * (1 + rowLen (pixelBits s) (passW (imageW s) p)) := if_neg hempty
    have hrows := passRecon_eq_ok htags (Nat.pos_of_ne_zero fun h => hempty (.inl h))
    rw [hbytes, passCopies, ← scatterRows_eq_foldl, ← imageRowBytes_eq, ← passRowBytes_eq, ← imageBits_eq]
    refine (if_neg hempty).trans ?_
    unfold passRecon at hrows
    rw [hrows]
    rfl

/-- The copies of the passes `ps`, whose data begin at index `off`. -/
def copiesFrom (s : State) : Nat → List Pass → List PixelCopy
  | _, [] => []
  | off, p :: ps => passCopies s off p ++ copiesFrom s (off + passBytes s p) ps

theorem mem_copiesFrom {e : PixelCopy} : e ∈ copiesFrom s off ps ↔
    ∃ k p, ps[k]? = some p ∧ e ∈ passCopies s (off + ((ps.take k).map (passBytes s)).sum) p := by
  induction ps generalizing off with
  | nil => simp [copiesFrom]
  | cons q ps ih =>
    rw [copiesFrom, List.mem_append, ih]
    constructor
    · rintro (he | ⟨k, p, hp, he⟩)
      · exact ⟨0, q, rfl, he⟩
      · exact ⟨k + 1, p, hp, by rwa [List.take_succ_cons, List.map_cons, List.sum_cons, ← Nat.add_assoc]⟩
    · rintro ⟨k, p, hp, he⟩
      cases k with
      | zero =>
        obtain rfl : q = p := Option.some.inj hp
        exact .inl he
      | succ k =>
        rw [List.take_succ_cons, List.map_cons, List.sum_cons, ← Nat.add_assoc] at he
        exact .inr ⟨k, p, hp, he⟩

/-- With every tag legal the passes are carried out by their copies, in order (R210). -/
theorem adam7Go_of_legal (htags : ∀ k p j, ps[k]? = some p → passHasRow s p j →
      (s.byte .filt (passTagFrom s off ps k p j)).toNat ≤ 4) (raw : List Byte) :
    adam7Go s ps off raw = .ok ((copiesFrom s off ps).foldl (PixelCopy.put (pixelBits s) (imageRow s)) raw) := by
  induction ps generalizing off raw with
  | nil => rfl
  | cons p ps ih =>
    have hlegal : passTagsLegal s off p := fun j hj => htags 0 p j rfl hj
    rw [adam7Go_cons hlegal, copiesFrom, List.foldl_append]
    refine ih (fun k q j hq hj => ?_) _
    rw [← passTagFrom_cons_succ]
    exact htags (k + 1) q j hq hj

/-! The raster ADAM7.RUN writes. -/

/-- Every tag of the image is legal. -/
def imageTagsLegal (s : State) : Prop :=
  ∀ k p j, adam7Passes[k]? = some p → passHasRow s p j → (s.byte .filt (passTag s k p j)).toNat ≤ 4

/-- The zero raster after the copies of all passes (R218). -/
def imageRaster (s : State) : List Byte :=
  (copiesFrom s 0 adam7Passes).foldl (PixelCopy.put (pixelBits s) (imageRow s)) (List.replicate (imageH s * imageRow s) 0#8)

theorem imageRaster_length (s : State) : (imageRaster s).length = imageH s * imageRow s := by
  rw [imageRaster, PixelCopy.length_foldl_put, List.length_replicate]

theorem adam7Run_of_legal (hneed : interlacedNeed s ≤ s.op.filtLen.toNat) (htags : imageTagsLegal s) :
    adam7Run s = { s.write .raw 0 (imageRaster s) with filtUsed := BitVec.ofNat 32 (interlacedNeed s) } := by
  unfold imageTagsLegal at htags
  simp only [← passTagFrom_adam7Passes] at htags
  rw [interlacedNeed_eq] at hneed ⊢
  unfold adam7Run
  rw [if_neg (not_lt.2 hneed), adam7Go_of_legal htags, imageRowBytes_eq]
  rfl

section
variable (htags : imageTagsLegal s) {k i j : Nat} {e : PixelCopy}
include htags

theorem imageTagsLegal.pass (hp : adam7Passes[k]? = some p) : passTagsLegal s (passOffset s k) p :=
  fun j hj => htags k p j hp hj

/-- The image has one copy for each pixel of each pass. -/
theorem mem_imageCopies : e ∈ copiesFrom s 0 adam7Passes ↔ ∃ k p i j, adam7Passes[k]? = some p ∧
    i < passW (imageW s) p ∧ j < passH (imageH s) p ∧ e = passCopy s (passOffset s k) p i j := by
  simp only [mem_copiesFrom, Nat.zero_add]
  constructor
  · rintro ⟨k, p, hp, he⟩
    obtain ⟨i, j, hij⟩ := (mem_passCopies (htags.pass hp)).1 he
    exact ⟨k, p, i, j, hp, hij⟩
  · rintro ⟨k, p, i, j, hp, hij⟩
    exact ⟨k, p, hp, (mem_passCopies (htags.pass hp)).2 ⟨i, j, hij⟩⟩

/-- The targets are pixels of the image (R211). -/
theorem imageCopy_target (he : e ∈ copiesFrom s 0 adam7Passes) : e.x < imageW s ∧ e.y < imageH s := by
  obtain ⟨k, p, i, j, hp, hi, hj, rfl⟩ := (mem_imageCopies htags).1 he
  have hmem := List.mem_of_getElem? hp
  exact ⟨(lt_passW hmem _ i).1 hi, (lt_passH hmem _ j).1 hj⟩

/-- Copies with the same target are the same (R220). -/
theorem imageCopy_eq {e' : PixelCopy} (he : e ∈ copiesFrom s 0 adam7Passes) (he' : e' ∈ copiesFrom s 0 adam7Passes)
    (hx : e.x = e'.x) (hy : e.y = e'.y) : e' = e := by
  obtain ⟨k, p, i, j, hp, -, -, rfl⟩ := (mem_imageCopies htags).1 he
  obtain ⟨k', p', i', j', hp', -, -, rfl⟩ := (mem_imageCopies htags).1 he'
  obtain ⟨rfl, rfl, rfl⟩ := lattice_point_unique hp hp' hx hy
  obtain rfl : p = p' := Option.some.inj (hp.symm.trans hp')
  rfl

variable (hpack : PacksBytes (pixelBits s))

theorem imageCopies_fit : ∀ e ∈ copiesFrom s 0 adam7Passes,
    pixelBit (pixelBits s) (imageRow s) e.x e.y + pixelBits s ≤
      8 * (List.replicate (imageH s * imageRow s) 0#8).length := by
  intro e he
  rw [List.length_replicate]
  exact pixelBit_fits (imageBits_le_row s) (imageCopy_target htags he).1 (imageCopy_target htags he).2

include hpack

/-- A covered bit tells the target. -/
theorem imageCopy_of_bit (he : e ∈ copiesFrom s 0 adam7Passes) (hin : e.Covers (pixelBits s) (imageRow s) g) :
    g / (8 * imageRow s) = e.y ∧ g % (8 * imageRow s) / pixelBits s = e.x :=
  pixel_of_bit hpack.pos (imageBits_le_row s) (imageCopy_target htags he).1 hin.1 hin.2

/-- Every pass pixel's bits stand at its place (R215 to R217). -/
theorem listBit_imageRaster_pixel (hp : adam7Passes[k]? = some p) (hi : i < passW (imageW s) p)
    (hj : j < passH (imageH s) p) {b : Nat} (hb : b < pixelBits s) :
    listBit (imageRaster s)
        (pixelBit (pixelBits s) (imageRow s) (p.startCol + i * p.colStep) (p.startRow + j * p.rowStep) + b) =
      listBit ((passRawRows s (passOffset s k) p).getD j []) (i * pixelBits s + b) := by
  have he : passCopy s (passOffset s k) p i j ∈ copiesFrom s 0 adam7Passes :=
    (mem_imageCopies htags).2 ⟨k, p, i, j, hp, hi, hj, rfl⟩
  have hin : (passCopy s (passOffset s k) p i j).Covers (pixelBits s) (imageRow s)
      (pixelBit (pixelBits s) (imageRow s) (p.startCol + i * p.colStep) (p.startRow + j * p.rowStep) + b) :=
    ⟨Nat.le_add_right _ _, Nat.add_lt_add_left hb _⟩
  refine (PixelCopy.listBit_foldl_put_of_covered hpack (imageCopies_fit htags) he hin fun e' he' hin' => ?_).trans ?_
  · obtain ⟨hy, hx⟩ := imageCopy_of_bit htags hpack he hin
    obtain ⟨hy', hx'⟩ := imageCopy_of_bit htags hpack he' hin'
    exact imageCopy_eq htags he he' (hx.symm.trans hx') (hy.symm.trans hy')
  · exact congrArg (fun d => listBit _ (i * pixelBits s + d)) (Nat.add_sub_cancel_left _ b)

/-- The bits of a row beyond its pixels are 0 (R218). -/
theorem listBit_imageRaster_padding (y : Nat) {q : Nat} (hlow : imageW s * pixelBits s ≤ q) (hhigh : q < 8 * imageRow s) :
    listBit (imageRaster s) (8 * (y * imageRow s) + q) = false := by
  refine (PixelCopy.listBit_foldl_put_of_not_covered hpack (imageCopies_fit htags) fun e he hin => ?_).trans ?_
  · have hx := (imageCopy_of_bit htags hpack he hin).2
    have hg : 8 * (y * imageRow s) + q = 8 * imageRow s * y + q := by ring
    rw [hg, Nat.mul_add_mod, Nat.mod_eq_of_lt hhigh] at hx
    have := (Nat.le_div_iff_mul_le hpack.pos).2 hlow
    have := (imageCopy_target htags he).1
    omega
  · unfold listBit msbBit
    simp only [List.getD_eq_getElem?_getD, List.getElem?_replicate]
    split <;> exact Nat.zero_testBit _

end

/-! What the command leaves in `RAW`. -/

/-- The bits of `RAW` after a write of `bs` at its start. -/
theorem msbBit_of_write {t : State} {bs : List Byte} (hraw : ∀ a, t.byte .raw a = (s.write .raw 0 bs).byte .raw a)
    (hg : g < 8 * bs.length) : msbBit (t.byte .raw) g = listBit bs g := by
  have ha : g / 8 < bs.length := by omega
  unfold listBit msbBit
  dsimp only
  rw [hraw, List.getD_eq_getElem _ _ ha, ← State.byte_write_inside s .raw 0 bs _ ha, Nat.zero_add]

/-- Byte `x` of row `j` of the reconstruction of pass number `k + 1`. -/
def imagePassRow (s : State) (k j x : Nat) : Byte :=
  ((adam7Passes[k]?.elim [] (passRawRows s (passOffset s k))).getD j []).getD x 0#8

theorem imagePassRow_of_pass {k : Nat} (hp : adam7Passes[k]? = some p) (s : State) :
    imagePassRow s k = fun j x => ((passRawRows s (passOffset s k) p).getD j []).getD x 0#8 := by
  unfold imagePassRow
  rw [hp]
  rfl

/-- Each pass is reconstructed on its own (R214). -/
theorem imagePassRow_reconstructs (htags : imageTagsLegal s) {k : Nat} (hp : adam7Passes[k]? = some p)
    (hwidth : 0 < passW (imageW s) p) :
    reconstructs s (passOffset s k) (passH (imageH s) p) (rowLen (pixelBits s) (passW (imageW s) p)) (imagePassRow s k) := by
  rw [imagePassRow_of_pass hp, ← passRowBytes_eq]
  exact reconstructs_of_recon (passRecon_eq_ok (htags.pass hp) hwidth)

section
variable {t : State} (htags : imageTagsLegal s) (hpack : PacksBytes (pixelBits s))
  (hraw : ∀ a, t.byte .raw a = (s.write .raw 0 (imageRaster s)).byte .raw a)
include htags hpack hraw

/-- Every pass pixel is at its place in `RAW` (R215 to R217). -/
theorem pixelCopied_of_imageRaster {k i j : Nat} (hp : adam7Passes[k]? = some p) (hi : i < passW (imageW s) p)
    (hj : j < passH (imageH s) p) :
    pixelCopied s t (imagePassRow s k j) i (p.startCol + i * p.colStep) (p.startRow + j * p.rowStep) := by
  have hmem := List.mem_of_getElem? hp
  have hfits := pixelBit_fits (imageBits_le_row s) ((lt_passW hmem _ i).1 hi) ((lt_passH hmem _ j).1 hj)
  refine pixelCopied_of_bits hpack fun b hb => ?_
  rw [msbBit_of_write hraw (by rw [imageRaster_length]; omega), imagePassRow_of_pass hp]
  exact listBit_imageRaster_pixel htags hpack hp hi hj hb

/-- The padding bits of each row of `RAW` are 0 (R218). -/
theorem padding_of_imageRaster {y : Nat} (hy : y < imageH s) :
    (t.byte .raw (y * imageRow s + imageRow s - 1)).toNat % 2 ^ (8 * imageRow s - imageW s * pixelBits s) = 0 := by
  have hrows : y * imageRow s + imageRow s ≤ imageH s * imageRow s := by
    rw [← Nat.succ_mul]; exact Nat.mul_le_mul_right _ hy
  refine padding_eq_zero (row_le_imageBits s) fun q hlow hhigh => ?_
  rw [msbBit_of_write hraw (by rw [imageRaster_length]; omega)]
  exact listBit_imageRaster_padding htags hpack y hlow hhigh

end

end Sys2Proof.Machine

namespace Sys2Proof.Proofs
open Sys2Proof Sys2Proof.Machine Sys2Proof.Claim

/-- Settles O47: the command is a run of pixel copies with different targets on the zero raster. -/
theorem adamScatters : Obligations.AdamScatters := by
  intro s hp hneed htags
  have hpack : PacksBytes (pixelBits s) := .of_legalPair (hp (legalPair s, 14) (by simp [r326]))
  have hexec := exec_adam7Run hp
  have hframe : sameOutside s (adam7Run (cleared s)).complete (fun sp a => sp = .raw ∧ a < imageH s * imageRow s) :=
    fun sp a hout => (State.complete_byte _ _ _).trans (adam7Run_byte_outside (s := cleared s) hout)
  obtain ⟨t, hend, hraw, ht, hused⟩ : ∃ t, (adam7Run (cleared s)).complete = t ∧
      (∀ a, t.byte .raw a = ((cleared s).write .raw 0 (imageRaster (cleared s))).byte .raw a) ∧
      t = { ended s with mem := t.mem, filtUsed := t.filtUsed } ∧ t.filtUsed = BitVec.ofNat 32 (interlacedNeed s) := by
    rw [adam7Run_of_legal (s := cleared s) hneed htags]
    exact ⟨_, rfl, fun a => State.complete_byte _ _ a, rfl, rfl⟩
  rw [hend] at hexec hframe
  refine ⟨t, imagePassRow (cleared s), hexec, ht, ?_, fun k p hpass => ⟨fun hwidth => ?_, fun i j hi hj => ?_⟩,
    fun y hy => ?_, hframe⟩
  · rw [hused]
    exact (BitVec.toNat_ofNat _ _).trans (Nat.mod_eq_of_lt (hneed.trans_lt s.op.filtLen.isLt))
  · exact imagePassRow_reconstructs (s := cleared s) htags hpass hwidth
  · exact pixelCopied_of_imageRaster (s := cleared s) htags hpack hraw hpass hi hj
  · exact padding_of_imageRaster (s := cleared s) htags hpack hraw hy

end Sys2Proof.Proofs
end

section
/-! The bit unpacker in the terms of the statements (R230 to R249): its samples, an expanded image as `PIX` holds it, and what
UNPACK.IDX and UNPACK.RGBA do on operands they accept. -/

namespace Sys2Proof.Machine
open Sys2Proof.Claim

variable {s : State} {pixel : State → Nat → Nat → Option (List Byte)} {x y : Nat}

/-! Samples (R110, R230, R238 to R245). -/

theorem sample_eq_rawSample (ct : ColorType) (s : State) (x y k : Nat) :
    sample ct s x y k = rawSample s (channels ct) x y k := rfl

/-- A sample of at most eight bits fits a byte. -/
theorem rawSample_lt_of_depth_le (h : s.op.depth.toNat ≤ 8) (ch x y k : Nat) : rawSample s ch x y k < 2 ^ 8 := by
  simp only [rawSample]
  split_ifs with h8 h16
  · exact BitVec.isLt _
  · omega
  · exact (fieldAt_lt _ _ _).trans_le (Nat.pow_le_pow_right (by decide) h)

theorem copySample_eq_copied (s : State) (v : Nat) : copySample (depth s) v = copied s v :=
  (apply_ite (BitVec.ofNat 8) _ _ _).symm

/-- The factors 255, 85, 17 and 1 are 255 divided by the largest sample (R244). -/
theorem expandGray_eq {d : Nat} (h : d ∈ [1, 2, 4, 8, 16]) (v : Nat) :
    expandGray d v = BitVec.ofNat 8 (if d = 16 then v / 256 else v * (255 / (2 ^ d - 1))) := by
  simp only [List.mem_cons, List.not_mem_nil, or_false] at h
  rcases h with rfl | rfl | rfl | rfl | rfl
  · rfl
  · rfl
  · rfl
  · exact congrArg _ (Nat.mul_one v).symm
  · rfl

theorem alphaGray_eq_keyAlpha (s : State) (v : Nat) :
    alphaGray s v = keyAlpha (s.op.keyEn && v == s.op.trnsK0.toNat) := by
  simp only [alphaGray, keyAlpha, Bool.and_eq_true, beq_iff_eq]

theorem alphaRgb_eq_keyAlpha (s : State) (r g b : Nat) : alphaRgb s r g b =
    keyAlpha (s.op.keyEn && r == s.op.trnsK0.toNat && g == s.op.trnsK1.toNat && b == s.op.trnsK2.toNat) := by
  simp only [alphaRgb, keyAlpha, Bool.and_eq_true, beq_iff_eq, and_assoc]

/-! Palette pixels (R237, R247). -/

theorem pixelPalette_of_lt (h : rawIndex s x y < s.op.palLen.toNat) : pixelPalette s x y =
    some [(s.palAt (rawIndex s x y)).r, (s.palAt (rawIndex s x y)).g, (s.palAt (rawIndex s x y)).b,
      alphaPalette s (rawIndex s x y)] :=
  if_neg (not_le.2 h)

theorem pixelPalette_of_le (h : s.op.palLen.toNat ≤ rawIndex s x y) : pixelPalette s x y = none := if_pos h

/-! An expanded image (R235, R247). -/

/-- When every pixel has a colour, the image holds each pixel's colour and nothing else changes. -/
theorem expandImage_expanded {colour : Nat → Nat → List Byte} (h4 : ∀ x y, (colour x y).length = 4)
    (hcolour : ∀ x y, x < imageW s → y < imageH s → pixel s x y = some (colour x y)) :
    expanded s (expandImage pixel s) colour := by
  rw [expandImage_ok pixel colour s hcolour]
  refine ⟨rfl, fun x y hx hy => pixels_bytes colour s _ _ h4 x y hx hy, fun sp a hout => ?_⟩
  refine byte_writeFirst_outside ?_ hout
  rw [flatMap_length_pieces _ _ fun p _ => h4 p.1 p.2, length_pixelsOf, Nat.mul_comm]
  rfl

/-- The pixel listed at position `j` has pixel number `j`. -/
theorem pixelsOf_getElem_number {w h j : Nat} (hj : j < (pixelsOf w h).length) :
    (pixelsOf w h)[j].2 * w + (pixelsOf w h)[j].1 = j := by
  obtain ⟨hx, hy⟩ := (mem_pixelsOf w h _).1 (List.getElem_mem hj)
  have hat := pixelsOf_getElem? w h _ _ hx hy
  have hlt := (List.getElem?_eq_some_iff.1 hat).1
  exact (List.getElem?_inj hlt (nodup_pixelsOf w h)).1 (hat.trans (List.getElem?_eq_getElem hj).symm)

/-- The pixel with the smallest number among those without a colour is reported (R247). -/
theorem expandImage_of_first_none (hx : x < imgW s) (hy : y < imgH s) (hnone : pixel s x y = none)
    (hfirst : ∀ x' y', x' < imgW s → y' < imgH s → y' * imgW s + x' < y * imgW s + x → (pixel s x' y').isSome) :
    expandImage pixel s = (s.raise .palIndex (y * imgW s + x)).forget .pix 0 (imgW s * imgH s * 4) := by
  have hfind : (pixelsOf (imgW s) (imgH s)).find? (fun p => (pixel s p.1 p.2).isNone) = some (x, y) := by
    obtain ⟨hlt, hat⟩ := List.getElem?_eq_some_iff.1 (pixelsOf_getElem? (imgW s) (imgH s) x y hx hy)
    refine List.find?_eq_some_iff_getElem.2 ⟨by rw [hnone]; rfl, _, hlt, hat, fun j hj => ?_⟩
    obtain ⟨hx', hy'⟩ := (mem_pixelsOf _ _ _).1 (List.getElem_mem (hj.trans hlt))
    have hsome := hfirst _ _ hx' hy' ((pixelsOf_getElem_number (hj.trans hlt)).trans_lt hj)
    rw [Option.not_isNone, hsome]
  rcases expandImage_cases pixel s with ⟨p, hp, hrun⟩ | ⟨hall, _⟩
  · obtain rfl : (x, y) = p := Option.some.inj (hfind.symm.trans hp)
    exact hrun
  · have hsome := hall x y hx hy
    rw [hnone] at hsome
    cases hsome

theorem expandImage_busy (pixel : State → Nat → Nat → Option (List Byte)) (h : s.status.busy = false) :
    (expandImage pixel s).status.busy = false := by
  rcases expandImage_cases pixel s with ⟨p, _, hrun⟩ | ⟨_, hrun⟩
  · rw [hrun]; rfl
  · rw [hrun]; exact h

/-! UNPACK.RGBA and the values of `CTYPE` (R107, R235). -/

theorem unpackRgbaRun_busy (h : s.status.busy = false) : (unpackRgbaRun s).status.busy = false := by
  rcases unpackRgbaRun_cases s with ⟨pixel, _, hrun⟩ | hrun
  · rw [hrun]; exact expandImage_busy pixel h
  · rw [hrun]; rfl

theorem decode_readReg_ctype (s : State) : decode .ctype (s.readReg .ctype).toNat = decodeCtype s.op.ctype := by
  have hfield : ∀ v : BitVec 3, BitVec.ofNat 3 (bitField (v.setWidth 32).toNat 2 0) = v := by decide
  exact congrArg decodeCtype (hfield s.op.ctype)

/-- The instruction a colour type decodes to is the body UNPACK.RGBA runs for it, the reserved values included. -/
theorem exec_decodeCtype (s : State) : exec (decodeCtype s.op.ctype) s = .next (unpackRgbaRun s) := by
  unfold decodeCtype unpackRgbaRun
  cases colorType s.op.ctype with
  | none => rfl
  | some ct => cases ct <;> rfl

/-! The operand checks (R230, R235). -/

theorem colorType_eq_palette_iff (v : BitVec 3) : colorType v = some .palette ↔ v.toNat = 3 := by
  revert v; decide

theorem paletteDepthLegal_eq (d : Nat) : depthLegal .palette d = [1, 2, 4, 8].contains d := by
  simp only [depthLegal, List.contains_cons, List.contains_nil, Bool.or_assoc, Bool.or_false]

theorem unpackIdxChecks_eq_r326 (s : State) : unpackIdxChecks s = r326 .unpackIdx s := by
  unfold unpackIdxChecks rawCheck
  simp only [colorType_eq_palette_iff]
  rw [paletteDepthLegal_eq, imageRowBytes_eq]
  rfl

theorem unpackRgbaChecks_eq_r326 (s : State) : unpackRgbaChecks s = r326 .unpackRgba s := by
  unfold unpackRgbaChecks imageChecks rawCheck
  simp only [colorType_eq_palette_iff]
  rw [imageDepthLegal_eq, colorType_isSome_eq, imageRowBytes_eq]
  rfl

/-! The two commands (R230, R235, R300). -/

theorem exec_unpackIdx (h : passes .unpackIdx s) : exec .unpackIdx s = .next (unpackIdxRun (cleared s)).complete :=
  congrArg _ (command_passed (unpackIdxChecks s) unpackIdxRun s (unpackIdxChecks_eq_r326 s ▸ h))

theorem exec_unpackRgba (h : passes .unpackRgba s) : exec .unpackRgba s = .next (unpackRgbaRun (cleared s)).complete :=
  congrArg _ (command_passed (unpackRgbaChecks s) unpackRgbaRun s (unpackRgbaChecks_eq_r326 s ▸ h))

/-- UNPACK.IDX accepts only depths up to 8 (R230). -/
theorem depth_le_of_passes_unpackIdx (h : passes .unpackIdx s) : s.op.depth.toNat ≤ 8 := by
  simp only [passes, r326, List.forall_mem_cons, List.contains_iff_mem] at h
  obtain ⟨-, hdepth, -⟩ := h
  exact (by decide : ∀ d ∈ [1, 2, 4, 8], d ≤ 8) _ hdepth

/-- Each pixel's index stands at its pixel number (R230). -/
theorem unpackIdxRun_byte (hx : x < imgW s) (hy : y < imgH s) :
    (unpackIdxRun s).byte .idx (y * imgW s + x) = pixelIndex s x y := by
  have hat : ((pixelsOf (imgW s) (imgH s)).map fun p => pixelIndex s p.1 p.2)[y * imgW s + x]? = some (pixelIndex s x y) := by
    rw [List.getElem?_map, pixelsOf_getElem? _ _ _ _ hx hy]
    rfl
  obtain ⟨hlt, hbyte⟩ := List.getElem?_eq_some_iff.1 hat
  have hwrite := State.byte_write_inside s .idx 0 _ _ hlt
  rw [Nat.zero_add] at hwrite
  exact hwrite.trans hbyte

end Sys2Proof.Machine

namespace Sys2Proof.Proofs
open Sys2Proof Sys2Proof.Machine Sys2Proof.Claim

/-- Settles O48: the command lists the pixels' indices in the order of their numbers, and an index fits a byte. -/
theorem unpackIndices : Obligations.UnpackIndices := by
  intro s hp
  refine ⟨_, exec_unpackIdx hp, rfl, fun x y hx hy => ?_, fun sp a hout => ?_⟩
  · have hbyte : (unpackIdxRun (cleared s)).byte .idx (y * imageW s + x) = pixelIndex (cleared s) x y :=
      unpackIdxRun_byte (s := cleared s) hx hy
    rw [State.complete_byte, hbyte]
    exact (BitVec.toNat_ofNat _ _).trans
      (Nat.mod_eq_of_lt (rawSample_lt_of_depth_le (depth_le_of_passes_unpackIdx hp) 1 x y 0))
  · exact (State.complete_byte _ _ _).trans (unpackIdxRun_byte_outside (s := cleared s) hout)

/-- Settles O49: every pixel has a colour, and the scaling of each depth is by 255 over the largest sample. -/
theorem grayPixels : Obligations.GrayPixels := by
  intro s hdepth
  refine ⟨_, rfl, expandImage_expanded (fun _ _ => rfl) fun x y _ _ => ?_⟩
  simp only [pixelGray, depth, expandGray_eq hdepth, alphaGray_eq_keyAlpha, sample_eq_rawSample, channels]

/-- Settles O50: every pixel of the three direct types has a colour, made of its copied samples. -/
theorem directColourPixels : Obligations.DirectColourPixels := by
  intro s _
  refine ⟨⟨_, rfl, expandImage_expanded (fun _ _ => rfl) fun x y _ _ => ?_⟩,
    ⟨_, rfl, expandImage_expanded (fun _ _ => rfl) fun x y _ _ => ?_⟩,
    ⟨_, rfl, expandImage_expanded (fun _ _ => rfl) fun x y _ _ => ?_⟩⟩
  · simp only [pixelRgb, copySample_eq_copied, alphaRgb_eq_keyAlpha, sample_eq_rawSample, channels]
  · simp only [pixelGrayAlpha, copySample_eq_copied, sample_eq_rawSample, channels]
  · simp only [pixelRgba, copySample_eq_copied, sample_eq_rawSample, channels]
    rfl

/-- Settles O51: with every index inside the palette every pixel has a colour; otherwise the first pixel without one is the
first index outside. -/
theorem palettePixels : Obligations.PalettePixels := by
  refine ⟨fun s hin => ?_, fun s x y hx hy hbad hfirst => ?_⟩
  · exact ⟨_, rfl, expandImage_expanded (fun _ _ => rfl) fun x y hx hy => pixelPalette_of_lt (hin x y hx hy)⟩
  · have hfault := expandImage_of_first_none hx hy (pixelPalette_of_le hbad) fun x' y' hx' hy' hlt => by
      rw [pixelPalette_of_lt (hfirst x' y' hx' hy' hlt)]
      rfl
    refine ⟨expandImage pixelPalette s, rfl, ?_, expandImage_byte_outside _ s pixelPalette_fourBytes⟩
    rw [hfault]
    rfl

/-- Settles O53: the value `CTYPE` holds runs the command's body, and the body leaves `BUSY` clear. -/
theorem unpackRgbaRunsCtype : Obligations.UnpackRgbaRunsCtype := by
  intro s hp
  have hbusy : (unpackRgbaRun (cleared s)).status.busy = false := unpackRgbaRun_busy rfl
  rw [decode_readReg_ctype]
  exact ⟨unpackRgbaRun (cleared s), exec_decodeCtype (cleared s), State.complete_eq_closed hbusy ▸ exec_unpackRgba hp⟩

end Sys2Proof.Proofs
end

section
/-! `over` in exact integers (R266), and the cases in which it keeps one of its two pixels (R267). -/

namespace Sys2Proof.Machine

variable {f d p : List Byte} {k : Nat}

/-- `N` of R266 for frame pixel `f` over canvas pixel `d`. -/
def overWeight (f d : List Byte) : Nat := 255 * (f.getD 3 0).toNat + (d.getD 3 0).toNat * (255 - (f.getD 3 0).toNat)

/-- The sum that R266 divides by `N` for channel `k`. -/
def overSum (f d : List Byte) (k : Nat) : Nat :=
  255 * (f.getD k 0).toNat * (f.getD 3 0).toNat +
    (d.getD k 0).toNat * (d.getD 3 0).toNat * (255 - (f.getD 3 0).toNat)

theorem overPixel_of_weight_zero (h : overWeight f d = 0) : overPixel f d = [0, 0, 0, 0] := if_pos h

theorem overPixel_of_weight (h : overWeight f d ≠ 0) : overPixel f d =
    [BitVec.ofNat 8 (overSum f d 0 / overWeight f d), BitVec.ofNat 8 (overSum f d 1 / overWeight f d),
      BitVec.ofNat 8 (overSum f d 2 / overWeight f d), BitVec.ofNat 8 (overWeight f d / 255)] := if_neg h

/-- A channel is a mean of two bytes, weighted with parts of `N`. -/
theorem overSum_le (f d : List Byte) (k : Nat) : overSum f d k ≤ overWeight f d * 255 := by
  have hf : (f.getD k 0).toNat ≤ 255 := Nat.le_of_lt_succ (BitVec.isLt _)
  have hd : (d.getD k 0).toNat ≤ 255 := Nat.le_of_lt_succ (BitVec.isLt _)
  unfold overSum overWeight
  generalize 255 - (f.getD 3 0).toNat = q
  calc _ = (f.getD k 0).toNat * (255 * (f.getD 3 0).toNat) + (d.getD k 0).toNat * ((d.getD 3 0).toNat * q) := by ring
    _ ≤ 255 * (255 * (f.getD 3 0).toNat) + 255 * ((d.getD 3 0).toNat * q) := by gcongr
    _ = _ := by ring

theorem overWeight_le (f d : List Byte) : overWeight f d ≤ 255 * 255 := by
  have hf : (f.getD 3 0).toNat ≤ 255 := Nat.le_of_lt_succ (BitVec.isLt _)
  have hd : (d.getD 3 0).toNat ≤ 255 := Nat.le_of_lt_succ (BitVec.isLt _)
  calc overWeight f d ≤ 255 * (f.getD 3 0).toNat + 255 * (255 - (f.getD 3 0).toNat) := by unfold overWeight; gcongr
    _ = 255 * 255 := by omega

/-- A quotient of R266 fits a byte. -/
theorem toNat_ofNat_div {m n : Nat} (h : m ≤ n * 255) : (BitVec.ofNat 8 (m / n)).toNat = m / n :=
  (BitVec.toNat_ofNat _ _).trans (Nat.mod_eq_of_lt (Nat.lt_succ_of_le (Nat.div_le_of_le_mul h)))

/-- `over` is the pixel `p` whose channels R266 divides out exactly. -/
theorem overPixel_eq_of_exact (hw : overWeight f d ≠ 0) (ha : overWeight f d = (p.getD 3 0).toNat * 255)
    (hc : ∀ k, overSum f d k = (p.getD k 0).toNat * overWeight f d) :
    overPixel f d = [p.getD 0 0, p.getD 1 0, p.getD 2 0, p.getD 3 0] := by
  have hchan (k : Nat) : BitVec.ofNat 8 (overSum f d k / overWeight f d) = p.getD k 0 := by
    rw [hc, Nat.mul_div_cancel _ (Nat.pos_of_ne_zero hw), BitVec.ofNat_toNat, BitVec.setWidth_eq]
  have halpha : BitVec.ofNat 8 (overWeight f d / 255) = p.getD 3 0 := by
    rw [ha, Nat.mul_div_cancel _ (by decide), BitVec.ofNat_toNat, BitVec.setWidth_eq]
  rw [overPixel_of_weight hw, hchan, hchan, hchan, halpha]

/-- An opaque frame pixel replaces the canvas pixel (R267). -/
theorem overPixel_of_opaque (h : f.getD 3 0 = 255#8) (d : List Byte) :
    overPixel f d = [f.getD 0 0, f.getD 1 0, f.getD 2 0, f.getD 3 0] := by
  have hw : overWeight f d = 255 * 255 := by rw [overWeight, h]; simp
  refine overPixel_eq_of_exact (by omega) (by rw [hw, h]; rfl) fun k => ?_
  simp only [overSum, hw, h, BitVec.toNat_ofNat]
  ring

/-- A transparent frame pixel keeps a visible canvas pixel (R267). -/
theorem overPixel_of_transparent (hf : f.getD 3 0 = 0#8) (hd : d.getD 3 0 ≠ 0#8) :
    overPixel f d = [d.getD 0 0, d.getD 1 0, d.getD 2 0, d.getD 3 0] := by
  have hw : overWeight f d = (d.getD 3 0).toNat * 255 := by rw [overWeight, hf]; simp
  have hd0 : (d.getD 3 0).toNat ≠ 0 := mt BitVec.toNat_eq_nat.1 (by simpa using hd)
  refine overPixel_eq_of_exact (by omega) hw fun k => ?_
  simp only [overSum, hw, hf, BitVec.toNat_ofNat]
  ring

/-- Over an invisible canvas pixel a visible frame pixel is kept (R267). -/
theorem overPixel_of_invisible (hf : f.getD 3 0 ≠ 0#8) (hd : d.getD 3 0 = 0#8) :
    overPixel f d = [f.getD 0 0, f.getD 1 0, f.getD 2 0, f.getD 3 0] := by
  have hw : overWeight f d = (f.getD 3 0).toNat * 255 := by rw [overWeight, hd]; simp [Nat.mul_comm]
  have hf0 : (f.getD 3 0).toNat ≠ 0 := mt BitVec.toNat_eq_nat.1 (by simpa using hf)
  refine overPixel_eq_of_exact (by omega) hw fun k => ?_
  simp only [overSum, hw, hd, BitVec.toNat_ofNat]
  ring

end Sys2Proof.Machine

namespace Sys2Proof.Proofs
open Sys2Proof Sys2Proof.Machine

/-- Settles O55: no quotient leaves 0 to 255, and in each special case R266 divides one pixel's channels out exactly. -/
theorem overFormula : Obligations.OverFormula := by
  refine ⟨fun rf gf bf af rb gb bb ab => ⟨fun hn => ?_, fun hn => ?_⟩, fun rf gf bf => overPixel_of_opaque rfl,
    fun rf gf bf rb gb bb ab hab => overPixel_of_transparent rfl hab,
    fun rf gf bf rb gb bb => overPixel_of_weight_zero (by simp [overWeight]),
    fun rf gf bf af rb gb bb haf => overPixel_of_invisible haf rfl⟩
  · rw [overPixel_of_weight_zero (f := [rf, gf, bf, af]) (d := [rb, gb, bb, ab]) hn]; rfl
  · rw [overPixel_of_weight (f := [rf, gf, bf, af]) (d := [rb, gb, bb, ab]) hn]
    simp only [List.map_cons, List.map_nil, toNat_ofNat_div (overSum_le _ _ _), toNat_ofNat_div (overWeight_le _ _)]
    rfl

end Sys2Proof.Proofs
end

section
/-! The compositor in the terms of the statements (R260 to R281): the blend and the dispose operations on the rectangle, and
what COMP.RESET and COMP.FRAME do on operands they accept. -/

namespace Sys2Proof.Machine
open Sys2Proof.Claim

variable {s t u : State} {a c r : Nat}

/-! The operand checks (R260, R263). -/

theorem frameZeroCovers_eq (s : State) : frameZeroCovers s = decide (s.compFrame.toNat = 0 →
    s.op.rectX.toNat = 0 ∧ s.op.rectY.toNat = 0 ∧ s.op.rectW = s.op.canvasW ∧ s.op.rectH = s.op.canvasH) := by
  have hzero : s.compFrame.toNat = 0 ↔ s.compFrame = 0 := BitVec.toNat_inj (y := 0)
  simp only [frameZeroCovers, rectX, rectY, rectW, rectH, canvasW, canvasH, BitVec.toNat_inj, hzero]

theorem compFrameChecks_eq_r326 (s : State) : compFrameChecks s = r326 .compFrame s := by
  unfold compFrameChecks
  rw [frameZeroCovers_eq]
  rfl

theorem rectInCanvas_of_passes_compFrame (h : passes .compFrame s) : RectInCanvas s :=
  compFrameChecks_rect (compFrameChecks_eq_r326 s ▸ h)

/-- COMP.FRAME accepts only the three dispose operations (R263, R273). -/
theorem dispose_le_of_checks (h : ∀ c ∈ compFrameChecks s, c.1 = true) : s.op.dispose.toNat ≤ 2 :=
  of_decide_eq_true (h (decide (s.op.dispose.toNat ≤ 2), 30) (by simp [compFrameChecks]))

/-! The two commands (R260, R261, R300). -/

theorem exec_compReset (h : passes .compReset s) : exec .compReset s = .next (compResetRun (cleared s)).complete :=
  congrArg _ (command_passed (canvasChecks s) compResetRun s h)

theorem compFrameCommand_ready (h : s.compReady = true) :
    compFrameCommand s = command (compFrameChecks s) compFrameRun s := if_pos h

theorem exec_compFrame (hready : s.compReady = true) (h : passes .compFrame s) :
    exec .compFrame s = .next (compFrameRun (cleared s)).complete :=
  congrArg _ ((compFrameCommand_ready hready).trans
    (command_passed (compFrameChecks s) compFrameRun s (compFrameChecks_eq_r326 s ▸ h)))

/-! The blend (R264, R266, R281). -/

/-- Frame 0 is composited with `Source` whatever the bit says. -/
theorem blendOp_frameZero (isOver : Bool) (n : Word) :
    blendOp (isOver && decide (n ≠ 0#32)) = if n = 0 then .source else blendOp isOver := by
  by_cases h : n = 0#32 <;> simp [h, blendOp]

theorem blendPixel_blendOp (isOver : Bool) (f d : List Byte) :
    blendPixel (blendOp isOver) f d = if isOver then overPixel f d else f := by
  cases isOver <;> rfl

theorem blendRect_blended (isOver : Bool) (h : rectFits s) : blended isOver s (blendRect (blendOp isOver) s) :=
  ⟨rfl, fun _ _ hc hr => (blendRect_inside (blendOp isOver) s h hc hr).trans (blendPixel_blendOp _ _ _),
    blendRect_outside _ s⟩

/-! The frame as `VIS` shows it (R261, R269). -/

/-- The steps of COMP.FRAME between its two dispose moments: the blend, then the copy to `VIS`. -/
def blendAndShow (isOver : Bool) (s : State) : State := copyCanvas .canvas .vis (blendRect (blendOp isOver) s)

/-- `VIS` of `t` is the canvas of `s` with the frame blended into the rectangle. -/
structure Shows (isOver : Bool) (s t : State) : Prop where
  rect : ∀ c r, c < s.op.rectW.toNat → r < s.op.rectH.toNat →
    t.bytes .vis (rectByte s c r) 4 = blendedPix isOver s c r
  rest : ∀ a, a < canvasSize s → ¬ inRect s a → t.byte .vis a = s.byte .canvas a

variable {isOver : Bool}

theorem copyCanvas_bytes (src dst : Space) {n : Nat} (h : a + n ≤ canvasBytes s) :
    (copyCanvas src dst s).bytes dst a n = s.bytes src a n :=
  List.map_congr_left fun j hj => copyCanvas_inside src dst s j (by rw [List.mem_range'_1] at hj; omega)

theorem blendAndShow_shows (h : RectInCanvas s) : Shows isOver s (blendAndShow isOver s) where
  rect c r hc hr := by
    obtain ⟨-, hrect, -⟩ := blendRect_blended isOver h.cols
    exact (copyCanvas_bytes (s := blendRect _ s) .canvas .vis (rectAddr_inside s h.cols h.rows hc hr)).trans
      (hrect c r hc hr)
  rest a ha hout := (copyCanvas_inside .canvas .vis (blendRect _ s) a ha).trans
    (blendRect_outside _ s .canvas a fun hin => hout hin.2)

theorem blendAndShow_canvas (ha : a < canvasSize s) :
    (blendAndShow isOver s).byte .canvas a = (blendAndShow isOver s).byte .vis a :=
  (copyCanvas_outside .canvas .vis _ .canvas a nofun).trans (copyCanvas_inside .canvas .vis (blendRect _ s) a ha).symm

theorem Shows.congr (h : Shows isOver s t) (hvis : ∀ a, u.byte .vis a = t.byte .vis a) : Shows isOver s u where
  rect c r hc hr := (State.bytes_congr fun a _ _ => hvis a).trans (h.rect c r hc hr)
  rest a ha hout := (hvis a).trans (h.rest a ha hout)

/-- Taking the snapshot changes nothing the blend reads (R272). -/
theorem blendAndShow_saved_shows (h : RectInCanvas s) :
    Shows isOver s (blendAndShow isOver (copyCanvas .canvas .snap s)) := by
  have hkept (sp : Space) (hsp : sp ≠ .snap) (k n : Nat) : (copyCanvas .canvas .snap s).bytes sp k n = s.bytes sp k n :=
    State.bytes_write_other hsp _ _ k n
  obtain ⟨hrect, hrest⟩ := blendAndShow_shows (isOver := isOver) (s := copyCanvas .canvas .snap s) ⟨h.bytes, h.cols, h.rows⟩
  refine ⟨fun c r hc hr => (hrect c r hc hr).trans ?_, fun a ha hout => (hrest a ha hout).trans ?_⟩
  · unfold blendedPix framePix
    rw [hkept .pix (by decide), hkept .canvas (by decide)]
    rfl
  · exact copyCanvas_outside .canvas .snap s .canvas a nofun

/-! COMP.FRAME (R261): what each dispose operation makes of the command. -/

/-- Whether the frame is blended with `Over`: frame 0 is composited with `Source` (R281). -/
abbrev frameIsOver (s : State) : Bool := s.op.blend && decide (s.compFrame ≠ 0#32)

/-- The last step of R261: `COMP_FRAME` becomes `n`. -/
def setCompFrame (n : Word) (s : State) : State := { s with compFrame := n }

theorem setCompFrame_byte (n : Word) (s : State) (sp : Space) (a : Nat) :
    (setCompFrame n s).byte sp a = s.byte sp a := rfl

theorem frameBlend_eq (s : State) : frameBlend s = blendOp (frameIsOver s) := (blendOp_frameZero _ _).symm

theorem compFrameRun_none (h : s.op.dispose = 0#2) :
    compFrameRun s = setCompFrame (nextFrame s.compFrame) (blendAndShow (frameIsOver s) s) := by
  unfold compFrameRun blendAndShow
  rw [h, frameBlend_eq]
  rfl

theorem compFrameRun_clear (h : s.op.dispose = 1#2) :
    compFrameRun s = setCompFrame (nextFrame s.compFrame) (zeroRect (blendAndShow (frameIsOver s) s)) := by
  unfold compFrameRun blendAndShow
  rw [h, frameBlend_eq]
  rfl

theorem compFrameRun_restore (h : s.op.dispose = 2#2) :
    compFrameRun s = setCompFrame (nextFrame s.compFrame)
      (copyCanvas .snap .canvas (blendAndShow (frameIsOver s) (copyCanvas .canvas .snap s))) := by
  unfold compFrameRun blendAndShow
  rw [h, frameBlend_eq]
  rfl

theorem onlyMem_trans (h : onlyMem s t) (h' : onlyMem t u) : onlyMem s u :=
  Eq.trans h' (congrArg (fun v : State => { v with mem := u.mem }) h)

theorem copyCanvas_onlyMem (src dst : Space) (s : State) : onlyMem s (copyCanvas src dst s) := rfl

theorem zeroRect_onlyMem (s : State) : onlyMem s (zeroRect s) := rfl

theorem blendAndShow_onlyMem (isOver : Bool) (s : State) : onlyMem s (blendAndShow isOver s) :=
  onlyMem_trans (t := blendRect (blendOp isOver) s) rfl (copyCanvas_onlyMem _ _ _)

theorem setCompFrame_of_onlyMem (h : onlyMem s t) (n : Word) :
    setCompFrame n t = { s with mem := (setCompFrame n t).mem, compFrame := n } := congrArg (setCompFrame n) h

/-- R275. -/
theorem nextFrame_toNat (n : Word) : (nextFrame n).toNat = min (n.toNat + 1) (2 ^ 32 - 1) := by
  unfold nextFrame
  split
  next h =>
    have hone : (1 : Word).toNat = 1 := rfl
    rw [BitVec.toNat_add, hone]
    omega
  next h => have := n.isLt; omega

section
variable (hlegal : s.op.dispose.toNat ≤ 2)
include hlegal

theorem dispose_cases : s.op.dispose = 0#2 ∨ s.op.dispose = 1#2 ∨ s.op.dispose = 2#2 :=
  (by decide : ∀ v : BitVec 2, v.toNat ≤ 2 → v = 0#2 ∨ v = 1#2 ∨ v = 2#2) _ hlegal

/-- COMP.FRAME changes buffers and `COMP_FRAME` only. -/
theorem compFrameRun_frame :
    compFrameRun s = { s with mem := (compFrameRun s).mem, compFrame := nextFrame s.compFrame } := by
  rcases dispose_cases hlegal with h | h | h
  · rw [compFrameRun_none h]; exact setCompFrame_of_onlyMem (blendAndShow_onlyMem _ s) _
  · rw [compFrameRun_clear h]; exact setCompFrame_of_onlyMem (onlyMem_trans (blendAndShow_onlyMem _ s) (zeroRect_onlyMem _)) _
  · rw [compFrameRun_restore h]
    exact setCompFrame_of_onlyMem (onlyMem_trans (copyCanvas_onlyMem _ _ s)
      (onlyMem_trans (blendAndShow_onlyMem _ _) (copyCanvas_onlyMem _ _ _))) _

/-- No dispose operation touches the visible canvas (R269). -/
theorem compFrameRun_shows (hr : RectInCanvas s) : Shows (frameIsOver s) s (compFrameRun s) := by
  rcases dispose_cases hlegal with h | h | h
  · rw [compFrameRun_none h]; exact (blendAndShow_shows hr).congr fun _ => rfl
  · rw [compFrameRun_clear h]; exact (blendAndShow_shows hr).congr (zeroRect_outside _ .vis · nofun)
  · rw [compFrameRun_restore h]
    exact (blendAndShow_saved_shows hr).congr fun a => copyCanvas_outside .snap .canvas _ .vis a nofun

/-- Unless it is copied back, the canvas is the visible one where the rectangle is not cleared (R270, R271). -/
theorem compFrameRun_canvas (hne : s.op.dispose ≠ 2#2) (ha : a < canvasSize s)
    (hout : ¬ (s.op.dispose = 1#2 ∧ inRect s a)) : (compFrameRun s).byte .canvas a = (compFrameRun s).byte .vis a := by
  rcases dispose_cases hlegal with h | h | h
  · rw [compFrameRun_none h]; exact blendAndShow_canvas ha
  · rw [compFrameRun_clear h, setCompFrame_byte, setCompFrame_byte]
    calc _ = (blendAndShow (frameIsOver s) s).byte .canvas a := zeroRect_outside _ .canvas a fun hin => hout ⟨h, hin.2⟩
      _ = (blendAndShow (frameIsOver s) s).byte .vis a := blendAndShow_canvas ha
      _ = _ := (zeroRect_outside _ .vis a nofun).symm
  · exact absurd h hne

end

theorem compFrameRun_cleared (h : s.op.dispose = 1#2) (ha : inRect s a) : (compFrameRun s).byte .canvas a = 0#8 := by
  rw [compFrameRun_clear h]; exact zeroRect_inside _ a ha

/-- RestoreToPrevious puts the canvas it saved back (R272). -/
theorem compFrameRun_restored (h : s.op.dispose = 2#2) (ha : a < canvasSize s) :
    (compFrameRun s).byte .canvas a = s.byte .canvas a ∧ (compFrameRun s).byte .snap a = s.byte .canvas a := by
  rw [compFrameRun_restore h, setCompFrame_byte, setCompFrame_byte]
  have hsaved : (blendAndShow (frameIsOver s) (copyCanvas .canvas .snap s)).byte .snap a = s.byte .canvas a :=
    (blendAndShow_byte_outside (s := copyCanvas .canvas .snap s) (sp := .snap) _ (by simp) (by simp)).trans
      (copyCanvas_inside .canvas .snap s a ha)
  rw [copyCanvas_inside .snap .canvas _ a (by exact ha), copyCanvas_outside .snap .canvas _ .snap a nofun]
  exact ⟨hsaved, hsaved⟩

/-- Every byte COMP.FRAME may write lies in the canvas-wide buffers (R64). -/
theorem compFrame_footprint_inside (hr : RectInCanvas s) {sp : Space} (h : footprint .compFrame s t sp a) :
    a < canvasSize s ∧ (sp = .canvas ∨ sp = .vis ∨ (sp = .snap ∧ s.op.dispose = 2#2)) := by
  rcases h with ⟨hsp, c, r, hc, hq, -, hhigh⟩ | ⟨hsp, ha⟩ | ⟨⟨hsp, ha⟩, hop⟩
  · exact ⟨hhigh.trans_le (rectAddr_inside s hr.cols hr.rows hc hq), .inl hsp⟩
  · exact ⟨ha, .inr (.inl hsp)⟩
  · exact ⟨ha, .inr (.inr ⟨hsp, hop⟩)⟩

end Sys2Proof.Machine

namespace Sys2Proof.Proofs
open Sys2Proof Sys2Proof.Machine Sys2Proof.Claim

/-- Settles O54: the command writes as many zeros as the canvas has bytes. -/
theorem compResetEffect : Obligations.CompResetEffect := by
  intro s hp
  refine ⟨_, exec_compReset hp, rfl, fun a ha => ?_, fun sp a hout => ?_⟩
  · have hlen : a < (List.replicate (canvasBytes s) (0 : Byte)).length := by rw [List.length_replicate]; exact ha
    have hzero := State.byte_write_inside (cleared s) .canvas 0 _ a hlen
    rw [Nat.zero_add, List.getElem_replicate] at hzero
    exact (State.complete_byte _ _ _).trans hzero
  · exact (State.complete_byte _ _ _).trans (byte_writeFirst_outside (s := cleared s) List.length_replicate hout)

/-- Settles O56: both values are the blend of the rectangle, and on frame 0 `Over` is `Source`. -/
theorem blendValues : Obligations.BlendValues := by
  intro s hfit
  refine ⟨⟨_, rfl, blendRect_blended false hfit⟩, ⟨_, ?_, blendRect_blended _ hfit⟩⟩
  exact congrArg (fun op => Host.Outcome.next (blendRect op s)) (blendOp_frameZero true s.compFrame).symm

/-- Settles O57: each value copies the canvas, clears the rectangle or does nothing. -/
theorem disposeValues : Obligations.DisposeValues :=
  ⟨fun _ _ => rfl, fun _ => rfl,
    fun s => ⟨_, rfl, rfl, zeroRect_inside s, zeroRect_outside s⟩,
    fun s => ⟨_, rfl, rfl, copyCanvas_inside .canvas .snap s, copyCanvas_outside .canvas .snap s⟩,
    fun s => ⟨_, rfl, rfl, copyCanvas_inside .snap .canvas s, copyCanvas_outside .snap .canvas s⟩⟩

/-- Settles O58: the frame is shown as blended, and each dispose operation leaves `VIS` alone and its own base in `CANVAS`. -/
theorem compFrameEffect : Obligations.CompFrameEffect := by
  intro s hready hp isOver
  have hlegal : s.op.dispose.toNat ≤ 2 := dispose_le_of_checks (compFrameChecks_eq_r326 s ▸ hp)
  have hrect : RectInCanvas (cleared s) := rectInCanvas_of_passes_compFrame hp
  have hexec := exec_compFrame hready hp
  obtain ⟨t, hend, hbyte, ht⟩ : ∃ t, (compFrameRun (cleared s)).complete = t ∧
      (∀ sp a, t.byte sp a = (compFrameRun (cleared s)).byte sp a) ∧
      t = { ended s with mem := t.mem, compFrame := nextFrame s.compFrame } := by
    refine ⟨_, rfl, fun _ _ => State.complete_byte _ _ _, ?_⟩
    rw [compFrameRun_frame (s := cleared s) hlegal]
    rfl
  rw [hend] at hexec
  obtain ⟨hvisRect, hvisRest⟩ := (compFrameRun_shows (s := cleared s) hlegal hrect).congr (hbyte .vis)
  refine ⟨t, hexec, ?_, ?_, hvisRect, hvisRest, fun hne a ha hout => ?_, fun hop a ha => ?_, fun hop a ha => ?_,
    fun sp a hout => ?_⟩
  · rw [ht]
  · rw [ht]; exact nextFrame_toNat s.compFrame
  · rw [hbyte, hbyte]; exact compFrameRun_canvas (s := cleared s) hlegal hne ha hout
  · rw [hbyte]; exact compFrameRun_cleared (s := cleared s) hop ha
  · rw [hbyte, hbyte]; exact compFrameRun_restored (s := cleared s) hop ha
  · rw [hbyte]
    exact compFrameRun_byte_outside (s := cleared s) (t := t) fun hin => hout (compFrame_footprint_inside hrect hin)

end Sys2Proof.Proofs
end

section
/-! The faults a command takes at its start (R325, R326): the first operand check that fails, in order, and that no body raises
`E_PARAM` once every check has passed. -/

namespace Sys2Proof.Machine
open Sys2Proof.Claim

variable {s u : State} {i : Instr} {checks : List Check} {body : State → State}

/-! The first failing check. -/

theorem checkedInOrder_of_firstFailing (hfail : ∀ reg, firstFailing checks = some reg → exec i s = .next (faulted s 2#8 reg))
    (hpass : firstFailing checks = none → ∀ t, exec i s = .next t → t.status.errcode ≠ 2#8) :
    checkedInOrder i s checks := by
  induction checks with
  | nil => exact hpass rfl
  | cons c checks ih =>
    obtain ⟨ok, reg⟩ := c
    cases ok with
    | false => exact hfail reg rfl
    | true => exact ih hfail hpass

theorem State.complete_errcode (s : State) : s.complete.status.errcode = s.status.errcode := by
  rw [State.complete_status]
  split <;> rfl

/-- A command checks its operands in order if its body raises no `E_PARAM` after checks that pass. -/
theorem command_checkedInOrder (hexec : exec i s = .next (command checks body s)) (hchecks : checks = r326 i s)
    (hbody : (∀ c ∈ checks, c.1 = true) → (body (cleared s)).status.errcode ≠ 2#8) : checkedInOrder i s (r326 i s) := by
  rw [← hchecks]
  refine checkedInOrder_of_firstFailing (fun reg hreg => ?_) (fun hnone t ht => ?_)
  · rw [hexec]
    unfold command
    rw [hreg]
    rfl
  · have hpass := (firstFailing_eq_none checks).1 hnone
    rw [hexec, command_passed checks body s hpass] at ht
    cases ht
    rw [State.complete_errcode]
    exact hbody hpass

/-! No body raises `E_PARAM` (R321). -/

section
variable (h : s.status.errcode ≠ 2#8)
include h

theorem lzwData_noParam (str : List Byte) (code : BitVec 12) : (lzwData str code s).status.errcode ≠ 2#8 := by
  by_cases hover : s.op.outLen.toNat < s.lzw.outPos.toNat + str.length
  · rw [lzwData_overrun str code s hover]; exact h
  · rw [lzwData_status str code s hover]; exact h

theorem lzwCode_noParam (code : BitVec 12) : (lzwCode code s).status.errcode ≠ 2#8 := by
  unfold lzwCode
  split
  · exact h
  · exact h
  · exact lzwData_noParam h _ _
  · exact lzwData_noParam h _ _
  · exact lzwData_noParam h _ _
  · exact (by decide : errCode .lzwCode ≠ 2#8)

theorem lzwTurn_noParam (stream nbits : Nat) : (lzwTurn stream nbits s).status.errcode ≠ 2#8 := by
  rcases lzwTurn_cases stream nbits s with ⟨_, hturn⟩ | ⟨_, hturn⟩
  · rw [hturn]; exact h
  · rw [hturn]; exact lzwCode_noParam (s := lzwAdvance s) h _

theorem lzwFinish_noParam : (lzwFinish s).status.errcode ≠ 2#8 := by
  unfold lzwFinish
  split <;> exact h

theorem lzwRun_noParam : (lzwRun s).status.errcode ≠ 2#8 :=
  lzwFinish_noParam (lzwLoop_keeps (fun u => u.status.errcode ≠ 2#8) _ _ (fun _ hu => lzwTurn_noParam hu _ _) _ _ h)

theorem blitRun_noParam (mode : BlitMode) : (blitRun mode s).status.errcode ≠ 2#8 := by
  rcases blitRun_cases mode s with ⟨n, _, hrun⟩ | ⟨_, hrun⟩
  · rw [hrun, forgetRect_frame]; exact (by decide : errCode .palIndex ≠ 2#8)
  · rw [hrun]; exact h

theorem defilterRun_noParam : (defilterRun s).status.errcode ≠ 2#8 := by
  rcases defilterRun_cases s with ⟨_, hrun⟩ | ⟨_, n, _, hrun⟩ | ⟨_, rows, _, hrun⟩
  · rw [hrun]; exact (by decide : errCode .underrun ≠ 2#8)
  · rw [hrun]; exact (by decide : errCode .filterTag ≠ 2#8)
  · rw [hrun]; exact h

theorem adam7Run_noParam : (adam7Run s).status.errcode ≠ 2#8 := by
  rcases adam7Run_cases s with ⟨_, hrun⟩ | ⟨_, n, _, hrun⟩ | ⟨_, raw, _, hrun⟩
  · rw [hrun]; exact (by decide : errCode .underrun ≠ 2#8)
  · rw [hrun]; exact (by decide : errCode .filterTag ≠ 2#8)
  · rw [hrun]; exact h

theorem expandImage_noParam (pixel : State → Nat → Nat → Option (List Byte)) :
    (expandImage pixel s).status.errcode ≠ 2#8 := by
  rcases expandImage_cases pixel s with ⟨p, _, hrun⟩ | ⟨_, hrun⟩
  · rw [hrun]; exact (by decide : errCode .palIndex ≠ 2#8)
  · rw [hrun]; exact h

/-- A colour type the checks accept has an expansion (R107, R235). -/
theorem unpackRgbaRun_noParam (hctype : (colorType s.op.ctype).isSome = true) :
    (unpackRgbaRun s).status.errcode ≠ 2#8 := by
  unfold unpackRgbaRun
  split
  case h_6 hnone => rw [hnone] at hctype; cases hctype
  all_goals exact expandImage_noParam h _

/-- A dispose operation the checks accept raises nothing (R263, R273). -/
theorem compFrameRun_noParam (hlegal : s.op.dispose.toNat ≤ 2) : (compFrameRun s).status.errcode ≠ 2#8 := by
  rw [compFrameRun_frame hlegal]; exact h

end

/-! `E_SEQ` and `E_UNDERRUN` (R203, R219, R262). -/

theorem exec_compFrame_of_not_ready (h : s.compReady = false) : exec .compFrame s = .next (faulted s 3#8 0) :=
  congrArg _ (if_neg (by simp [h]))

theorem defilterRun_of_short (h : s.op.filtLen.toNat < plainNeed s) : defilterRun s = s.raise .underrun (plainNeed s) := by
  rw [plainNeed_eq] at h ⊢
  exact if_pos h

theorem adam7Run_of_short (h : s.op.filtLen.toNat < interlacedNeed s) :
    adam7Run s = s.raise .underrun (interlacedNeed s) := by
  rw [interlacedNeed_eq] at h ⊢
  exact if_pos h

end Sys2Proof.Machine

namespace Sys2Proof.Proofs
open Sys2Proof Sys2Proof.Machine Sys2Proof.Claim

/-- Settles O22: each command's list is that of R326, and its body raises no `E_PARAM` after it. -/
theorem startChecksInOrder : Obligations.StartChecksInOrder := by
  intro i s hi hready
  have hclear : (cleared s).status.errcode ≠ 2#8 := (by decide : Status.zero.errcode ≠ 2#8)
  simp only [List.mem_cons, List.not_mem_nil, or_false] at hi
  rcases hi with rfl | rfl | rfl | rfl | rfl | rfl | rfl | rfl | rfl | rfl
  · exact command_checkedInOrder (checks := lzwChecks s) rfl rfl fun _ => lzwRun_noParam hclear
  · exact command_checkedInOrder (checks := blitChecks s) rfl rfl fun _ => blitRun_noParam hclear _
  · exact command_checkedInOrder rfl (reconChecks_eq_r326 s) fun _ => defilterRun_noParam hclear
  · exact command_checkedInOrder (body := adam7Run) rfl (reconChecks_eq_r326 s) fun _ => adam7Run_noParam hclear
  · exact command_checkedInOrder (body := unpackIdxRun) rfl (unpackIdxChecks_eq_r326 s) fun _ => hclear
  · exact command_checkedInOrder rfl (unpackRgbaChecks_eq_r326 s) fun hp =>
      unpackRgbaRun_noParam hclear (hp ((colorType s.op.ctype).isSome, 13) (by simp [unpackRgbaChecks, imageChecks]))
  · exact command_checkedInOrder (checks := canvasChecks s) (body := compResetRun) rfl rfl fun _ => hclear
  · exact command_checkedInOrder (congrArg _ (compFrameCommand_ready (hready rfl))) (compFrameChecks_eq_r326 s) fun hp =>
      compFrameRun_noParam hclear (dispose_le_of_checks hp)
  · exact command_checkedInOrder (checks := canvasChecks s) (body := deltaBboxRun) rfl rfl fun _ => hclear
  · exact command_checkedInOrder (checks := deltaBlendChecks s) (body := deltaBlendRun) rfl rfl fun _ => hclear

/-- Settles O23: COMP.FRAME tests `COMP_READY` first, and the two reconstructions their length before they read a tag. -/
theorem sequenceAndLengthFaults : Obligations.SequenceAndLengthFaults := by
  refine ⟨fun s => exec_compFrame_of_not_ready, fun s hp hshort => ?_, fun s hp hshort => ?_⟩
  · rw [exec_defilterRun hp, defilterRun_of_short (s := cleared s) hshort, State.complete_of_err _ rfl]; rfl
  · rw [exec_adam7Run hp, adam7Run_of_short (s := cleared s) hshort, State.complete_of_err _ rfl]; rfl

end Sys2Proof.Proofs
end

section
/-! The frame delta in the terms of the statements (R290 to R293): the box the command reports spans the coordinates of the
differing pixels on each axis, and the blend selection looks for one pixel that forces `Source`. -/

namespace Sys2Proof.Machine
open Sys2Proof.Claim

variable {s : State} {x y : Nat}

/-! The two commands (R290, R293, R300). -/

theorem exec_deltaBbox (h : passes .deltaBbox s) :
    exec .deltaBbox s = .next { ended s with bbox := boxOf (differing s) } :=
  congrArg _ (command_passed (canvasChecks s) deltaBboxRun s h)

theorem exec_deltaBlend (h : passes .deltaBlend s) :
    exec .deltaBlend s = .next { ended s with blendSel := (deltaBlendRun s).blendSel } :=
  congrArg _ (command_passed (deltaBlendChecks s) deltaBlendRun s h)

/-- DELTA.BBOX accepts only canvases that have a pixel (R290). -/
theorem canvas_pos_of_passes_deltaBbox (h : passes .deltaBbox s) : 1 ≤ s.op.canvasW.toNat ∧ 1 ≤ s.op.canvasH.toNat := by
  simp only [passes, r326, List.forall_mem_cons, decide_eq_true_eq] at h
  obtain ⟨hw, hh, -⟩ := h
  exact ⟨hw, hh⟩

/-! The differing pixels (R291). -/

theorem differs_iff : differs s x y = true ↔ pixelDiffers s x y := bne_iff_ne

theorem mem_differing_iff_changedPixel : (x, y) ∈ differing s ↔ changedPixel s x y := by
  rw [mem_differing, differs_iff]
  rfl

/-- The columns of the differing pixels. -/
theorem mem_map_fst_differing {n : Nat} : n ∈ (differing s).map Prod.fst ↔ ∃ y, changedPixel s n y := by
  simp only [List.mem_map, Prod.exists, mem_differing_iff_changedPixel, exists_eq_right, exists_and_right]

/-- The rows of the differing pixels. -/
theorem mem_map_snd_differing {n : Nat} : n ∈ (differing s).map Prod.snd ↔ ∃ x, changedPixel s x n := by
  simp only [List.mem_map, Prod.exists, mem_differing_iff_changedPixel, exists_eq_right]

theorem fst_lt_of_mem_differing {n : Nat} (hn : n ∈ (differing s).map Prod.fst) : n < s.op.canvasW.toNat := by
  obtain ⟨_, hlt, -⟩ := mem_map_fst_differing.1 hn
  exact hlt

theorem snd_lt_of_mem_differing {n : Nat} (hn : n ∈ (differing s).map Prod.snd) : n < s.op.canvasH.toNat := by
  obtain ⟨_, -, hlt, -⟩ := mem_map_snd_differing.1 hn
  exact hlt

/-! The bounding box (R290, R292). -/

/-- The `len` numbers from `lo` on are the smallest range that holds every number of the list. -/
structure Spans (lo len : Nat) (ns : List Nat) : Prop where
  covers : ∀ n ∈ ns, lo ≤ n ∧ n < lo + len
  first : lo ∈ ns
  last : lo + len - 1 ∈ ns

theorem Spans.end_le {lo len bound : Nat} {ns : List Nat} (h : Spans lo len ns) (hlt : ∀ n ∈ ns, n < bound) :
    lo + len ≤ bound := by
  have hlast := hlt _ h.last
  omega

/-- The least number and the distance to the greatest span a list whose numbers lie below a word: neither wraps. -/
theorem spans_leastOf_greatestOf {ns : List Nat} (hne : ns ≠ []) {bound : Word} (hlt : ∀ n ∈ ns, n < bound.toNat) :
    Spans (BitVec.ofNat 32 (leastOf ns)).toNat (BitVec.ofNat 32 (greatestOf ns - leastOf ns + 1)).toNat ns := by
  obtain ⟨hleast, hlow⟩ := leastOf_spec ns hne
  obtain ⟨hgreatest, hhigh⟩ := greatestOf_spec ns hne
  have hle := hlow _ hgreatest
  have hgreatestLt := hlt _ hgreatest
  have hbound := bound.isLt
  have hx : (BitVec.ofNat 32 (leastOf ns)).toNat = leastOf ns := Nat.mod_eq_of_lt (by omega)
  have hlen : (BitVec.ofNat 32 (greatestOf ns - leastOf ns + 1)).toNat = greatestOf ns - leastOf ns + 1 :=
    Nat.mod_eq_of_lt (by omega)
  have hend : leastOf ns + (greatestOf ns - leastOf ns + 1) - 1 = greatestOf ns := by omega
  rw [hx, hlen]
  refine ⟨fun n hn => ⟨hlow n hn, ?_⟩, hleast, hend.symm ▸ hgreatest⟩
  have hn' := hhigh n hn
  omega

/-- On each axis the box of the differing pixels spans their coordinates. -/
theorem boxOf_differing_spans (hne : differing s ≠ []) :
    Spans (boxOf (differing s)).x.toNat (boxOf (differing s)).w.toNat ((differing s).map Prod.fst) ∧
    Spans (boxOf (differing s)).y.toNat (boxOf (differing s)).h.toNat ((differing s).map Prod.snd) := by
  have hx := spans_leastOf_greatestOf (mt List.map_eq_nil_iff.1 hne) fun _ => fst_lt_of_mem_differing
  have hy := spans_leastOf_greatestOf (mt List.map_eq_nil_iff.1 hne) fun _ => snd_lt_of_mem_differing
  cases hd : differing s with
  | nil => exact absurd hd hne
  | cons p rest => rw [hd] at hx hy; exact ⟨hx, hy⟩

/-! The blend selection (R293). -/

/-- A pixel that forces `Source`, by its place on the canvas (R293). -/
def sourcePixel (s : State) (x y : Nat) : Prop :=
  pixelDiffers s x y ∧ (s.byte .da (pixelAddr s x y + 3)).toNat < s.op.tAlpha.toNat ∧
    s.byte .db (pixelAddr s x y + 3) = 255#8

theorem forcesSource_iff {c r : Nat} : forcesSource s c r = true ↔ sourcePixel s (rectX s + c) (rectY s + r) := by
  unfold forcesSource
  rw [Bool.and_eq_true, Bool.and_eq_true, decide_eq_true_iff, decide_eq_true_iff, differs_iff, and_assoc]
  rfl

theorem deltaBlendRun_blendSel_eq_false :
    (deltaBlendRun s).blendSel = false ↔
      ∃ c r, c < rectW s ∧ r < rectH s ∧ sourcePixel s (rectX s + c) (rectY s + r) := by
  simp only [deltaBlendRun, Bool.not_eq_false', List.any_eq_true, mem_pixelsOf, forcesSource_iff, Prod.exists, and_assoc]

end Sys2Proof.Machine

namespace Sys2Proof.Proofs
open Sys2Proof Sys2Proof.Machine Sys2Proof.Claim

/-- Settles O59: with a differing pixel the box spans their columns and their rows, and without one it is the top-left pixel,
which every accepted canvas has. -/
theorem boundingBox : Obligations.BoundingBox := by
  intro s hp
  refine ⟨_, exec_deltaBbox hp, rfl, ?_⟩
  by_cases hempty : differing s = []
  · have hnone : ∀ x y, ¬ changedPixel s x y := fun x y hc =>
      List.not_mem_nil (hempty ▸ mem_differing_iff_changedPixel.2 hc)
    rw [hempty]
    exact ⟨fun _ => ⟨rfl, rfl, rfl, rfl⟩, fun x y hc => absurd hc (hnone x y),
      fun ⟨x, y, hc⟩ => absurd hc (hnone x y), canvas_pos_of_passes_deltaBbox hp⟩
  · obtain ⟨hx, hy⟩ := boxOf_differing_spans hempty
    refine ⟨fun hnone => ?_, fun x y hc => ?_, fun _ => ⟨mem_map_fst_differing.1 hx.first, mem_map_fst_differing.1 hx.last,
      mem_map_snd_differing.1 hy.first, mem_map_snd_differing.1 hy.last⟩, hx.end_le fun _ => fst_lt_of_mem_differing,
      hy.end_le fun _ => snd_lt_of_mem_differing⟩
    · obtain ⟨y, hc⟩ := mem_map_fst_differing.1 hx.first
      exact absurd hc (hnone _ y)
    · obtain ⟨hleft, hright⟩ := hx.covers x (mem_map_fst_differing.2 ⟨y, hc⟩)
      exact ⟨hleft, hright, hy.covers y (mem_map_snd_differing.2 ⟨x, hc⟩)⟩

/-- Settles O60: `(c, r)` counts the rectangle's pixels from its corner, `(x, y)` from the canvas's. -/
theorem blendSelection : Obligations.BlendSelection := by
  intro s hp
  refine ⟨_, exec_deltaBlend hp, rfl, deltaBlendRun_blendSel_eq_false.trans ⟨?_, ?_⟩⟩
  · rintro ⟨c, r, hc, hr, hpix⟩
    exact ⟨rectX s + c, rectY s + r, Nat.le_add_right _ _, Nat.add_lt_add_left hc _, Nat.le_add_right _ _,
      Nat.add_lt_add_left hr _, hpix⟩
  · rintro ⟨x, y, hx, hxw, hy, hyh, hpix⟩
    obtain ⟨c, rfl⟩ := Nat.exists_eq_add_of_le hx
    obtain ⟨r, rfl⟩ := Nat.exists_eq_add_of_le hy
    exact ⟨c, r, Nat.lt_of_add_lt_add_left hxw, Nat.lt_of_add_lt_add_left hyh, hpix⟩

end Sys2Proof.Proofs
end

section
/-! NOP in the terms of the statements (R303): a command without a body. -/

namespace Sys2Proof.Machine
open Sys2Proof.Claim

variable (s : State)

/-- NOP starts a command and ends it, with nothing in between. -/
theorem exec_nop : exec .nop s = .next s.begin.finish := rfl

/-- The end of a command sets `DONE` in the status its start has cleared; no other field is written (R300). -/
theorem State.begin_finish : s.begin.finish = ended s := rfl

end Sys2Proof.Machine

namespace Sys2Proof.Proofs
open Sys2Proof Sys2Proof.Machine Sys2Proof.Claim

/-- Settles O21: NOP is the start and the end of a command, which together write `STATUS` and `ERRINFO` only. -/
theorem nopEffect : Obligations.NopEffect := by
  intro s
  rw [exec_nop, State.begin_finish]

end Sys2Proof.Proofs
end

section
/-! The ends of a command (R320, R323, R324): it ends without a fault, with a fault of its start that changes nothing but
`STATUS` and `ERRINFO`, or with a fault of its data; and the reset event (R350). -/

namespace Sys2Proof.Machine
open Sys2Proof.Claim

variable {s t u : State} {i : Instr} {checks : List Check} {body : State → State}

/-- `STATUS` and `ERRINFO` with no fault raised since the `CMD` write cleared them (R320). -/
structure Unfaulted (u : State) : Prop where
  busy : u.status.busy = false
  err : u.status.err = false
  errcode : u.status.errcode = 0#8
  errinfo : u.errinfo = 0#32

/-- How command `i`, run from `s`, can end in `t` (R320, R321, R324). -/
inductive CommandEnds (i : Instr) (s t : State) : Prop
  /-- Normally, or, for LZW.DECODE only, with a warning. -/
  | ok (unfaulted : Unfaulted t) (done : t.status.done = true) (flags : t.status = okStatus ∨ i = .lzwDecode)
  /-- With a fault raised before anything was written. -/
  | atStart (e : ErrKind) (info : Nat) (early : (errCode e).toNat ≤ 4) (state : t = faulted s (errCode e) info)
  /-- With a fault the data raised, which the compositor's commands have none of. -/
  | onData (e : ErrKind) (late : 5 ≤ (errCode e).toNat) (status : t.status = faultStatus (errCode e))
      (notComp : ¬ (i = .compReset ∨ i = .compFrame))

/-! The end of a body. -/

theorem Unfaulted.begin : Unfaulted s.begin := ⟨rfl, rfl, rfl, rfl⟩

theorem Unfaulted.finish (h : Unfaulted u) : Unfaulted u.finish := ⟨rfl, h.err, h.errcode, h.errinfo⟩

theorem Unfaulted.ends (h : Unfaulted u) (flags : u.status = Status.zero ∨ i = .lzwDecode) :
    CommandEnds i s u.complete := by
  rw [State.complete_of_ok u h.err]
  refine .ok h.finish rfl (flags.imp_left fun hzero => ?_)
  rw [State.finish_status, hzero]
  rfl

/-- A body that leaves `STATUS` and `ERRINFO` alone ends normally. -/
theorem ends_of_quiet (status : u.status = Status.zero := by rfl) (errinfo : u.errinfo = 0#32 := by rfl) :
    CommandEnds i s u.complete :=
  Unfaulted.ends ⟨by rw [status]; rfl, by rw [status]; rfl, by rw [status]; rfl, errinfo⟩ (.inl status)

theorem ends_of_raise {e : ErrKind} (early : (errCode e).toNat ≤ 4) (info : Nat) :
    CommandEnds i s (s.begin.raise e info).complete := .atStart e info early (State.complete_of_err _ rfl)

theorem ends_of_dataFault {e : ErrKind} (late : 5 ≤ (errCode e).toNat) (status : u.status = faultStatus (errCode e))
    (notComp : ¬ (i = .compReset ∨ i = .compFrame)) : CommandEnds i s u.complete := by
  rw [State.complete_of_err u (by rw [status]; rfl)]
  exact .onData e late status notComp

/-- A failing operand check is a fault of the start; otherwise the command ends as its body does (R300, R325). -/
theorem command_ends (h : (∀ c ∈ checks, c.1 = true) → CommandEnds i s (body s.begin).complete) :
    CommandEnds i s (command checks body s) := by
  rcases command_cases checks body s with ⟨reg, _, hc⟩ | ⟨hpass, hc⟩
  · rw [hc]; exact .atStart .param reg (by decide) rfl
  · rw [hc]; exact h ((firstFailing_eq_none checks).1 hpass)

/-! The run of LZW.DECODE (R130, R142, R149): only an invalid code raises a fault. -/

theorem lzwData_unfaulted (h : Unfaulted s) (str : List Byte) (code : BitVec 12) : Unfaulted (lzwData str code s) := by
  rw [lzwData_frame]
  exact ⟨h.busy, h.err, h.errcode, h.errinfo⟩

theorem lzwCode_unfaulted_or_faulted (h : Unfaulted s) (code : BitVec 12) :
    Unfaulted (lzwCode code s) ∨ (lzwCode code s).status = faultStatus (errCode .lzwCode) := by
  unfold lzwCode
  split
  · exact .inl ⟨h.busy, h.err, h.errcode, h.errinfo⟩
  · exact .inl ⟨h.busy, h.err, h.errcode, h.errinfo⟩
  · exact .inl (lzwData_unfaulted h _ _)
  · exact .inl (lzwData_unfaulted h _ _)
  · exact .inl (lzwData_unfaulted h _ _)
  · exact .inr rfl

theorem lzwTurn_unfaulted_or_faulted (h : Unfaulted s) (stream nbits : Nat) :
    Unfaulted (lzwTurn stream nbits s) ∨ (lzwTurn stream nbits s).status = faultStatus (errCode .lzwCode) := by
  rcases lzwTurn_cases stream nbits s with ⟨_, hturn⟩ | ⟨_, hturn⟩
  · rw [hturn]; exact .inl ⟨h.busy, h.err, h.errcode, h.errinfo⟩
  · rw [hturn]
    exact lzwCode_unfaulted_or_faulted (s := lzwAdvance s) ⟨h.busy, h.err, h.errcode, h.errinfo⟩ _

/-- The loop keeps "no fault yet, or the one of an invalid code", since a fault halts it. -/
theorem lzwLoop_unfaulted_or_faulted (h : Unfaulted s) (stream nbits turns : Nat) :
    Unfaulted (lzwLoop stream nbits turns s) ∨ (lzwLoop stream nbits turns s).status = faultStatus (errCode .lzwCode) := by
  refine lzwLoop_keeps_of_no_err (fun u => Unfaulted u ∨ u.status = faultStatus (errCode .lzwCode)) stream nbits
    (fun u hu hrun => ?_) turns s (.inl h) h.err
  rcases hu with hu | hfault
  · exact lzwTurn_unfaulted_or_faulted hu _ _
  · rw [hfault] at hrun; cases hrun

theorem lzwFinish_of_err (h : u.status.err = true) : lzwFinish u = u := if_pos h

theorem lzwFinish_unfaulted (h : Unfaulted u) : Unfaulted (lzwFinish u) := by
  rw [lzwFinish, if_neg (by simp [h.err])]
  exact ⟨h.busy, h.err, h.errcode, h.errinfo⟩

theorem lzwRun_ends : CommandEnds .lzwDecode s (lzwRun s.begin).complete := by
  have hinit : Unfaulted (lzwInit s.begin) := ⟨rfl, rfl, rfl, rfl⟩
  rcases lzwLoop_unfaulted_or_faulted hinit (bitStream (payload s.begin)) (8 * (payload s.begin).length)
    (8 * (payload s.begin).length + 1) with hok | hfault
  · exact (lzwFinish_unfaulted hok).ends (.inr rfl)
  · refine ends_of_dataFault (e := .lzwCode) (by decide) ?_ (by decide)
    rw [lzwRun, lzwFinish_of_err (by rw [hfault]; rfl), hfault]

/-! The bodies of the other commands. -/

theorem blitRun_ends (mode : BlitMode) : CommandEnds .blitGif s (blitRun mode s.begin).complete := by
  rcases blitRun_cases mode s.begin with ⟨n, _, hrun⟩ | ⟨_, hrun⟩
  · rw [hrun, forgetRect_frame]; exact ends_of_dataFault (e := .palIndex) (by decide) rfl (by decide)
  · rw [hrun]; exact ends_of_quiet

theorem defilterRun_ends : CommandEnds .defilterRun s (defilterRun s.begin).complete := by
  rcases defilterRun_cases s.begin with ⟨_, hrun⟩ | ⟨_, n, _, hrun⟩ | ⟨_, rows, _, hrun⟩
  · rw [hrun]; exact ends_of_raise (by decide) _
  · rw [hrun]; exact ends_of_dataFault (e := .filterTag) (by decide) rfl (by decide)
  · rw [hrun]; exact ends_of_quiet

theorem adam7Run_ends : CommandEnds .adam7Run s (adam7Run s.begin).complete := by
  rcases adam7Run_cases s.begin with ⟨_, hrun⟩ | ⟨_, n, _, hrun⟩ | ⟨_, raw, _, hrun⟩
  · rw [hrun]; exact ends_of_raise (by decide) _
  · rw [hrun]; exact ends_of_dataFault (e := .filterTag) (by decide) rfl (by decide)
  · rw [hrun]; exact ends_of_quiet

theorem expandImage_ends (pixel : State → Nat → Nat → Option (List Byte)) :
    CommandEnds .unpackRgba s (expandImage pixel s.begin).complete := by
  rcases expandImage_cases pixel s.begin with ⟨p, _, hrun⟩ | ⟨_, hrun⟩
  · rw [hrun]; exact ends_of_dataFault (e := .palIndex) (by decide) rfl (by decide)
  · rw [hrun]; exact ends_of_quiet

theorem unpackRgbaRun_ends : CommandEnds .unpackRgba s (unpackRgbaRun s.begin).complete := by
  rcases unpackRgbaRun_cases s.begin with ⟨pixel, _, hrun⟩ | hrun
  · rw [hrun]; exact expandImage_ends pixel
  · rw [hrun]; exact ends_of_raise (by decide) _

/-- COMP.FRAME raises `E_SEQ` before its checks, and no fault after them (R262, R263). -/
theorem compFrameCommand_ends : CommandEnds .compFrame s (compFrameCommand s) := by
  unfold compFrameCommand
  split
  next =>
    refine command_ends fun hp => ?_
    rw [compFrameRun_frame (s := s.begin) (dispose_le_of_checks hp)]
    exact ends_of_quiet
  next => exact .atStart .seq 0 (by decide) rfl

/-- Every command answers a next state, in one of the ends (R320). -/
theorem exec_command_ends (hi : isCommand i = true) (s : State) : ∃ t, exec i s = .next t ∧ CommandEnds i s t := by
  cases i
  case nop => exact ⟨_, rfl, .ok Unfaulted.begin.finish rfl (.inl rfl)⟩
  case lzwDecode => exact ⟨_, rfl, command_ends fun _ => lzwRun_ends⟩
  case blitGif => exact ⟨_, rfl, command_ends fun _ => blitRun_ends _⟩
  case defilterRun => exact ⟨_, rfl, command_ends fun _ => defilterRun_ends⟩
  case adam7Run => exact ⟨_, rfl, command_ends fun _ => adam7Run_ends⟩
  case unpackIdx => exact ⟨_, rfl, command_ends fun _ => ends_of_quiet⟩
  case unpackRgba => exact ⟨_, rfl, command_ends fun _ => unpackRgbaRun_ends⟩
  case compReset => exact ⟨_, rfl, command_ends fun _ => ends_of_quiet⟩
  case compFrame => exact ⟨_, rfl, compFrameCommand_ends⟩
  case deltaBbox => exact ⟨_, rfl, command_ends fun _ => ends_of_quiet⟩
  case deltaBlend => exact ⟨_, rfl, command_ends fun _ => ends_of_quiet⟩
  case cmdReserved opcode => exact ⟨_, rfl, .atStart .cmd opcode.toNat (by decide) rfl⟩
  all_goals cases hi

/-! What the ends say of `STATUS` (R320, R321). -/

/-- The fault codes count from 1 (R321). -/
theorem one_le_errCode (e : ErrKind) : 1 ≤ (errCode e).toNat := by
  cases e <;> decide

/-- Either kind of fault leaves the one status R323 gives its code. -/
theorem CommandEnds.unfaulted_or_faulted (h : CommandEnds i s t) :
    (Unfaulted t ∧ t.status.done = true ∧ (t.status = okStatus ∨ i = .lzwDecode)) ∨
      ∃ e, t.status = faultStatus (errCode e) := by
  cases h with
  | ok unfaulted done flags => exact .inl ⟨unfaulted, done, flags⟩
  | atStart e info _ state => exact .inr ⟨e, by rw [state]; rfl⟩
  | onData e _ status _ => exact .inr ⟨e, status⟩

end Sys2Proof.Machine

namespace Sys2Proof.Proofs
open Sys2Proof Sys2Proof.Machine Sys2Proof.Claim

/-- Settles O18: an early code tells a fault of the start, which wrote nothing, from a late one, whose command keeps to its
frame and its footprint. -/
theorem stateAfterFault : Obligations.StateAfterFault := by
  intro w s t hexec herr
  obtain ⟨u, hu, hends⟩ := exec_command_ends (isCommand_decode_cmd w) s
  obtain rfl : u = t := by rw [hu] at hexec; cases hexec; rfl
  cases hends with
  | ok unfaulted _ _ => rw [unfaulted.err] at herr; cases herr
  | atStart e info early state =>
    subst state
    exact ⟨fun _ => rfl, fun hlate => absurd (hlate.trans early) (by decide)⟩
  | onData e late status notComp =>
    rw [status]
    have hw := exec_writesOnly _ s u hexec
    exact ⟨fun hearly => absurd (late.trans hearly) (by decide), fun _ =>
      ⟨exec_byte_outside _ s u hexec, hw.pal, hw.trnsa, hw.op, hw.compReady fun h => notComp (.inl h),
        hw.compFrame notComp⟩⟩

/-- Settles O19: each end of a command is one of the three. -/
theorem commandOutcome : Obligations.CommandOutcome := by
  intro w s
  obtain ⟨t, hexec, hends⟩ := exec_command_ends (isCommand_decode_cmd w) s
  rcases hends.unfaulted_or_faulted with ⟨hok, hdone, hflags⟩ | ⟨e, hfault⟩
  · exact ⟨t, hexec, hdone, hok.busy, .inl ⟨hok.err, hok.errcode, hok.errinfo, hflags⟩⟩
  · exact ⟨t, hexec, by rw [hfault]; rfl, by rw [hfault]; rfl,
      .inr ⟨errCode e, one_le_errCode e, (errCode_range e).2, hfault⟩⟩

/-- Settles O12: every register is as at reset, and no buffer or table lists an entry, so all reads are the new epoch's. -/
theorem resetEvent : Obligations.ResetEvent := by
  intro s rest hs hb
  obtain ⟨hregs, hready, -⟩ := resetValues
  refine ⟨_, step_ready hs hb, hregs, hready, fun sp _ => ?_, fun _ => rfl, fun _ => rfl, fun _ => rfl⟩
  cases sp <;> rfl

end Sys2Proof.Proofs
end
